-- ==== Sys2Proof/Word.lean ====
section
/-! DEFINITION. The word types of SDHB: every register, FIFO word, descriptor word and context word is 32 bits
(`REGW` of rule R7; rules R10, R88), a buffer byte is 8 bits (rule R86). -/

namespace Sys2Proof

/-- The one width of a register access and of a FIFO word (rules R7, R88): a parameter record is accepted only with
`REGW` = 32 (DEDUCED, log entry 25). -/
abbrev Word := BitVec 32

/-- One byte of the data buffer (rule R86). -/
abbrev Byte := BitVec 8

/-- `v & mask != 0`, the one test SDHB makes of a register value (rule R10's `&`). -/
def Word.hits (v mask : Word) : Bool := v &&& mask != 0

/-- `floor(a / b)` rounded up: the number of `b`-sized pieces of `a` (rule R214's `ceil`). -/
def ceilDiv (a b : Nat) : Nat := (a + b - 1) / b

end Sys2Proof
end

