-- ==== Sys2Proof/Config.lean ====
section
/-! DEFINITION. What an implementation of SDHB fixes: the parameter record of rule R7 with the layout parameters of
rules R50 to R66, each with the default the spec decides for this hardware, and the one free value of the
environment contract (rule R95). The checks on a record (rules R8, R66, R155) are in Machine/Layout.lean. -/

namespace Sys2Proof

/-- The sixteen host-controller registers SDHB touches, by the names of rule R50. -/
inductive Reg where
  | blkszcnt | arg | cmd | rsp0 | rsp1 | rsp2 | rsp3 | data
  | pstate | hostctl | clkctl | intsts | inten | intsig | caps | version
  deriving DecidableEq, Repr

namespace Config

/-- The register offsets of rule R50, in bytes from `C.REGBASE`. -/
structure Offsets where
  blkszcnt : Nat := 0x04
  arg      : Nat := 0x08
  cmd      : Nat := 0x0C
  rsp0     : Nat := 0x10
  rsp1     : Nat := 0x14
  rsp2     : Nat := 0x18
  rsp3     : Nat := 0x1C
  data     : Nat := 0x20
  pstate   : Nat := 0x24
  hostctl  : Nat := 0x28
  clkctl   : Nat := 0x2C
  intsts   : Nat := 0x30
  inten    : Nat := 0x34
  intsig   : Nat := 0x38
  caps     : Nat := 0x40
  version  : Nat := 0xFC
  deriving DecidableEq, Repr

/-- `BLKSZCNT` and `CMD` fields (rules R51, R53, R123). -/
structure CommandLayout where
  /-- `BLKSIZE`, 12 bits wide (rule R51). -/
  blksizeShift  : Nat := 0
  /-- `BLKCOUNT`, 16 bits wide (rule R51). -/
  blkcountShift : Nat := 16
  xDmaEn        : Word := 0x00000001
  xBlkcntEn     : Word := 0x00000002
  xAutoCmd12    : Word := 0x00000004
  xRead         : Word := 0x00000010
  xMulti        : Word := 0x00000020
  /-- `CMD_RESP`, 2 bits wide. -/
  cmdRespShift  : Nat := 16
  cmdCrcChk     : Word := 0x00080000
  cmdIdxChk     : Word := 0x00100000
  cmdData       : Word := 0x00200000
  /-- `CMD_INDEX_SHIFT`; the field is 6 bits wide. -/
  cmdIndexShift : Nat := 24
  /-- Response-type codes (rule R123). -/
  respNone      : BitVec 2 := 0
  respLong      : BitVec 2 := 1
  respShort     : BitVec 2 := 2
  respBusy      : BitVec 2 := 3
  deriving DecidableEq, Repr

/-- `PSTATE`, `HOSTCTL` and `CLKCTL` fields (rules R56, R57, R58). -/
structure ControlLayout where
  psCmdInhibit : Word := 0x00000001
  psDatInhibit : Word := 0x00000002
  hcBw4        : Word := 0x00000002
  hcBw8        : Word := 0x00000020
  hcPowerEn    : Word := 0x00000100
  hcPowerLevel : Word := 0x00000E00
  hcPwr1V8     : Word := 0x00000A00
  hcPwr3V0     : Word := 0x00000C00
  hcPwr3V3     : Word := 0x00000E00
  ccIce        : Word := 0x00000001
  ccStable     : Word := 0x00000002
  ccSdce       : Word := 0x00000004
  /-- `CC_DIV_HI`, 2 bits wide. -/
  ccDivHiShift : Nat := 6
  /-- `CC_DIV_LO`, 8 bits wide. -/
  ccDivLoShift : Nat := 8
  /-- `CC_DTO`, 4 bits wide. -/
  ccDtoShift   : Nat := 16
  ccRstAll     : Word := 0x01000000
  ccRstCmd     : Word := 0x02000000
  ccRstDat     : Word := 0x04000000
  deriving DecidableEq, Repr

/-- `INTSTS`, `CAPS` and `VERSION` fields (rules R59, R62, R63). -/
structure StatusLayout where
  isCmdComplete    : Word := 0x00000001
  isXferComplete   : Word := 0x00000002
  isBufWrReady     : Word := 0x00000010
  isBufRdReady     : Word := 0x00000020
  isError          : Word := 0x00008000
  isCmdTimeout     : Word := 0x00010000
  isDataTimeout    : Word := 0x00100000
  isDataCrc        : Word := 0x00200000
  isDataEndbit     : Word := 0x00400000
  capsBaseclkShift : Nat := 8
  capsBaseclkPre3  : Word := 0x0000003F
  capsBaseclkV3    : Word := 0x000000FF
  capsAdma2        : Word := 0x00080000
  capsHighSpeed    : Word := 0x00200000
  capsV33          : Word := 0x01000000
  capsV30          : Word := 0x02000000
  capsV18          : Word := 0x04000000
  /-- the version code, 8 bits wide (rule R63). -/
  versionShift     : Nat := 16
  deriving DecidableEq, Repr

/-- Bits 0 to 7 of `C.HOSTCAPS` (rule R21). -/
def capHighSpeed      : Word := 0x01
def capHighSpeed52MHz : Word := 0x02
def cap4Bit           : Word := 0x04
def cap8Bit           : Word := 0x08
def capSpi            : Word := 0x10
def capAutoCmd12      : Word := 0x20
def capAdma2          : Word := 0x40
def capResp136Shifted : Word := 0x80

/-- The parameter record of rule R7, with the layout of rule R66. The defaults are the spec's. `addrW`, the
platform address width, has no default in the spec: DESIGN CHOICE, log entry 6. -/
structure Params where
  /-- `REGW`. A record with another width than the 32 bits of rules R87 and R88 is refused (DEDUCED, log entry 25). -/
  regw            : Nat := 32
  blk             : Word := 512
  tStep           : Nat := 50
  tInhibit        : Nat := 1000000
  tCmd            : Nat := 1000000
  tData           : Nat := 1000000
  tReset          : Nat := 1000000
  tClock          : Nat := 1000000
  intAll          : Word := 0xFFFFFFFF
  intEnDefault    : Word := 0x007F8033
  opStop          : BitVec 6 := 12
  opReadMulti     : BitVec 6 := 18
  opWriteMulti    : BitVec 6 := 25
  hostverV3       : BitVec 8 := 2
  maxdivPre3      : Word := 256
  maxdivV3        : Word := 2046
  baseclkUnitPre3 : Word := 1000000
  baseclkUnitV3   : Word := 1000000
  dtoDefault      : BitVec 4 := 0xE
  vset1V8         : Word := 0x00000080
  vset3V0         : Word := 0x00060000
  vset3V3         : Word := 0x00300000
  hsCapSets       : Word := 0x01
  elapsedW        : Nat := 64
  addrW           : Nat := 32
  offs            : Offsets := {}
  cl              : CommandLayout := {}
  hl              : ControlLayout := {}
  sl              : StatusLayout := {}
  deriving DecidableEq, Repr

/-- The record of this hardware: every parameter at the default of rules R7 and R50 to R63. -/
def params : Params := {}

/-- FREE VALUE (rules R95, R73; U6): what the environment answers to its `draw`-th register read, made at address
`addr`, when no answer has been scripted for it. Nothing constrains it (log entry 2). -/
opaque regAnswer (draw addr : Nat) : Word

end Config
end Sys2Proof
end

