-- ==== Sys2Proof/Machine/Layout.lean ====
section
/-! DEFINITION. What follows from a parameter record: the offset of each register (rule R50), the derived masks of
rule R59, the poll bound of rule R9, and the checks of rules R8, R66 and R155 on a record. -/

namespace Sys2Proof.Config

/-- The offset of a register (rule R50). -/
def Params.off (p : Params) : Reg → Nat
  | .blkszcnt => p.offs.blkszcnt
  | .arg      => p.offs.arg
  | .cmd      => p.offs.cmd
  | .rsp0     => p.offs.rsp0
  | .rsp1     => p.offs.rsp1
  | .rsp2     => p.offs.rsp2
  | .rsp3     => p.offs.rsp3
  | .data     => p.offs.data
  | .pstate   => p.offs.pstate
  | .hostctl  => p.offs.hostctl
  | .clkctl   => p.offs.clkctl
  | .intsts   => p.offs.intsts
  | .inten    => p.offs.inten
  | .intsig   => p.offs.intsig
  | .caps     => p.offs.caps
  | .version  => p.offs.version

/-- The sixteen registers of rule R50, in its order. -/
def allRegs : List Reg :=
  [.blkszcnt, .arg, .cmd, .rsp0, .rsp1, .rsp2, .rsp3, .data, .pstate, .hostctl, .clkctl, .intsts, .inten, .intsig,
   .caps, .version]

/-- `IS_DATA_ERR` (rule R59). -/
def StatusLayout.isDataErr (l : StatusLayout) : Word := l.isDataTimeout ||| l.isDataCrc ||| l.isDataEndbit

/-- `IS_TRAILING` (rule R59). -/
def StatusLayout.isTrailing (l : StatusLayout) : Word := l.isXferComplete ||| l.isBufWrReady ||| l.isBufRdReady

/-- `INT_TESTED` (rule R59): the nine bits SDHB tests by name. -/
def StatusLayout.intTested (l : StatusLayout) : Word :=
  l.isCmdComplete ||| l.isXferComplete ||| l.isBufWrReady ||| l.isBufRdReady ||| l.isError ||| l.isCmdTimeout
    ||| l.isDataErr

/-- `NPOLL(T)` (rule R9): the reads a poll with timeout `t` makes before it gives up. -/
def Params.npoll (p : Params) (t : Nat) : Nat := t / p.tStep + 1

/-- No two fields of a register overlap (rule R66). -/
def disjoint : List Word → Bool
  | [] => true
  | m :: ms => ms.all (fun m' => m &&& m' == 0) && disjoint ms

/-- The fields of `BLKSZCNT` (rule R51). -/
def Params.blkszcntFields (p : Params) : List Word :=
  [0xFFF#32 <<< p.cl.blksizeShift, 0xFFFF#32 <<< p.cl.blkcountShift]

/-- The fields of `CMD` (rule R53). -/
def Params.cmdFields (p : Params) : List Word :=
  [p.cl.xDmaEn, p.cl.xBlkcntEn, p.cl.xAutoCmd12, p.cl.xRead, p.cl.xMulti, 3#32 <<< p.cl.cmdRespShift, p.cl.cmdCrcChk,
   p.cl.cmdIdxChk, p.cl.cmdData, 0x3F#32 <<< p.cl.cmdIndexShift]

/-- The fields of `HOSTCTL` (rule R57). -/
def Params.hostctlFields (p : Params) : List Word := [p.hl.hcBw4, p.hl.hcBw8, p.hl.hcPowerEn, p.hl.hcPowerLevel]

/-- The fields of `CLKCTL` (rule R58). -/
def Params.clkctlFields (p : Params) : List Word :=
  [p.hl.ccIce, p.hl.ccStable, p.hl.ccSdce, 3#32 <<< p.hl.ccDivHiShift, 0xFF#32 <<< p.hl.ccDivLoShift,
   0xF#32 <<< p.hl.ccDtoShift, p.hl.ccRstAll, p.hl.ccRstCmd, p.hl.ccRstDat]

/-- The nine named bits of `INTSTS` (rule R59). -/
def Params.intstsFields (p : Params) : List Word :=
  [p.sl.isCmdComplete, p.sl.isXferComplete, p.sl.isBufWrReady, p.sl.isBufRdReady, p.sl.isError, p.sl.isCmdTimeout,
   p.sl.isDataTimeout, p.sl.isDataCrc, p.sl.isDataEndbit]

/-- The fields of `CAPS` (rule R62); the two base-clock fields are one, seen at two widths. -/
def Params.capsFields (p : Params) : List Word :=
  [(p.sl.capsBaseclkPre3 ||| p.sl.capsBaseclkV3) <<< p.sl.capsBaseclkShift, p.sl.capsAdma2, p.sl.capsHighSpeed,
   p.sl.capsV33, p.sl.capsV30, p.sl.capsV18]

/-- The two base-clock masks of `CAPS` may have any width (DEDUCED from rule R66 and D14, log entry 35): each fits its
word after the shift, and the product of rule R155 stays below `2^32` for the largest value it lets through. -/
def Params.baseclkOk (p : Params) : Bool :=
  [(p.sl.capsBaseclkPre3, p.baseclkUnitPre3), (p.sl.capsBaseclkV3, p.baseclkUnitV3)].all fun (mask, unit) =>
    (mask <<< p.sl.capsBaseclkShift) >>> p.sl.capsBaseclkShift == mask && decide (mask.toNat * unit.toNat < 2 ^ 32)

/-- The fields of each register are apart from one another, each inside its 32-bit word, and a power-level code stays
in its field (rule R66; that a field fits its word is DEDUCED, log entries 14 and 35). -/
def Params.layoutOk (p : Params) : Bool :=
  disjoint p.blkszcntFields && disjoint p.cmdFields && disjoint [p.hl.psCmdInhibit, p.hl.psDatInhibit]
    && disjoint p.hostctlFields && disjoint p.clkctlFields && disjoint p.intstsFields && disjoint p.capsFields
    && decide (p.cl.blksizeShift + 12 ≤ 32) && decide (p.cl.blkcountShift + 16 ≤ 32)
    && decide (p.cl.cmdRespShift + 2 ≤ 32) && decide (p.cl.cmdIndexShift + 6 ≤ 32)
    && decide (p.hl.ccDivHiShift + 2 ≤ 32) && decide (p.hl.ccDivLoShift + 8 ≤ 32)
    && decide (p.hl.ccDtoShift + 4 ≤ 32) && decide (p.sl.versionShift + 8 ≤ 32)
    && p.baseclkOk && [p.hl.hcPwr1V8, p.hl.hcPwr3V0, p.hl.hcPwr3V3].all (fun m => m &&& ~~~p.hl.hcPowerLevel == 0)

/-- All register offsets are multiples of 4, pairwise different and at most 0xFC (rule R8). -/
def Params.offsetsOk (p : Params) : Bool :=
  (allRegs.map p.off).all (fun o => o % 4 == 0 && decide (o ≤ 0xFC)) && decide (allRegs.map p.off).Nodup

/-- A power of two (rule R8 on `MAXDIV_PRE3`). -/
def isPow2 (w : Word) : Bool := w != 0 && w &&& (w - 1) == 0

/-- The elapsed counter holds `T + T_STEP` for every timeout (DEDUCED from rule R42's "It cannot overflow", log
entry 7). -/
def Params.elapsedOk (p : Params) : Bool :=
  [p.tInhibit, p.tCmd, p.tData, p.tReset, p.tClock].all (fun t => decide (t + p.tStep < 2 ^ p.elapsedW))

/-- The constraints of rule R8 that are not on offsets, and the product bound of rule R155. That the opcodes are at
most 63 and the timeouts at least 0 holds by their types. Two constraints are DEDUCED: `REGW` is 32 (rules R87, R88; log
entry 25), and `HS_CAP_SETS` has no bit but 0 and 1, as rule R21 lets INIT0 set no other by it (log entry 34). The two
divisor bounds have no upper limit here, as rule R8 states none: DESIGN CHOICE, log entry 36 (rule R129 has `N <= 1023`). -/
def Params.valuesOk (p : Params) : Bool :=
  p.regw == 32 && p.hsCapSets &&& ~~~3 == 0 && p.blk.toNat % 4 == 0 && decide (4 ≤ p.blk.toNat) && decide (p.blk.toNat ≤ 0xFFF) && decide (1 ≤ p.tStep)
    && p.intEnDefault &&& p.sl.intTested == p.sl.intTested
    && isPow2 p.maxdivPre3 && p.maxdivV3.toNat % 2 == 0 && decide (2 ≤ p.maxdivV3.toNat)
    && p.opStop != p.opReadMulti && p.opStop != p.opWriteMulti && p.opReadMulti != p.opWriteMulti
    && decide (255 * p.baseclkUnitV3.toNat < 2 ^ 32) && decide (63 * p.baseclkUnitPre3.toNat < 2 ^ 32)

/-- The record a model accepts (rules R8, R66, R155; U4). -/
def Params.valid (p : Params) : Bool := p.valuesOk && p.offsetsOk && p.layoutOk && p.elapsedOk

end Sys2Proof.Config
end

