-- ==== Sys2Proof/Syntax.lean ====
section
/-! DEFINITION. The operations of SDHB (rule R2), the operands a request carries (rules R30 to R33) and what the
requester can present at the request port (rules R24, R40, R110, R111, R136). -/

namespace Sys2Proof

/-- The ten operations of rule R2, one constructor per row of the opcode table. FIFO_READ and FIFO_WRITE are the
internal sub-operations of SEND: they have no request encoding. -/
inductive Instr where
  | init0
  | init1
  /-- `flags` is `Q.FLAGS`: bit 0 `ALL`, bit 1 `COMMAND_LINE`, bit 2 `DATA_LINE` (rule R33). -/
  | reset (flags : BitVec 3)
  | send
  | getbw
  | setbw
  | getclk
  | setclk
  | fifoRead
  | fifoWrite
  deriving DecidableEq, Repr

/-- `D.RCLASS` (rule R32). -/
inductive RClass where
  | none | short | long | busy
  deriving DecidableEq, Repr

/-- `D.DIR` (rule R30): read moves card data into the buffer, write moves the buffer to the card. -/
inductive Dir where
  | read | write
  deriving DecidableEq, Repr

/-- The statuses of rule R118, in its order. -/
inductive Status where
  | success | timeout | deviceError | invalidParameter | unsupported
  | notReady | noMedia | mediaChanged | outOfResources
  deriving DecidableEq, Repr

/-- The descriptor registers `D.*` of rule R30 but for the buffer handle. `reserved` holds `DCW[31:11]` of the
packed form (rule R114), 0 when the descriptor is passed as separate registers. -/
structure Descriptor where
  opcode   : BitVec 6
  rclass   : RClass
  crc      : Bool
  opchk    : Bool
  dir      : Dir
  arg      : Word
  bufsize  : Word
  resp     : Vector Word 4
  reserved : BitVec 21
  deriving DecidableEq, Repr

/-- The packed descriptor of rule R114: seven words. -/
structure DescWords where
  dcw     : Word
  arg     : Word
  bufsize : Word
  resp    : Vector Word 4
  deriving DecidableEq, Repr

/-- A configuration load (rule R24): `C.REGBASE` must be supplied, the other three may be left. -/
structure ConfigLoad where
  regbase  : Nat
  hostcaps : Option Word
  voltages : Option Word
  fundclk  : Option Word
  deriving DecidableEq, Repr

/-- One act of the requester at the request port, taken while SDHB is `IDLE`. -/
inductive ReqMsg where
  /-- the configuration load of rule R24. -/
  | config (c : ConfigLoad)
  /-- load `Q.VALUE` (rule R111). -/
  | loadValue (v : Word)
  /-- load the descriptor as separate registers (rules R30, R111). -/
  | loadDesc (d : Descriptor)
  /-- load the descriptor in its packed form (rule R114). -/
  | loadWords (w : DescWords)
  /-- load `D.BUF`: attach a buffer holding these bytes, or none (rules R30, R83). -/
  | attach (b : Option (List Byte))
  /-- present a request header `REQ` (rule R110). -/
  | present (req : Byte)
  /-- the stop of the pseudo-operation BRINGUP (rule R136): drop the next `n` acts unless the last operation ended
  with `Success`. -/
  | skipUnlessSuccess (n : Nat)
  deriving DecidableEq, Repr

/-- One line of the textual syntax (rules R135, R136). -/
inductive Line where
  | init (phase : Bool)
  | reset (flags : BitVec 3)
  | resetLines
  | send (op : BitVec 6) (resp : RClass) (crc opchk : Bool) (arg : Word) (data : Option (Dir × Word))
  | getbw
  | setbw (v : Word)
  | getclk
  | setclk (hz : Word)
  | bringup (reset : Bool)
  deriving DecidableEq, Repr

end Sys2Proof
end

