-- ==== Sys2Proof/Machine/State.lean ====
section
/-! DEFINITION. The state of SDHB as plain data: the context registers (rule R20), the descriptor and the operand and
result registers (rules R30, R33), the sequencer (rules R40 to R43), the data buffer (rule R83), and, as the model's
own fields, the parameter record (rule R7), the request port (rules R40, R110), the environment's answers (rule R95)
and the event history (rule R12). `State.reset` is power-on reset (rules R70 to R73, R300). -/

namespace Sys2Proof.Machine

/-- The BUF space of rule R83 as cells (byte offset in the attached buffer, byte), in the canonical form of
`Memory.wf` (Machine/Ops.lean). -/
abbrev Memory := List Host.Cell

/-- The five context registers of rule R20. `regbase` is `ADDR_W` bits wide and held as the number it stands for
(log entry 6). -/
structure Context where
  regbase  : Nat
  hostver  : BitVec 8
  hostcaps : Word
  voltages : Word
  fundclk  : Word
  deriving DecidableEq, Repr

/-- `Q.FLAGS`, `Q.VALUE`, `Q.RESULT` and `Q.STATUS` (rule R33). -/
structure OperandRegs where
  flags  : BitVec 3
  value  : Word
  result : Word
  status : BitVec 4
  deriving DecidableEq, Repr

/-! ## The sequencer position (rules R41, R43)

A position is a step label of files 40 to 45 together with the temporaries of rule R43 that are live there, so that
no temporary has a value where the spec gives it none (log entry 11). -/

/-- Where a `PollUntil` stands (rule R13): before `ELAPSED <- 0`, at P1, at P2. -/
inductive PollPos where
  | start | p1 | p2
  deriving DecidableEq, Repr

/-- The labels of INIT0 (rule R150). -/
inductive Init0Pos where
  | i0_1
  | i0_2
  | i0_3 (caps : Word)
  | i0_4 (caps : Word)
  | i0_5 (caps : Word)
  | i0_6 (caps : Word)
  deriving DecidableEq, Repr

/-- The labels of INIT1 (rule R158). -/
inductive Init1Pos where
  | i1_1
  | i1_2 (v : Word)
  | i1_3
  | i1_4
  deriving DecidableEq, Repr

/-- The labels of RESET (rule R170). -/
inductive ResetPos where
  | rs_1
  | rs_2 (bits : Word)
  | rs_3 (bits v : Word)
  | rs_4 (bits : Word) (p : PollPos)
  | rs_5
  | rs_6
  deriving DecidableEq, Repr

/-- The labels of SEND (rule R180). SC_8 and SC_11 have a second position each, where the sequencer stands when the
called sub-operation has ended; SC_10 has one position per response register still to read (rule R196). -/
inductive SendPos where
  | sc_0
  | sc_1
  | sc_2 (mask : Word) (p : PollPos)
  | sc_3
  | sc_4
  | sc_5
  | sc_6
  | sc_7 (p : PollPos)
  | sc_8 (v : Word)
  | sc_8r
  | sc_9 (v : Word)
  | sc_10 (v : Word)
  | sc_10b (r0 : Word)
  | sc_10c (r0 r1 : Word)
  | sc_10d (r0 r1 r2 : Word)
  | sc_11
  | sc_11r (st : Status)
  | sc_12
  deriving DecidableEq, Repr

/-- The labels of the data mover (rule R210). FF_6 has a position for its batch acknowledge, one for the head of its
word loop and one between the two accesses of a word; FF_7 has one between its read and its write. -/
inductive FifoPos where
  | ff_0
  | ff_1 (rem idx : Word)
  | ff_2 (rem idx n : Word) (p : PollPos)
  | ff_3 (rem idx n v : Word)
  | ff_4 (rem idx n v : Word)
  | ff_5 (rem idx n v : Word)
  | ff_6 (rem idx n v : Word)
  | ff_6k (rem idx n k : Word)
  | ff_6w (rem idx n k w : Word)
  | ff_7
  | ff_7w (v : Word)
  deriving DecidableEq, Repr

/-- The labels of GETBW (rule R230). -/
inductive GetbwPos where
  | gb_1
  | gb_2 (v : Word)
  deriving DecidableEq, Repr

/-- The labels of SETBW (rule R232). -/
inductive SetbwPos where
  | sb_0
  | sb_1
  | sb_2 (v : Word)
  deriving DecidableEq, Repr

/-- The labels of SETCLK (rule R242). -/
inductive SetclkPos where
  | ck_0
  | ck_1
  | ck_2 (d : Word)
  | ck_3 (clk : Word)
  | ck_4 (clk : Word) (p : PollPos)
  | ck_5 (clk : Word)
  deriving DecidableEq, Repr

/-- (operation, step label) of rule R41. GETCLK has one step (rule R240). -/
inductive Pos where
  | init0 (l : Init0Pos)
  | init1 (l : Init1Pos)
  | reset (flags : BitVec 3) (l : ResetPos)
  | send (l : SendPos)
  | getbw (l : GetbwPos)
  | setbw (l : SetbwPos)
  | getclk
  | setclk (l : SetclkPos)
  | fifo (dir : Dir) (l : FifoPos)
  deriving DecidableEq, Repr

/-- `SEQ.BUSY`, and `SEQ.PC` while it is 1 (rules R40, R41): the position reached and, innermost first, the positions
at which the calling operations go on. While `IDLE` the label has no value (rule R71). -/
inductive Seq where
  | idle
  | running (pos : Pos) (callers : List Pos)
  deriving DecidableEq, Repr

/-- One port event (rule R12). A register access records the register, the effective address (rule R81) and the
word; a buffer access its word index and the word. -/
inductive Event where
  | regRead (r : Reg) (addr : Nat) (v : Word)
  | regWrite (r : Reg) (addr : Nat) (v : Word)
  | bufRead (i : Nat) (v : Word)
  | bufWrite (i : Nat) (v : Word)
  | stall (us : Nat)
  deriving DecidableEq, Repr

/-- The environment as SDHB sees it (rule R95): the answers it will give to the next register reads, and the number
of reads answered so far. Past the end of `script` an answer is the free value `Config.regAnswer` (log entry 2). -/
structure Env where
  script : List Word
  draws  : Nat
  deriving DecidableEq, Repr

/-- The whole state of one SDHB instance. -/
structure State where
  /-- the parameter record (rule R7), fixed for the instance: no step changes it. -/
  cfg        : Config.Params
  /-- `C.*` (rule R20). -/
  ctx        : Context
  /-- `D.*` but for `D.BUF` (rule R30). -/
  desc       : Descriptor
  /-- `D.BUF`: the byte size of the attached buffer, none where no buffer is attached (rules R30, R182). -/
  dbuf       : Option Nat
  /-- `Q.*` (rule R33). -/
  q          : OperandRegs
  /-- `SEQ.BUSY`, `SEQ.PC` and the temporaries (rules R40, R41, R43). -/
  seq        : Seq
  /-- `SEQ.ELAPSED` (rules R42, R291), the counter of the poll that runs, nested or not (log entry 33). -/
  elapsed    : Nat
  /-- the bytes of the attached buffer (rule R83). -/
  buf        : Memory
  /-- the configuration load has happened (rules R24, R302). -/
  configured : Bool
  /-- the first request has been accepted (rule R24). -/
  started    : Bool
  /-- the requester's acts not yet taken, the next one first; a request made while SDHB is busy is held here
  (rule R40). -/
  inbox      : List ReqMsg
  /-- the environment's answers (rule R95). -/
  env        : Env
  /-- the port events so far, the latest first (rule R12). -/
  hist       : List Event
  deriving DecidableEq, Repr

/-- Why the machine stops with a fault. -/
inductive Fault where
  /-- A buffer access outside word indices 0 to `D.BUFSIZE / 4 - 1`, where the BUF space does not exist (rule R83).
  Raised by `bufRead` and `bufWrite`. Safe: no run from a state that meets `State.Inv` reaches it (rule R216). -/
  | bufIndex
  deriving DecidableEq, Repr

/-- Why the machine does not accept a request, a load or an operation. -/
inductive Refusal where
  /-- An operation without a meaning. Raised by no arm of this model. Safe. -/
  | notModelled (mnemonic : String)
  /-- A request before the configuration load (rule R302, U2). Raised when a request is accepted. Safe. -/
  | notConfigured
  /-- A configuration load after the first request (rule R24, U2). Raised by the configuration load. Safe. -/
  | lateConfig
  /-- A `C.REGBASE` that is misaligned or wraps (rule R82, U3). Raised by the configuration load. Safe. -/
  | badRegbase
  /-- A parameter record that breaks a constraint (rules R8, R66, R155, U4; DEDUCED ones in log entries 7, 14, 25, 34 and
  35). Raised by the configuration load. Safe. -/
  | badParameters
  /-- A SEND whose operands break a precondition of rule R182 (U1). Raised by SEND at SC_0. Safe. -/
  | sendPrecondition
  /-- FIFO_READ or FIFO_WRITE asked for from outside: they are not requestable (rules R2, R110). Raised by their
  meanings where the sequencer does not stand in them; no step does it. Safe. -/
  | notRequestable
  deriving DecidableEq, Repr

/-- What a step of this machine answers. -/
abbrev Out := Host.Outcome State Fault Refusal

/-- Power-on reset (rule R300). The context registers, the sequencer and the elapsed counter are as rules R70 and R71
say; the descriptor, operand and result registers, which rule R72 leaves unspecified, are 0 (DESIGN CHOICE, log
entries 8 and 9). No port event has happened. -/
def State.reset : State :=
  { cfg := Config.params
    ctx := { regbase := 0, hostver := 0, hostcaps := 0, voltages := 0, fundclk := 0 }
    desc := { opcode := 0, rclass := .none, crc := false, opchk := false, dir := .read, arg := 0, bufsize := 0,
              resp := #v[0, 0, 0, 0], reserved := 0 }
    dbuf := none
    q := { flags := 0, value := 0, result := 0, status := 0 }
    seq := .idle
    elapsed := 0
    buf := []
    configured := false
    started := false
    inbox := []
    env := { script := [], draws := 0 }
    hist := [] }

end Sys2Proof.Machine
end

