-- ==== Sys2Proof/Machine/Ops.lean ====
section
/-! DEFINITION. The named operations every meaning is built from: the data buffer (rules R83, R86), the port
primitives (rule R12), the poll helper (rule R13), and how operations begin, call one another and end (rules R40,
R41, R280, R281). -/

namespace Sys2Proof

/-- The status codes of rule R118. -/
def Status.code : Status → BitVec 4
  | .success          => 0
  | .timeout          => 1
  | .deviceError      => 2
  | .invalidParameter => 3
  | .unsupported      => 4
  | .notReady         => 5
  | .noMedia          => 6
  | .mediaChanged     => 7
  | .outOfResources   => 8

/-- The first label of an operation (files 40 to 45). -/
def Instr.start : Instr → Machine.Pos
  | .init0     => .init0 .i0_1
  | .init1     => .init1 .i1_1
  | .reset f   => .reset f .rs_1
  | .send      => .send .sc_0
  | .getbw     => .getbw .gb_1
  | .setbw     => .setbw .sb_0
  | .getclk    => .getclk
  | .setclk    => .setclk .ck_0
  | .fifoRead  => .fifo .read .ff_0
  | .fifoWrite => .fifo .write .ff_0

namespace Machine

/-! ## The data buffer -/

/-- What a byte of the buffer reads as where no cell lists it (DESIGN CHOICE, log entry 10). -/
def Memory.unlisted : Byte := 0

/-- The canonical form: addresses strictly rising, no cell equal to what an unlisted address reads as. -/
def Memory.wf : Memory → Bool
  | [] => true
  | (a, b) :: m => b != Memory.unlisted && m.all (fun c => decide (a < c.1)) && Memory.wf m

/-- The byte at offset `a`. -/
def Memory.read (a : Nat) : Memory → Byte
  | [] => Memory.unlisted
  | (a', b) :: m => if a = a' then b else Memory.read a m

/-- Store byte `b` at offset `a`, keeping the canonical form. -/
def Memory.write (a : Nat) (b : Byte) : Memory → Memory
  | [] => if b = Memory.unlisted then [] else [(a, b)]
  | (a', b') :: m =>
    if a < a' then (if b = Memory.unlisted then (a', b') :: m else (a, b) :: (a', b') :: m)
    else if a = a' then (if b = Memory.unlisted then m else (a, b) :: m)
    else (a', b') :: Memory.write a b m

/-- The buffer that holds these bytes from offset `a` up. -/
def Memory.ofBytes (a : Nat) : List Byte → Memory
  | [] => []
  | b :: bs => if b = Memory.unlisted then Memory.ofBytes (a + 1) bs else (a, b) :: Memory.ofBytes (a + 1) bs

/-- Buffer word `i`, little-endian (rule R86). -/
def Memory.readWord (i : Nat) (m : Memory) : Word :=
  Memory.read (4 * i + 3) m ++ Memory.read (4 * i + 2) m ++ Memory.read (4 * i + 1) m ++ Memory.read (4 * i) m

/-- Store buffer word `i`, little-endian (rule R86). -/
def Memory.writeWord (i : Nat) (v : Word) (m : Memory) : Memory :=
  Memory.write (4 * i + 3) (v.extractLsb' 24 8) <| Memory.write (4 * i + 2) (v.extractLsb' 16 8) <|
    Memory.write (4 * i + 1) (v.extractLsb' 8 8) <| Memory.write (4 * i) (v.extractLsb' 0 8) m

/-! ## Port primitives -/

/-- The effective address `C.REGBASE + off`, in `ADDR_W` bits (rules R12, R81, R82). -/
def State.regAddr (r : Reg) (s : State) : Nat := (s.ctx.regbase + s.cfg.off r) % 2 ^ s.cfg.addrW

/-- The environment's answer to a read at address `a` (rule R95). -/
def Env.answer (e : Env) (a : Nat) : Word :=
  match e.script with
  | v :: _ => v
  | [] => Config.regAnswer e.draws a

/-- The environment after it has answered one read. -/
def Env.next (e : Env) : Env := { script := e.script.tail, draws := e.draws + 1 }

/-- The value the next `RegRead` of `r` returns. -/
def State.peek (r : Reg) (s : State) : Word := s.env.answer (s.regAddr r)

/-- The state after a `RegRead` of `r` (rule R12). -/
def State.afterRead (r : Reg) (s : State) : State :=
  { s with env := s.env.next, hist := .regRead r (s.regAddr r) (s.peek r) :: s.hist }

/-- `RegRead(OFF_r)` (rule R12): what it returns goes to `k` with the state after it. -/
def regRead (r : Reg) (s : State) (k : Word → State → Out) : Out := k (s.peek r) (s.afterRead r)

/-- `RegWrite(OFF_r, v)` (rule R12). -/
def State.regWrite (r : Reg) (v : Word) (s : State) : State :=
  { s with hist := .regWrite r (s.regAddr r) v :: s.hist }

/-- The word indices of the BUF space (rule R83). -/
def State.bufIndexOk (i : Nat) (s : State) : Bool := decide (i < s.desc.bufsize.toNat / 4)

/-- `BufRead(i)` (rules R12, R83). -/
def bufRead (i : Nat) (s : State) (k : Word → State → Out) : Out :=
  if s.bufIndexOk i then k (s.buf.readWord i) { s with hist := .bufRead i (s.buf.readWord i) :: s.hist }
  else .fault .bufIndex

/-- `BufWrite(i, v)` (rules R12, R83). -/
def bufWrite (i : Nat) (v : Word) (s : State) (k : State → Out) : Out :=
  if s.bufIndexOk i then k { s with buf := s.buf.writeWord i v, hist := .bufWrite i v :: s.hist }
  else .fault .bufIndex

/-- `Stall(T_STEP)` (rule R12): it changes no SDHB state. -/
def State.stall (s : State) : State := { s with hist := .stall s.cfg.tStep :: s.hist }

/-- `ELAPSED <- ELAPSED + T_STEP`, in `ELAPSED_W` bits (rules R13, R42). -/
def State.tick (s : State) : State := { s with elapsed := (s.elapsed + s.cfg.tStep) % 2 ^ s.cfg.elapsedW }

/-! ## Positions, endings, calls -/

/-- The operation a position belongs to (rule R41). -/
def Pos.op : Pos → Instr
  | .init0 _       => .init0
  | .init1 _       => .init1
  | .reset f _     => .reset f
  | .send _        => .send
  | .getbw _       => .getbw
  | .setbw _       => .setbw
  | .getclk        => .getclk
  | .setclk _      => .setclk
  | .fifo .read _  => .fifoRead
  | .fifo .write _ => .fifoWrite

/-- `SEQ.BUSY` (rule R40). -/
def State.busy (s : State) : Bool :=
  match s.seq with
  | .idle => false
  | .running _ _ => true

/-- The positions at which the calling operations go on, innermost first (rule R41). -/
def Seq.callers : Seq → List Pos
  | .idle => []
  | .running _ cs => cs

/-- `pc <- L` (rule R11): the callers stay. -/
def State.goto (pos : Pos) (s : State) : State := { s with seq := .running pos s.seq.callers }

/-- `call OP` (rules R12, R281): run `callee`, then go on at `ret`. -/
def State.call (callee ret : Pos) (s : State) : State := { s with seq := .running callee (ret :: s.seq.callers) }

/-- What the caller's `call` step does with the status of the ended sub-operation (rule R281): SC_11 keeps it, the
two calls of RESET discard it. -/
def Pos.resume (st : Status) : Pos → Pos
  | .send (.sc_11r _) => .send (.sc_11r st)
  | p => p

/-- `raise st`, and `return Success` for `st = Success`: SDHB's analogue of taking an exception (rules R12, R260,
R280, R281). At the outermost level `Q.STATUS` receives the code and SDHB becomes `IDLE`; inside a sub-operation the
caller goes on with the status. Nothing is rolled back. -/
def State.finish (st : Status) (s : State) : State :=
  { s with
    seq := match s.seq.callers with
      | [] => .idle
      | c :: cs => .running (c.resume st) cs
    q := match s.seq.callers with
      | [] => { s.q with status := st.code }
      | _ :: _ => s.q }

/-- Accept the request at the head of the port: `SEQ.BUSY <- 1`, the sequencer at the operation's first label, and
for RESET `Q.FLAGS` from the header's `MOD` field (rules R40, R111). -/
def State.accept (i : Instr) (s : State) : State :=
  { s with
    seq := .running i.start []
    started := true
    inbox := s.inbox.tail
    q := match i with
      | .reset f => { s.q with flags := f }
      | _ => s.q }

/-- Begin a requestable operation while `IDLE`: accept it and run its first label (`first`). Before the configuration
load no request is accepted (rule R302). -/
def begin (i : Instr) (s : State) (first : State → Out) : Out :=
  if s.configured then first (s.accept i) else .refused .notConfigured

/-- `PollUntil(OFF_r, pred, T)` (rule R13) and the `raise Timeout` that follows a failed one in every operation.
`here` is the label with the poll's own position, `done v` where the operation goes on after a read of `v` that
passes. Every poll, that of a nested RESET included, counts in the one field `elapsed`: DESIGN CHOICE, log entry 33 (rule
R42 gives a nested poll its own counter, rules R71 and R291 give SDHB one). -/
def pollUntil (r : Reg) (pred : Word → Bool) (t : Nat) (here : PollPos → Pos) (done : Word → Pos) (p : PollPos)
    (s : State) : Out :=
  match p with
  | .start => .next (State.goto (here .p1) { s with elapsed := 0 })
  | .p1 => regRead r s fun v s => .next (s.goto (if pred v then done v else here .p2))
  | .p2 =>
    .next (if s.stall.tick.elapsed ≤ t then s.stall.tick.goto (here .p1) else s.stall.tick.finish .timeout)

end Machine
end Sys2Proof
end

