-- ==== Sys2Proof/Machine/Operands.lean ====
section
/-! DEFINITION. What an operation makes of its operands: the checks of rules R181, R182, R232 and R243, and the
register words SDHB assembles (rules R120 to R130, R152 to R155, R197). -/

namespace Sys2Proof

/-- The descriptor asks for a response check without a response, or has a reserved control bit (rule R181). -/
def Descriptor.invalid (d : Descriptor) : Bool := (d.rclass == .none && (d.crc || d.opchk)) || d.reserved != 0

/-- The opcode is `OP_READ_MULTI` or `OP_WRITE_MULTI` (rule R124). -/
def Descriptor.multi (d : Descriptor) (p : Config.Params) : Bool := d.opcode == p.opReadMulti || d.opcode == p.opWriteMulti

/-- A data buffer is attached to the command: `D.BUFSIZE != 0` (rule R30). -/
def Descriptor.hasData (d : Descriptor) : Bool := d.bufsize != 0

/-- The preconditions (a) to (d) of rule R182, `dbuf` being the size of the attached buffer. -/
def Descriptor.preconditions (d : Descriptor) (p : Config.Params) (dbuf : Option Nat) : Bool :=
  d.bufsize.toNat % 4 == 0 &&
  (!d.hasData ||
    ((if d.multi p then
        d.bufsize.toNat % p.blk.toNat == 0 && decide (d.bufsize.toNat / p.blk.toNat ≤ 0xFFFF)
      else decide (d.bufsize.toNat ≤ p.blk.toNat)) &&
     (match dbuf with
      | none => false
      | some n => decide (d.bufsize.toNat ≤ n))))

namespace Config

/-- The inhibit mask of SC_1: both bits, but for a non-busy stop-transmission the command-inhibit bit alone (rule
R184). -/
def Params.inhibitMask (p : Params) (d : Descriptor) : Word :=
  if d.opcode == p.opStop && d.rclass != .busy then p.hl.psCmdInhibit
  else p.hl.psCmdInhibit ||| p.hl.psDatInhibit

/-- `resp_code` (rule R123). -/
def Params.respCode (p : Params) : RClass → BitVec 2
  | .none  => p.cl.respNone
  | .short => p.cl.respShort
  | .long  => p.cl.respLong
  | .busy  => p.cl.respBusy

/-- `respflags` (rule R123). -/
def Params.respFlags (p : Params) (d : Descriptor) : Word :=
  ((p.respCode d.rclass).setWidth 32 <<< p.cl.cmdRespShift)
    ||| (if d.crc then p.cl.cmdCrcChk else 0) ||| (if d.opchk then p.cl.cmdIdxChk else 0)

/-- `auto` (rule R126), from `C.HOSTCAPS`. -/
def Params.autoFlag (p : Params) (hostcaps : Word) : Word :=
  if hostcaps.hits capAutoCmd12 then p.cl.xAutoCmd12 else 0

/-- `dataflags` (rule R125); the DMA-enable bit is never among them (rule R126). -/
def Params.dataFlags (p : Params) (d : Descriptor) (hostcaps : Word) : Word :=
  if d.hasData then
    p.cl.cmdData ||| (if d.dir = .read then p.cl.xRead else 0)
      ||| (if d.multi p then p.cl.xMulti ||| p.cl.xBlkcntEn ||| p.autoFlag hostcaps else 0)
  else 0

/-- The command word (rule R122). -/
def Params.commandWord (p : Params) (d : Descriptor) (hostcaps : Word) : Word :=
  (d.opcode.setWidth 32 <<< p.cl.cmdIndexShift) ||| p.respFlags d ||| p.dataFlags d hostcaps

/-- The block-size/count word (rules R51, R124). -/
def Params.blkszcntWord (p : Params) (d : Descriptor) : Word :=
  if d.multi p then ((d.bufsize / p.blk) <<< p.cl.blkcountShift) ||| (p.blk <<< p.cl.blksizeShift)
  else d.bufsize <<< p.cl.blksizeShift

/-- The reset bits of a flag combination (rule R120). -/
def Params.resetBits (p : Params) (flags : BitVec 3) : Word :=
  (if flags.getLsbD 0 then p.hl.ccRstAll else 0) ||| (if flags.getLsbD 1 then p.hl.ccRstCmd else 0)
    ||| (if flags.getLsbD 2 then p.hl.ccRstDat else 0)

/-- SETBW accepts 1, 4 and 8 (rule R232). -/
def widthOk (w : Word) : Bool := w == 1 || w == 4 || w == 8

/-- `enc(w)` (rule R128). -/
def Params.widthBits (p : Params) (w : Word) : Word :=
  if w = 4 then p.hl.hcBw4 else if w = 8 then p.hl.hcBw8 else 0

/-- The `HOSTCTL` word SETBW writes: the word read, its two width bits replaced (rule R232). -/
def Params.withWidth (p : Params) (v w : Word) : Word :=
  (v &&& ~~~(p.hl.hcBw4 ||| p.hl.hcBw8)) ||| p.widthBits w

/-- The width GETBW decodes, 8 before 4 (rule R230). -/
def Params.widthOf (p : Params) (v : Word) : Word :=
  if v.hits p.hl.hcBw8 then 8 else if v.hits p.hl.hcBw4 then 4 else 1

/-- What I0_3 ORs into `C.HOSTCAPS` (rule R152). -/
def Params.capsFound (p : Params) (caps : Word) : Word :=
  (if caps.hits p.sl.capsAdma2 then capAdma2 else 0) ||| (if caps.hits p.sl.capsHighSpeed then p.hsCapSets else 0)

/-- The voltage mask the capability word advertises (rule R153). -/
def Params.voltsFound (p : Params) (caps : Word) : Word :=
  (if caps.hits p.sl.capsV18 then p.vset1V8 else 0) ||| (if caps.hits p.sl.capsV30 then p.vset3V0 else 0)
    ||| (if caps.hits p.sl.capsV33 then p.vset3V3 else 0)

/-- The power-level word of a voltage mask, the highest level first; none where no level matches (rules R130, R154). -/
def Params.powerLevel (p : Params) (volts : Word) : Option Word :=
  if volts.hits p.vset3V3 then some p.hl.hcPwr3V3
  else if volts.hits p.vset3V0 then some p.hl.hcPwr3V0
  else if volts.hits p.vset1V8 then some p.hl.hcPwr1V8
  else none

/-- Version 3 or later (rules R63, R244). -/
def Params.isV3 (p : Params) (hostver : BitVec 8) : Bool := decide (p.hostverV3 ≤ hostver)

/-- The base clock the capability word gives, by controller version (rule R155). -/
def Params.clockFound (p : Params) (hostver : BitVec 8) (caps : Word) : Word :=
  if p.isV3 hostver then ((caps >>> p.sl.capsBaseclkShift) &&& p.sl.capsBaseclkV3) * p.baseclkUnitV3
  else ((caps >>> p.sl.capsBaseclkShift) &&& p.sl.capsBaseclkPre3) * p.baseclkUnitPre3

/-- The version code of a `VERSION` word (rules R63, R151). -/
def Params.versionCode (p : Params) (v : Word) : BitVec 8 := v.extractLsb' p.sl.versionShift 8

/-- The first clock word: divisor code `N = d >> 1` in its two fields, the data-timeout default and the internal
clock enable, all else 0 (rules R129, R247). For `d` above 2047, which only a divisor bound above the defaults allows, the bits
of `N` above bit 9 are dropped by the masks of rule R129's formula: DESIGN CHOICE, log entry 36. -/
def Params.clockWord (p : Params) (d : Word) : Word :=
  (p.dtoDefault.setWidth 32 <<< p.hl.ccDtoShift) ||| (((d >>> 1) &&& 0xFF) <<< p.hl.ccDivLoShift)
    ||| ((((d >>> 1) >>> 8) &&& 0x3) <<< p.hl.ccDivHiShift) ||| p.hl.ccIce

end Config

/-- The four response words of a long response, most significant first; with the quirk, shifted left by 8 bits
(rules R196, R197). -/
def longResponse (hostcaps r0 r1 r2 r3 : Word) : Vector Word 4 :=
  if hostcaps.hits Config.capResp136Shifted then
    #v[(r3 <<< 8) ||| (r2 >>> 24), (r2 <<< 8) ||| (r1 >>> 24), (r1 <<< 8) ||| (r0 >>> 24), r0 <<< 8]
  else #v[r3, r2, r1, r0]

end Sys2Proof
end

