-- ==== Sys2Proof/Machine/BusWidth.lean ====
section
/-! DEFINITION. GETBW and SETBW (rules R230 to R234). -/

namespace Sys2Proof.Machine

/-- One label of GETBW (rule R230). -/
def getbwAt (l : GetbwPos) (s : State) : Out :=
  match l with
  | .gb_1 => regRead .hostctl s fun v s => .next (s.goto (.getbw (.gb_2 v)))
  | .gb_2 v => .next (State.finish .success { s with q := { s.q with result := s.cfg.widthOf v } })

/-- GETBW (rule R230). -/
def execGetbw (s : State) : Out :=
  match s.seq with
  | .idle => begin .getbw s (getbwAt .gb_1)
  | .running (.getbw l) _ => getbwAt l s
  | .running _ _ => .next s

/-- One label of SETBW (rule R232). -/
def setbwAt (l : SetbwPos) (s : State) : Out :=
  match l with
  | .sb_0 => .next (if Config.widthOk s.q.value then s.goto (.setbw .sb_1) else s.finish .invalidParameter)
  | .sb_1 => regRead .hostctl s fun v s => .next (s.goto (.setbw (.sb_2 v)))
  | .sb_2 v => .next ((s.regWrite .hostctl (s.cfg.withWidth v s.q.value)).finish .success)

/-- SETBW (rule R232). -/
def execSetbw (s : State) : Out :=
  match s.seq with
  | .idle => begin .setbw s (setbwAt .sb_0)
  | .running (.setbw l) _ => setbwAt l s
  | .running _ _ => .next s

end Sys2Proof.Machine
end

