-- ==== Sys2Proof/Machine/Flags.lean ====
section
/-! DEFINITION. The flags that steer SDHB's control flow, all of them bits of a word a `RegRead` returned (rule R64),
and the interrupt-status words SDHB writes to acknowledge events (rules R215, R221, R270). -/

namespace Sys2Proof.Config

/-- All requested reset bits read 0 together (rule R172). -/
def resetDone (bits v : Word) : Bool := v &&& bits == 0

/-- All masked inhibit bits read 0 in one read (rule R185). -/
def notInhibited (mask v : Word) : Bool := v &&& mask == 0

/-- Some interrupt bit is set, whichever (rules R189, R210). -/
def anyInterrupt (v : Word) : Bool := v != 0

/-- `CC_STABLE` (rule R248). -/
def Params.clockStable (p : Params) (v : Word) : Bool := v.hits p.hl.ccStable

/-- The command-timeout bit (rule R192). -/
def Params.cmdTimedOut (p : Params) (v : Word) : Bool := v.hits p.sl.isCmdTimeout

/-- The generic error bit (rules R193, R218). -/
def Params.genericError (p : Params) (v : Word) : Bool := v.hits p.sl.isError

/-- The completion bit (rule R194). -/
def Params.cmdComplete (p : Params) (v : Word) : Bool := v.hits p.sl.isCmdComplete

/-- One of the three data-error bits (rule R217). -/
def Params.dataError (p : Params) (v : Word) : Bool := v.hits p.sl.isDataErr

/-- The buffer-ready bit of a direction (rules R212, R213). -/
def Params.readyMask (p : Params) : Dir → Word
  | .read  => p.sl.isBufRdReady
  | .write => p.sl.isBufWrReady

/-- The buffer-ready bit of this direction is set; the other direction's counts for nothing (rule R222). -/
def Params.bufferReady (p : Params) (d : Dir) (v : Word) : Bool := v.hits (p.readyMask d)

/-- The trailing bits of `v`, which FF_7 writes back (rule R221). -/
def Params.trailing (p : Params) (v : Word) : Word := v &&& p.sl.isTrailing

end Sys2Proof.Config
end

