-- ==== Sys2Proof/Machine/Clock.lean ====
section
/-! DEFINITION. GETCLK and SETCLK with its divisor search (rules R240 to R252). -/

namespace Sys2Proof.Machine

/-- `d` doubled while it is below `max` and `fund / d > s`, at most `fuel` times (rule R245, before version 3). -/
def searchPre3 (fund s max : Nat) : Nat → Nat → Nat
  | 0, d => d
  | fuel + 1, d => if d < max ∧ s < fund / d then searchPre3 fund s max fuel (d * 2) else d

/-- `d` stepped by 2 while it is below `max` and `fund / d > s`, at most `fuel` times (rule R245, from version 3). -/
def searchV3 (fund s max : Nat) : Nat → Nat → Nat
  | 0, d => d
  | fuel + 1, d => if d < max ∧ s < fund / d then searchV3 fund s max fuel (d + 2) else d

/-- The divisor of CK_1 (rules R244, R245, R246). The fuel covers every step a search can make: 31 doublings reach
the largest power of two of 32 bits, `MAXDIV_V3 / 2` steps reach `MAXDIV_V3` (rule R250). -/
def divisor (p : Config.Params) (hostver : BitVec 8) (fund s : Word) : Word :=
  BitVec.ofNat 32 <|
    if p.isV3 hostver then
      if fund ≤ s then 1 else searchV3 fund.toNat s.toNat p.maxdivV3.toNat (p.maxdivV3.toNat / 2) 2
    else searchPre3 fund.toNat s.toNat p.maxdivPre3.toNat 31 1

/-- GETCLK (rule R240): `Unsupported`, with no port access. -/
def execGetclk (s : State) : Out :=
  match s.seq with
  | .idle => begin .getclk s fun s => .next (s.finish .unsupported)
  | .running .getclk _ => .next (s.finish .unsupported)
  | .running _ _ => .next s

/-- One label of SETCLK (rules R242 to R249). -/
def setclkAt (l : SetclkPos) (s : State) : Out :=
  match l with
  | .ck_0 =>
      .next (if s.q.value = 0 ∨ s.ctx.fundclk = 0 then s.finish .invalidParameter else s.goto (.setclk .ck_1))
  | .ck_1 => .next (s.goto (.setclk (.ck_2 (divisor s.cfg s.ctx.hostver s.ctx.fundclk s.q.value))))
  | .ck_2 d => .next (s.goto (.setclk (.ck_3 (s.cfg.clockWord d))))
  | .ck_3 clk => .next ((s.regWrite .clkctl clk).goto (.setclk (.ck_4 clk .start)))
  | .ck_4 clk p =>
      pollUntil .clkctl s.cfg.clockStable s.cfg.tClock (fun p => .setclk (.ck_4 clk p))
        (fun _ => .setclk (.ck_5 clk)) p s
  | .ck_5 clk => .next ((s.regWrite .clkctl (clk ||| s.cfg.hl.ccSdce)).finish .success)

/-- SETCLK (rule R242). -/
def execSetclk (s : State) : Out :=
  match s.seq with
  | .idle => begin .setclk s (setclkAt .ck_0)
  | .running (.setclk l) _ => setclkAt l s
  | .running _ _ => .next s

end Sys2Proof.Machine
end

