-- ==== Sys2Proof/Machine/Send.lean ====
section
/-! DEFINITION. SEND, the command issuer with response capture (rules R180 to R203). -/

namespace Sys2Proof.Machine

/-- The flags of the two nested resets: `COMMAND_LINE` and `DATA_LINE` (rules R33, R192, R217). -/
def commandLine : BitVec 3 := 2
def dataLine : BitVec 3 := 4

/-- The sub-operation of the data phase (rule R200). -/
def dataPhase : Dir → Instr
  | .read  => .fifoRead
  | .write => .fifoWrite

/-- SC_10 (rules R194 to R196): what is captured, and where SEND goes on. -/
def captureAt (v : Word) (s : State) : Out :=
  if s.cfg.cmdComplete v then
    match s.desc.rclass with
    | .none => .next (s.goto (.send .sc_11))
    | .short | .busy => regRead .rsp0 s fun r s =>
        .next (State.goto (.send .sc_11) { s with desc := { s.desc with resp := s.desc.resp.set 0 r } })
    | .long => regRead .rsp0 s fun r s => .next (s.goto (.send (.sc_10b r)))
  else .next (s.goto (.send .sc_11))

/-- One label of SEND (rules R180 to R201). -/
def sendAt (l : SendPos) (s : State) : Out :=
  match l with
  | .sc_0 =>
      if s.desc.preconditions s.cfg s.dbuf then
        .next (if s.desc.invalid then s.finish .invalidParameter else s.goto (.send .sc_1))
      else .refused .sendPrecondition
  | .sc_1 => .next (s.goto (.send (.sc_2 (s.cfg.inhibitMask s.desc) .start)))
  | .sc_2 mask p =>
      pollUntil .pstate (Config.notInhibited mask) s.cfg.tInhibit (fun p => .send (.sc_2 mask p))
        (fun _ => .send .sc_3) p s
  | .sc_3 => .next ((s.regWrite .intsts s.cfg.intAll).goto (.send .sc_4))
  | .sc_4 =>
      .next (State.goto (.send .sc_5)
        (if s.desc.hasData then s.regWrite .blkszcnt (s.cfg.blkszcntWord s.desc) else s))
  | .sc_5 => .next ((s.regWrite .arg s.desc.arg).goto (.send .sc_6))
  | .sc_6 => .next ((s.regWrite .cmd (s.cfg.commandWord s.desc s.ctx.hostcaps)).goto (.send (.sc_7 .start)))
  | .sc_7 p =>
      pollUntil .intsts Config.anyInterrupt s.cfg.tCmd (fun p => .send (.sc_7 p)) (fun v => .send (.sc_8 v)) p s
  | .sc_8 v =>
      .next (if s.cfg.cmdTimedOut v then s.call (Instr.reset commandLine).start (.send .sc_8r)
             else s.goto (.send (.sc_9 v)))
  | .sc_8r => .next (s.finish .timeout)
  | .sc_9 v => .next (if s.cfg.genericError v then s.finish .deviceError else s.goto (.send (.sc_10 v)))
  | .sc_10 v => captureAt v s
  | .sc_10b r0 => regRead .rsp1 s fun r1 s => .next (s.goto (.send (.sc_10c r0 r1)))
  | .sc_10c r0 r1 => regRead .rsp2 s fun r2 s => .next (s.goto (.send (.sc_10d r0 r1 r2)))
  | .sc_10d r0 r1 r2 => regRead .rsp3 s fun r3 s =>
      .next (State.goto (.send .sc_11)
        { s with desc := { s.desc with resp := longResponse s.ctx.hostcaps r0 r1 r2 r3 } })
  | .sc_11 =>
      .next (if s.desc.hasData then s.call (dataPhase s.desc.dir).start (.send (.sc_11r .success))
             else s.goto (.send .sc_12))
  | .sc_11r st => .next (if st = .success then s.goto (.send .sc_12) else s.finish st)
  | .sc_12 => .next (s.finish .success)

/-- SEND (rule R180). -/
def execSend (s : State) : Out :=
  match s.seq with
  | .idle => begin .send s (sendAt .sc_0)
  | .running (.send l) _ => sendAt l s
  | .running _ _ => .next s

end Sys2Proof.Machine
end

