-- ==== Sys2Proof/Machine/Fifo.lean ====
section
/-! DEFINITION. FIFO_READ and FIFO_WRITE, the word-at-a-time data mover (rules R210 to R223). -/

namespace Sys2Proof.Machine

/-- The bytes of a chunk: `min(REM, BLK)` (rule R214). -/
def chunk (rem blk : Word) : Word := if rem ≤ blk then rem else blk

/-- The first access of word `k` of a chunk: from the data port on a read, from the buffer on a write (rules R212,
R213). -/
def wordFetch (d : Dir) (i : Word) (s : State) (k : Word → State → Out) : Out :=
  match d with
  | .read  => regRead .data s k
  | .write => bufRead i.toNat s k

/-- The second access of a word: to the buffer on a read, to the data port on a write (rules R212, R213). -/
def wordStore (d : Dir) (i w : Word) (s : State) (k : State → Out) : Out :=
  match d with
  | .read  => bufWrite i.toNat w s k
  | .write => k (s.regWrite .data w)

/-- One label of the data mover (rules R210, R214 to R221). -/
def fifoAt (d : Dir) (l : FifoPos) (s : State) : Out :=
  match l with
  | .ff_0 => .next (s.goto (.fifo d (.ff_1 s.desc.bufsize 0)))
  | .ff_1 rem idx =>
      .next (s.goto (.fifo d (if rem = 0 then .ff_7 else .ff_2 rem idx (chunk rem s.cfg.blk) .start)))
  | .ff_2 rem idx n p =>
      pollUntil .intsts Config.anyInterrupt s.cfg.tData (fun p => .fifo d (.ff_2 rem idx n p))
        (fun v => .fifo d (.ff_3 rem idx n v)) p s
  | .ff_3 rem idx n v =>
      .next (if s.cfg.dataError v then s.call (Instr.reset dataLine).start (.fifo d (.ff_4 rem idx n v))
             else s.goto (.fifo d (.ff_4 rem idx n v)))
  | .ff_4 rem idx n v =>
      .next (if s.cfg.genericError v then s.finish .deviceError else s.goto (.fifo d (.ff_5 rem idx n v)))
  | .ff_5 rem idx n v =>
      .next (s.goto (.fifo d (if s.cfg.bufferReady d v then .ff_6 rem idx n v else .ff_1 rem idx)))
  | .ff_6 rem idx n v => .next ((s.regWrite .intsts v).goto (.fifo d (.ff_6k rem idx n 0)))
  | .ff_6k rem idx n k =>
      if k < n / 4 then wordFetch d (idx + k) s fun w s => .next (s.goto (.fifo d (.ff_6w rem idx n k w)))
      else .next (s.goto (.fifo d (.ff_1 (rem - n) (idx + n / 4))))
  | .ff_6w rem idx n k w =>
      wordStore d (idx + k) w s fun s => .next (s.goto (.fifo d (.ff_6k rem idx n (k + 1))))
  | .ff_7 => regRead .intsts s fun v s => .next (s.goto (.fifo d (.ff_7w v)))
  | .ff_7w v =>
      .next (State.finish .success
        (if v.hits s.cfg.sl.isTrailing then s.regWrite .intsts (s.cfg.trailing v) else s))

/-- FIFO_READ (rule R212): entered from SEND only. -/
def execFifoRead (s : State) : Out :=
  match s.seq with
  | .running (.fifo .read l) _ => fifoAt .read l s
  | _ => .refused .notRequestable

/-- FIFO_WRITE (rule R213): entered from SEND only. -/
def execFifoWrite (s : State) : Out :=
  match s.seq with
  | .running (.fifo .write l) _ => fifoAt .write l s
  | _ => .refused .notRequestable

end Sys2Proof.Machine
end

