-- ==== Sys2Proof/Machine/Init.lean ====
section
/-! DEFINITION. INIT0 and INIT1 (rules R150 to R161). -/

namespace Sys2Proof.Machine

/-- One label of INIT0 (rules R150 to R156). A `raise` undoes nothing that came before it. -/
def init0At (l : Init0Pos) (s : State) : Out :=
  match l with
  | .i0_1 => regRead .version s fun v s =>
      .next (State.goto (.init0 .i0_2) { s with ctx := { s.ctx with hostver := s.cfg.versionCode v } })
  | .i0_2 => regRead .caps s fun caps s => .next (s.goto (.init0 (.i0_3 caps)))
  | .i0_3 caps => .next (State.goto (.init0 (.i0_4 caps))
      { s with ctx := { s.ctx with hostcaps := s.ctx.hostcaps ||| s.cfg.capsFound caps } })
  | .i0_4 caps =>
      let volts := if s.ctx.voltages = 0 then s.cfg.voltsFound caps else s.ctx.voltages
      let s := { s with ctx := { s.ctx with voltages := volts } }
      if volts = 0 then .next (s.finish .deviceError) else .next (s.goto (.init0 (.i0_5 caps)))
  | .i0_5 caps =>
      match s.cfg.powerLevel s.ctx.voltages with
      | none => .next (s.finish .deviceError)
      | some lvl => .next ((s.regWrite .hostctl lvl).goto (.init0 (.i0_6 caps)))
  | .i0_6 caps =>
      let clk := if s.ctx.fundclk = 0 then s.cfg.clockFound s.ctx.hostver caps else s.ctx.fundclk
      let s := { s with ctx := { s.ctx with fundclk := clk } }
      .next (s.finish (if clk = 0 then .deviceError else .success))

/-- INIT0 (rule R150): accepted while `IDLE`, held while another operation runs (rule R40), else its next label. -/
def execInit0 (s : State) : Out :=
  match s.seq with
  | .idle => begin .init0 s (init0At .i0_1)
  | .running (.init0 l) _ => init0At l s
  | .running _ _ => .next s

/-- One label of INIT1 (rules R158 to R160). -/
def init1At (l : Init1Pos) (s : State) : Out :=
  match l with
  | .i1_1 => regRead .hostctl s fun v s => .next (s.goto (.init1 (.i1_2 v)))
  | .i1_2 v => .next ((s.regWrite .hostctl (v ||| s.cfg.hl.hcPowerEn)).goto (.init1 .i1_3))
  | .i1_3 => .next ((s.regWrite .inten s.cfg.intEnDefault).goto (.init1 .i1_4))
  | .i1_4 => .next ((s.regWrite .intsig 0).finish .success)

/-- INIT1 (rule R158). -/
def execInit1 (s : State) : Out :=
  match s.seq with
  | .idle => begin .init1 s (init1At .i1_1)
  | .running (.init1 l) _ => init1At l s
  | .running _ _ => .next s

end Sys2Proof.Machine
end

