-- ==== Sys2Proof/Machine/Reset.lean ====
section
/-! DEFINITION. RESET, as a request and as a sub-operation (rules R170 to R176). -/

namespace Sys2Proof.Machine

/-- One label of `RESET(flags)` (rules R170 to R173). Called from SEND or the data mover it runs exactly so (rule
R175): only `State.finish` looks at the callers. -/
def resetAt (flags : BitVec 3) (l : ResetPos) (s : State) : Out :=
  match l with
  | .rs_1 => .next (s.goto (.reset flags (.rs_2 (s.cfg.resetBits flags))))
  | .rs_2 bits => regRead .clkctl s fun v s => .next (s.goto (.reset flags (.rs_3 bits v)))
  | .rs_3 bits v => .next ((s.regWrite .clkctl (v ||| bits)).goto (.reset flags (.rs_4 bits .start)))
  | .rs_4 bits p =>
      pollUntil .clkctl (Config.resetDone bits) s.cfg.tReset (fun p => .reset flags (.rs_4 bits p))
        (fun _ => .reset flags .rs_5) p s
  | .rs_5 => .next ((s.regWrite .inten 0).goto (.reset flags .rs_6))
  | .rs_6 => .next ((s.regWrite .inten s.cfg.intEnDefault).finish .success)

/-- RESET (rule R170). -/
def execReset (flags : BitVec 3) (s : State) : Out :=
  match s.seq with
  | .idle => begin (.reset flags) s (resetAt flags .rs_1)
  | .running (.reset f l) _ => if f = flags then resetAt f l s else .next s
  | .running _ _ => .next s

end Sys2Proof.Machine
end

