-- ==== Sys2Proof/Machine/Dispatch.lean ====
section
/-! DEFINITION. The meaning of each operation: one step of it (rules R12, R41). -/

namespace Sys2Proof.Machine

def exec (i : Instr) (s : State) : Host.Outcome State Fault Refusal :=
  match i with
  | .init0 => Sys2Proof.Machine.execInit0 s
  | .init1 => Sys2Proof.Machine.execInit1 s
  | .reset flags => Sys2Proof.Machine.execReset flags s
  | .send => Sys2Proof.Machine.execSend s
  | .getbw => Sys2Proof.Machine.execGetbw s
  | .setbw => Sys2Proof.Machine.execSetbw s
  | .getclk => Sys2Proof.Machine.execGetclk s
  | .setclk => Sys2Proof.Machine.execSetclk s
  | .fifoRead => Sys2Proof.Machine.execFifoRead s
  | .fifoWrite => Sys2Proof.Machine.execFifoWrite s

end Sys2Proof.Machine
end

