-- ==== Sys2Proof/WellFormed.lean ====
section
/-! DEFINITION. Which operations a requester can present: the eight requestable ones (rules R2, R110). The two
internal sub-operations have no request encoding. -/

namespace Sys2Proof

/-- An operation a request header can select (rule R110). -/
def Instr.wellFormed : Instr → Bool
  | .init0 | .init1 | .reset _ | .send | .getbw | .setbw | .getclk | .setclk => true
  | .fifoRead | .fifoWrite => false

end Sys2Proof
end

