-- ==== Sys2Proof/Decode.lean ====
section
/-! DEFINITION. The request decoder of rules R110 to R113 and the packed descriptor of rule R114, each with its
encoder. -/

namespace Sys2Proof

/-- Why a request header is reserved (rule R112). -/
inductive DecodeReject where
  | empty        -- no byte at all
  | highBits     -- REQ[7:6] is not 0
  | selector     -- OPSEL 5, 6 or 7
  | initPhase    -- INIT with MOD 2 to 7
  | sendModifier -- SEND with MOD not 0
  | widthMode    -- bus width with MOD 2 to 7
  | clockMode    -- clock with MOD 2 to 7
  deriving DecidableEq, Repr

/-- `OPSEL` = `REQ[2:0]` (rule R110). -/
def opsel (req : Byte) : BitVec 3 := req.extractLsb' 0 3

/-- `MOD` = `REQ[5:3]` (rule R110). -/
def modField (req : Byte) : BitVec 3 := req.extractLsb' 3 3

/-- A get/set or phase modifier: 0 selects the first operation, 1 the second, the rest are reserved. -/
def pick (m : BitVec 3) (zero one : Instr) (why : DecodeReject) : Except DecodeReject Instr :=
  if m = 0 then .ok zero else if m = 1 then .ok one else .error why

/-- The operation a header selects, or why it is reserved (rules R110, R112, R113). -/
def decodeHeader (req : Byte) : Except DecodeReject Instr :=
  if req.extractLsb' 6 2 ≠ 0 then .error .highBits
  else match (opsel req).toNat with
    | 0 => pick (modField req) .init0 .init1 .initPhase
    | 1 => .ok (.reset (modField req))
    | 2 => if modField req = 0 then .ok .send else .error .sendModifier
    | 3 => pick (modField req) .getbw .setbw .widthMode
    | 4 => pick (modField req) .getclk .setclk .clockMode
    | _ => .error .selector

/-- The decoder on any bytes: one header byte, and the bytes after it (rule R110: one format, one length). -/
def decode : List Byte → Except DecodeReject (Instr × List Byte)
  | [] => .error .empty
  | req :: rest => (decodeHeader req).map fun i => (i, rest)

/-- `{REQ[7:6], MOD, OPSEL}` with `REQ[7:6] = 0` (rule R110). -/
def header (m sel : BitVec 3) : Byte := (0 : BitVec 2) ++ m ++ sel

/-- The request bytes of a requestable operation (rule R110). The internal sub-operations have none. -/
def encode : Instr → List Byte
  | .init0   => [header 0 0]
  | .init1   => [header 1 0]
  | .reset f => [header f 1]
  | .send    => [header 0 2]
  | .getbw   => [header 0 3]
  | .setbw   => [header 1 3]
  | .getclk  => [header 0 4]
  | .setclk  => [header 1 4]
  | .fifoRead | .fifoWrite => []

/-- What the decoder reads from the table's bits (`nbits` = 8 for every requestable row: a request is one byte). -/
def decodeTableWord (nbits w : Nat) : Option Instr :=
  if nbits = 8 then (decode [BitVec.ofNat 8 w]).toOption.map (·.1) else none

/-! ## The descriptor control word (rule R114) -/

/-- `D.RCLASS` from its two bits (rule R32). -/
def RClass.ofBits (b : BitVec 2) : RClass :=
  match b.toNat with
  | 0 => .none
  | 1 => .short
  | 2 => .long
  | _ => .busy

/-- The two bits of `D.RCLASS` (rule R32). -/
def RClass.bits : RClass → BitVec 2
  | .none  => 0
  | .short => 1
  | .long  => 2
  | .busy  => 3

/-- `D.DIR` from its bit (rule R30). -/
def Dir.ofBit (b : Bool) : Dir := if b then .write else .read

/-- The bit of `D.DIR` (rule R30). -/
def Dir.bit : Dir → Bool
  | .read  => false
  | .write => true

/-- The descriptor registers of a packed descriptor (rule R114). -/
def DescWords.unpack (w : DescWords) : Descriptor :=
  { opcode   := w.dcw.extractLsb' 0 6
    rclass   := .ofBits (w.dcw.extractLsb' 6 2)
    crc      := w.dcw.getLsbD 8
    opchk    := w.dcw.getLsbD 9
    dir      := .ofBit (w.dcw.getLsbD 10)
    arg      := w.arg
    bufsize  := w.bufsize
    resp     := w.resp
    reserved := w.dcw.extractLsb' 11 21 }

/-- The packed form of a descriptor (rule R114). -/
def Descriptor.pack (d : Descriptor) : DescWords :=
  { dcw := d.reserved ++ BitVec.ofBool d.dir.bit ++ BitVec.ofBool d.opchk ++ BitVec.ofBool d.crc
             ++ d.rclass.bits ++ d.opcode
    arg := d.arg
    bufsize := d.bufsize
    resp := d.resp }

end Sys2Proof
end

