-- ==== Sys2Proof/Machine/Requester.lean ====
section
/-! DEFINITION. The request port: what the sequencer does next (`fetch`), the requester's acts while SDHB is `IDLE`
(rules R24, R82, R111, R114, R136, R302) and the reserved requests (rule R112). -/

namespace Sys2Proof.Machine

/-- The configuration load (rules R24, R82): accepted before the first request, on a valid parameter record, with an
aligned base that does not wrap; the values are copied verbatim. -/
def configLoad (c : ConfigLoad) (s : State) : Out :=
  if s.started then .refused .lateConfig
  else if s.cfg.valid = false then .refused .badParameters
  else if c.regbase % 4 ≠ 0 ∨ 2 ^ s.cfg.addrW < c.regbase + 0x100 then .refused .badRegbase
  else .next { s with
    configured := true
    ctx := { s.ctx with
      regbase := c.regbase
      hostcaps := c.hostcaps.getD s.ctx.hostcaps
      voltages := c.voltages.getD s.ctx.voltages
      fundclk := c.fundclk.getD s.ctx.fundclk } }

/-- One act of the requester other than a request, already taken off the port. -/
def requesterAct (m : ReqMsg) (s : State) : Out :=
  match m with
  | .config c => configLoad c s
  | .loadValue v => .next { s with q := { s.q with value := v } }
  | .loadDesc d => .next { s with desc := d }
  | .loadWords w => .next { s with desc := w.unpack }
  | .attach none => .next { s with dbuf := none, buf := [] }
  | .attach (some bytes) => .next { s with dbuf := some bytes.length, buf := Memory.ofBytes 0 bytes }
  | .present _ => .next s
  | .skipUnlessSuccess n =>
      .next (if s.q.status = Status.success.code then s else { s with inbox := s.inbox.drop n })

/-- A reserved request (rule R112): accepted, no port access, ended with `InvalidParameter`. -/
def reservedRequest (s : State) : Out :=
  if s.configured then
    .next { s with started := true, inbox := s.inbox.tail, q := { s.q with status := Status.invalidParameter.code } }
  else .refused .notConfigured

/-- What one step of SDHB is: a label of an operation, or something that is no operation. -/
inductive Fetched where
  | run (i : Instr)
  | other (o : Out)

/-- What the sequencer does next: the next label of the running operation; while `IDLE`, the requester's next act;
with nothing presented, `IDLE` waits (rules R40, R295, R300). -/
def fetch (s : State) : Fetched :=
  match s.seq with
  | .running pos _ => .run pos.op
  | .idle =>
    match s.inbox with
    | [] => .other (.next s)
    | .present req :: _ =>
      match decodeHeader req with
      | .ok i => .run i
      | .error _ => .other (reservedRequest s)
    | m :: rest => .other (requesterAct m { s with inbox := rest })

end Sys2Proof.Machine
end

