-- ==== Sys2Proof/Machine/Step.lean ====
section
/-! DEFINITION. One step of SDHB. -/

namespace Sys2Proof.Machine

/-- One step: the next label of an operation, or the requester's next act (`fetch`, Machine/Requester.lean). -/
def step (s : State) : Host.Outcome State Fault Refusal :=
  match fetch s with
  | .run i => exec i s
  | .other o => o

/-- `s` with the request header `w` at the head of the request port, SDHB `IDLE` and its configuration loaded, so
that the next step accepts exactly that request (rules R40, R302; log entry 4). -/
def State.withFetchWord (s : State) (_nbits w : Nat) : State :=
  { s with seq := .idle, configured := true, inbox := [.present (BitVec.ofNat 8 w)] }

end Sys2Proof.Machine
end

