-- ==== Sys2Proof/Machine/Text.lean ====
section
/-! DEFINITION. The textual request syntax and its pseudo-operations (rules R135, R136): a line as characters, the line
it stands for, and the acts of the requester it expands to. How blanks and hexadecimal letters are read is a DESIGN
CHOICE (log entry 23). -/

namespace Sys2Proof.Text

/-- The characters before a comment, which starts with `;` (rule R135). -/
def uncomment (cs : List Char) : List Char := cs.takeWhile (· != ';')

/-- The words of a line, put together from its end: blanks separate them. -/
def wordsFrom : List Char → List Char × List (List Char)
  | [] => ([], [])
  | c :: cs =>
    let r := wordsFrom cs
    if c = ' ' ∨ c = '\t' then ([], if r.1 = [] then r.2 else r.1 :: r.2) else (c :: r.1, r.2)

/-- The words of a line without its comment. -/
def words (cs : List Char) : List (List Char) :=
  let r := wordsFrom (uncomment cs)
  if r.1 = [] then r.2 else r.1 :: r.2

/-- The pieces of a word between `+` signs. -/
def pieces : List Char → List (List Char)
  | [] => [[]]
  | c :: cs =>
    if c = '+' then [] :: pieces cs
    else match pieces cs with
      | [] => [[c]]
      | p :: ps => (c :: p) :: ps

/-- The value of a digit below `base`. -/
def digit (base : Nat) (c : Char) : Option Nat :=
  let v :=
    if '0'.toNat ≤ c.toNat ∧ c.toNat ≤ '9'.toNat then some (c.toNat - '0'.toNat)
    else if 'a'.toNat ≤ c.toNat ∧ c.toNat ≤ 'f'.toNat then some (c.toNat - 'a'.toNat + 10)
    else if 'A'.toNat ≤ c.toNat ∧ c.toNat ≤ 'F'.toNat then some (c.toNat - 'A'.toNat + 10)
    else none
  v.filter (· < base)

/-- The number a run of digits stands for, `acc` being what was read before. -/
def digits (base acc : Nat) : List Char → Option Nat
  | [] => some acc
  | c :: cs => (digit base c).bind fun v => digits base (acc * base + v) cs

/-- A decimal or `0x` hexadecimal number below `bound` (rule R135). -/
def number (bound : Nat) (w : List Char) : Option Nat :=
  let n := match w with
    | '0' :: 'x' :: c :: cs => digits 16 0 (c :: cs)
    | c :: cs => digits 10 0 (c :: cs)
    | [] => none
  n.filter (· < bound)

/-- A 32-bit operand. -/
def word32 (w : List Char) : Option Word := (number (2 ^ 32) w).map (BitVec.ofNat 32)

/-- The rest of a word after a keyword and `=`, as in `op=8`. -/
def after : List Char → List Char → Option (List Char)
  | [], '=' :: rest => some rest
  | k :: ks, c :: cs => if k = c then after ks cs else none
  | _, _ => none

/-- One flag name of RESET (rule R135). -/
def flagName (w : List Char) : Option (BitVec 3) :=
  if w = ['A', 'L', 'L'] then some 1
  else if w = ['C', 'M', 'D'] then some 2
  else if w = ['D', 'A', 'T'] then some 4
  else none

/-- The flags of RESET: NONE alone, or names joined by `+` (rule R135). A name may be repeated, in any order: DESIGN CHOICE,
log entry 23. -/
def resetFlags (w : List Char) : Option (BitVec 3) :=
  if w = ['N', 'O', 'N', 'E'] then some 0
  else (pieces w).foldr (fun p acc => (flagName p).bind fun f => acc.map (f ||| ·)) (some 0)

/-- A response class by name (rules R32, R135). -/
def className (w : List Char) : Option RClass :=
  if w = ['N', 'O', 'N', 'E'] then some .none
  else if w = ['S', 'H', 'O', 'R', 'T'] then some .short
  else if w = ['L', 'O', 'N', 'G'] then some .long
  else if w = ['B', 'U', 'S', 'Y'] then some .busy
  else none

/-- A flag word that may stand next: whether it does, and the words after it. -/
def optional (flag : List Char) : List (List Char) → Bool × List (List Char)
  | w :: ws => if w = flag then (true, ws) else (false, w :: ws)
  | [] => (false, [])

/-- The data part of SEND: `read=<bytes>`, `write=<bytes>`, or nothing (rule R135). -/
def dataPart : List (List Char) → Option (Option (Dir × Word))
  | [] => some none
  | [w] =>
    match after ['r', 'e', 'a', 'd'] w with
    | some n => (word32 n).map fun v => some (Dir.read, v)
    | none => (after ['w', 'r', 'i', 't', 'e'] w).bind fun n => (word32 n).map fun v => some (Dir.write, v)
  | _ => none

/-- The operands of SEND in the order of rule R135. -/
def sendLine : List (List Char) → Option Line
  | op :: resp :: ws =>
    ((after ['o', 'p'] op).bind (number 64)).bind fun o =>
    ((after ['r', 'e', 's', 'p'] resp).bind className).bind fun r =>
    let crc := optional ['c', 'r', 'c'] ws
    let chk := optional ['o', 'p', 'c', 'h', 'k'] crc.2
    match chk.2 with
    | arg :: ws =>
      ((after ['a', 'r', 'g'] arg).bind word32).bind fun a =>
      (dataPart ws).map fun d => .send (BitVec.ofNat 6 o) r crc.1 chk.1 a d
    | [] => none
  | _ => none

/-- The line these words are (rules R135, R136). -/
def lineOf : List (List Char) → Option Line
  | [['I', 'N', 'I', 'T'], ['0']] => some (.init false)
  | [['I', 'N', 'I', 'T'], ['1']] => some (.init true)
  | [['R', 'E', 'S', 'E', 'T'], ['L', 'I', 'N', 'E', 'S']] => some .resetLines
  | [['R', 'E', 'S', 'E', 'T'], w] => (resetFlags w).map .reset
  | ['S', 'E', 'N', 'D'] :: ws => sendLine ws
  | [['G', 'E', 'T', 'B', 'W']] => some .getbw
  | [['S', 'E', 'T', 'B', 'W'], w] => (word32 w).map .setbw
  | [['G', 'E', 'T', 'C', 'L', 'K']] => some .getclk
  | [['S', 'E', 'T', 'C', 'L', 'K'], w] => (word32 w).map .setclk
  | [['B', 'R', 'I', 'N', 'G', 'U', 'P']] => some (.bringup false)
  | [['B', 'R', 'I', 'N', 'G', 'U', 'P'], ['r', 'e', 's', 'e', 't']] => some (.bringup true)
  | _ => none

/-- The line a text is. -/
def parse (cs : List Char) : Option Line := lineOf (words cs)

/-- Present the requests of `i`. -/
def present (i : Instr) : List ReqMsg := (encode i).map .present

/-- The acts `rest`, all of them dropped unless the last operation ended with `Success` (rule R136). -/
def thenIfSuccess (rest : List ReqMsg) : List ReqMsg := .skipUnlessSuccess rest.length :: rest

/-- The boot sequence of rule R305 from `INIT 0` on, stopping at the first request that does not end with
`Success` (rule R136). -/
def bringup : List ReqMsg :=
  present .init0 ++ thenIfSuccess (.loadValue 1 :: present .setbw ++
    thenIfSuccess (.loadValue 400000 :: present .setclk ++ thenIfSuccess (present .init1)))

/-- The acts of the requester a line stands for (rules R135, R136). `resp` is what it loads into `D.RESP` with a
SEND; the buffer is attached by an act of its own. -/
def acts (resp : Vector Word 4) : Line → List ReqMsg
  | .init false => present .init0
  | .init true => present .init1
  | .reset f => present (.reset f)
  | .resetLines => present (.reset 6)
  | .send op cls crc chk arg data =>
      .loadDesc
        { opcode := op, rclass := cls, crc := crc, opchk := chk, arg := arg, resp := resp, reserved := 0
          dir := (data.map (·.1)).getD .read
          bufsize := (data.map (·.2)).getD 0 } :: present .send
  | .getbw => present .getbw
  | .setbw v => .loadValue v :: present .setbw
  | .getclk => present .getclk
  | .setclk hz => .loadValue hz :: present .setclk
  | .bringup false => bringup
  | .bringup true => present (.reset 1) ++ thenIfSuccess bringup

end Sys2Proof.Text
end

