-- ==== Sys2Proof/Safety.lean ====
section
/-! DEFINITION. The terms statements about SDHB are made in: runs of steps, a safe step, the events of polls and of data
chunks, the registers and the statuses of each operation (rules R50, R262), and the invariant the steps keep (rules R41,
R42, R81, R82, R182, R214, R216). -/

namespace Sys2Proof

/-! ## What each operation touches and how it ends -/

/-- The registers an operation's own steps read (the last two columns of the table of rule R50). -/
def Instr.readsOf : Instr → List Reg
  | .init0 => [.version, .caps]
  | .init1 | .getbw | .setbw => [.hostctl]
  | .reset _ | .setclk => [.clkctl]
  | .send => [.pstate, .intsts, .rsp0, .rsp1, .rsp2, .rsp3]
  | .getclk => []
  | .fifoRead => [.intsts, .data]
  | .fifoWrite => [.intsts]

/-- The registers an operation's own steps write (the same table). -/
def Instr.writesOf : Instr → List Reg
  | .init0 | .setbw => [.hostctl]
  | .init1 => [.hostctl, .inten, .intsig]
  | .reset _ => [.clkctl, .inten]
  | .send => [.intsts, .blkszcnt, .arg, .cmd]
  | .getbw | .getclk => []
  | .setclk => [.clkctl]
  | .fifoRead => [.intsts]
  | .fifoWrite => [.intsts, .data]

/-- The statuses an operation can end with (rule R262). -/
def Instr.endings : Instr → List Status
  | .init0 => [.success, .deviceError]
  | .init1 | .getbw => [.success]
  | .reset _ => [.success, .timeout]
  | .send => [.success, .timeout, .deviceError, .invalidParameter]
  | .setbw => [.success, .invalidParameter]
  | .getclk => [.unsupported]
  | .setclk => [.success, .timeout, .invalidParameter]
  | .fifoRead | .fifoWrite => [.success, .timeout, .deviceError]

namespace Machine

/-! ## Runs -/

/-- `n` steps lead from `s` to `t`. -/
def Runs : Nat → State → State → Prop
  | 0, s, t => t = s
  | n + 1, s, t => ∃ u, step s = .next u ∧ Runs n u t

/-- One step of operation `i` in `s`, and `n` steps after it, lead to `t`. -/
def Completes (i : Instr) (n : Nat) (s t : State) : Prop := ∃ u, exec i s = .next u ∧ Runs n u t

/-- `IDLE` with the configuration loaded: a request is accepted (rules R40, R302). -/
def State.ready (s : State) : Prop := s.seq = .idle ∧ s.configured = true

/-- `s` after a whole operation: `IDLE`, the request taken, the status delivered, `reads` register reads answered and
`events` in the history, given in the order they happened (rules R12, R40, R280). -/
def State.ended (st : Status) (reads : Nat) (events : List Event) (s : State) : State :=
  { s with
    seq := .idle
    started := true
    inbox := s.inbox.tail
    q := { s.q with status := st.code }
    env := { script := s.env.script.drop reads, draws := s.env.draws + reads }
    hist := events.reverse ++ s.hist }

/-- A `RegRead` of `r` that was answered `v`, as an event (rule R12). -/
def State.readOf (s : State) (r : Reg) (v : Word) : Event := .regRead r (s.regAddr r) v

/-- A `RegWrite` of `v` to `r`, as an event (rule R12). -/
def State.writeOf (s : State) (r : Reg) (v : Word) : Event := .regWrite r (s.regAddr r) v

/-- The events of failed polls of `r` that were answered these words: a read and a stall each (rule R13). -/
def State.pollsOf (s : State) (r : Reg) (vs : List Word) : List Event :=
  vs.flatMap fun v => [s.readOf r v, .stall s.cfg.tStep]

/-- The events of words moved from buffer index `i` on (rules R212, R213). -/
def State.wordsOf (s : State) (d : Dir) : Nat → List Word → List Event
  | _, [] => []
  | i, w :: ws =>
    (match d with
      | .read => [s.readOf .data w, .bufWrite i w]
      | .write => [.bufRead i w, s.writeOf .data w]) ++ s.wordsOf d (i + 1) ws

/-- The events of chunks moved from buffer index `i` on, each given by the status word that found it ready and its
words: the poll's read, the batch acknowledge, the words (rules R210, R215). -/
def State.chunksOf (s : State) (d : Dir) : Nat → List (Word × List Word) → List Event
  | _, [] => []
  | i, (v, ws) :: cs => s.readOf .intsts v :: s.writeOf .intsts v :: (s.wordsOf d i ws ++ s.chunksOf d (i + ws.length) cs)

/-- An error-free data phase of `rem` bytes: one chunk after the other is found ready, without an error bit, and has the
words of at most a block (rules R214, R217, R218, R220). -/
def Serves (p : Config.Params) (d : Dir) : Nat → List (Word × List Word) → Prop
  | rem, [] => rem = 0
  | rem, (v, ws) :: cs =>
    rem ≠ 0 ∧ p.dataError v = false ∧ p.genericError v = false ∧ p.bufferReady d v = true ∧
      ws.length = min rem p.blk.toNat / 4 ∧ Serves p d (rem - min rem p.blk.toNat) cs

/-- Where a position stands in a poll (rule R13), none outside the five polls of SDHB. -/
def Pos.poll : Pos → Option PollPos
  | .reset _ (.rs_4 _ p) | .send (.sc_2 _ p) | .send (.sc_7 p) | .setclk (.ck_4 _ p) | .fifo _ (.ff_2 _ _ _ p) => some p
  | _ => none

/-- Where the sequencer stands in a poll. -/
def State.polling (s : State) : Option PollPos :=
  match s.seq with
  | .idle => none
  | .running pos _ => pos.poll

/-! ## Good states -/

/-- A step that does not stop with a fault. -/
def SafeAt (s : State) : Prop := ∀ r, step s ≠ .fault r

/-- The register base of rules R81 and R82: aligned, and no register address wraps. -/
def State.baseOk (s : State) : Prop := s.ctx.regbase % 4 = 0 ∧ s.ctx.regbase + 0x100 ≤ 2 ^ s.cfg.addrW

/-- SEND is past its checks (rules R181, R182). -/
def State.sendOk (s : State) : Prop := s.desc.preconditions s.cfg s.dbuf = true ∧ s.desc.invalid = false

/-- Inside a poll with timeout `t` the counter has not passed it (rules R13, R42). -/
def PollOk (t : Nat) (s : State) : PollPos → Prop
  | .start => True
  | .p1 | .p2 => s.elapsed ≤ t

/-- Bytes moved and bytes left make up the transfer (rules R214, R216). -/
def Moved (s : State) (rem idx : Word) : Prop := 4 * idx.toNat + rem.toNat = s.desc.bufsize.toNat

/-- The same, with a chunk of `n` bytes chosen (rule R214). -/
def InChunk (s : State) (rem idx n : Word) : Prop := Moved s rem idx ∧ rem ≠ 0 ∧ n = chunk rem s.cfg.blk

/-- The temporaries of the data mover at each label (rules R210, R214, R216). -/
def FifoOk (s : State) : FifoPos → Prop
  | .ff_0 | .ff_7 | .ff_7w _ => True
  | .ff_1 rem idx => Moved s rem idx
  | .ff_2 rem idx n p => InChunk s rem idx n ∧ PollOk s.cfg.tData s p
  | .ff_3 rem idx n _ | .ff_4 rem idx n _ | .ff_5 rem idx n _ | .ff_6 rem idx n _ => InChunk s rem idx n
  | .ff_6k rem idx n k => InChunk s rem idx n ∧ k.toNat ≤ n.toNat / 4
  | .ff_6w rem idx n k _ => InChunk s rem idx n ∧ k.toNat < n.toNat / 4

/-- A position the sequencer can stand at. -/
def PosOk (s : State) : Pos → Prop
  | .reset _ (.rs_4 _ p) => PollOk s.cfg.tReset s p
  | .send .sc_0 => True
  | .send (.sc_2 _ p) => s.sendOk ∧ PollOk s.cfg.tInhibit s p
  | .send (.sc_7 p) => s.sendOk ∧ PollOk s.cfg.tCmd s p
  | .send (.sc_11r st) => s.sendOk ∧ st ∈ Instr.fifoRead.endings
  | .send _ => s.sendOk
  | .setclk (.ck_4 _ p) => PollOk s.cfg.tClock s p
  | .fifo d l => s.sendOk ∧ s.desc.hasData = true ∧ d = s.desc.dir ∧ FifoOk s l
  | _ => True

/-- The call structure of rule R41: an operation at the outermost level is a requestable one; RESET is called from
SC_8 with `COMMAND_LINE` and from FF_3 with `DATA_LINE`; the data mover is called from SC_11. -/
def StackOk (s : State) : Pos → List Pos → Prop
  | pos, [] => pos.op.wellFormed = true ∧ PosOk s pos
  | .reset f l, [.send .sc_8r] => f = commandLine ∧ PosOk s (.reset f l) ∧ s.sendOk
  | .fifo d l, [.send (.sc_11r _)] => PosOk s (.fifo d l)
  | .reset f l, [.fifo d (.ff_4 rem idx n v), .send (.sc_11r _)] =>
      f = dataLine ∧ PosOk s (.reset f l) ∧ PosOk s (.fifo d (.ff_4 rem idx n v))
  | _, _ => False

/-- The invariant of SDHB. -/
structure State.Inv (s : State) : Prop where
  /-- the buffer keeps its canonical form. -/
  buf : s.buf.wf = true
  /-- a loaded configuration is one the load accepts (rules R8, R66, R82). -/
  cfg : s.configured = true → s.cfg.valid = true ∧ s.baseOk
  /-- no request is accepted before the configuration load (rule R302). -/
  loaded : s.started = true → s.configured = true
  /-- the elapsed counter fits its `ELAPSED_W` bits (rule R42). -/
  elapsed : s.elapsed < 2 ^ s.cfg.elapsedW
  /-- the sequencer stands where its call structure allows (rule R41). -/
  seq : ∀ pos cs, s.seq = .running pos cs → s.started = true ∧ StackOk s pos cs

end Machine
end Sys2Proof
end

