-- ==== Sys2Proof/Certificates/Slice0/Obligations.lean ====
section
/-! DEFINITION. The statements about SDHB, in the order of the spec's files. `Completes i n s t` says that `exec i s`
answers a next state and `n` further steps lead from it to `t`; `State.ended` is the state after a whole operation. -/

section
open Sys2Proof Sys2Proof.Machine

/-! ## Requests and descriptors (30_encoding.md) -/

/-- Rule R113: decoding is total, by the match and mask of each row of rule R110. -/
def Obligations.HeaderDecodingIsTotal : Prop :=
  ∀ req : Byte,
    (req = 0x00 → decodeHeader req = .ok .init0) ∧ (req = 0x08 → decodeHeader req = .ok .init1) ∧
    (req = 0x02 → decodeHeader req = .ok .send) ∧
    (req = 0x03 → decodeHeader req = .ok .getbw) ∧ (req = 0x0B → decodeHeader req = .ok .setbw) ∧
    (req = 0x04 → decodeHeader req = .ok .getclk) ∧ (req = 0x0C → decodeHeader req = .ok .setclk) ∧
    (req &&& 0xC7 = 0x01 → decodeHeader req = .ok (.reset (req.extractLsb' 3 3))) ∧
    (req &&& 0xC7 ≠ 0x01 → req ∉ ([0x00, 0x08, 0x02, 0x03, 0x0B, 0x04, 0x0C] : List Byte) →
      ∃ why, decodeHeader req = .error why)

/-- Eight header bytes written out from rule R110, and the operations they decode to. -/
def Obligations.SampleHeadersDecode : Prop :=
  decode [0b00000000] = .ok (.init0, []) ∧ decode [0b00001000] = .ok (.init1, []) ∧
  decode [0b00110001] = .ok (.reset 0b110, []) ∧ decode [0b00000010] = .ok (.send, []) ∧
  decode [0b00000011] = .ok (.getbw, []) ∧ decode [0b00001011] = .ok (.setbw, []) ∧
  decode [0b00000100] = .ok (.getclk, []) ∧ decode [0b00001100] = .ok (.setclk, [])

/-- Decoding the encoding of a requestable operation gives it back and leaves the rest of the bytes alone. -/
def Obligations.DecodeOfEncode : Prop :=
  ∀ (i : Instr) (rest : List Byte), i.wellFormed = true → decode (encode i ++ rest) = .ok (i, rest)

/-- Rule R114: the packed form and the separate registers carry the same descriptor, in both directions, each field at its
bits of the control word. -/
def Obligations.PackedDescriptorRoundTrip : Prop :=
  (∀ d : Descriptor, d.pack.unpack = d) ∧ (∀ w : DescWords, w.unpack.pack = w) ∧
  ∀ w : DescWords,
    w.unpack.opcode = w.dcw.extractLsb' 0 6 ∧
    (w.dcw.extractLsb' 6 2).toNat = (match w.unpack.rclass with
      | .none => 0
      | .short => 1
      | .long => 2
      | .busy => 3) ∧
    (w.unpack.crc = true ↔ w.dcw &&& 0x100 ≠ 0) ∧ (w.unpack.opchk = true ↔ w.dcw &&& 0x200 ≠ 0) ∧
    (w.unpack.dir = .write ↔ w.dcw &&& 0x400 ≠ 0) ∧ (w.unpack.reserved = 0 ↔ w.dcw &&& 0xFFFFF800 = 0) ∧
    w.unpack.arg = w.arg ∧ w.unpack.bufsize = w.bufsize ∧ w.unpack.resp = w.resp

/-- Rule R112: the reserved headers, and that a reserved request is accepted, makes no port access, changes no context
register and ends with `InvalidParameter` (code 3). That it counts as the first request is DEDUCED (log entry 13). -/
def Obligations.ReservedRequestIsInvalidParameter : Prop :=
  ∀ (req : Byte) (rest : List ReqMsg) (s : State), s.ready → s.inbox = .present req :: rest →
    (let sel := (req.extractLsb' 0 3).toNat
     let md := (req.extractLsb' 3 3).toNat
     5 ≤ sel ∨ req.extractLsb' 6 2 ≠ 0 ∨ (sel = 0 ∧ 2 ≤ md) ∨ (sel = 2 ∧ md ≠ 0) ∨ ((sel = 3 ∨ sel = 4) ∧ 2 ≤ md)) →
    step s = .next { s with started := true, inbox := rest, q := { s.q with status := 3 } }

/-- Rule R122: the three parts of the command word occupy disjoint bits, so that their OR is their sum. -/
def Obligations.CommandWordIsSumOfParts : Prop :=
  ∀ (p : Config.Params) (d : Descriptor) (caps : Word), p.valid = true →
    p.commandWord d caps = (d.opcode.setWidth 32 <<< p.cl.cmdIndexShift) + p.respFlags d + p.dataFlags d caps

/-- Rule R126: `X_AUTO_CMD12` is in the command word of a multi-block command with data exactly when `C.HOSTCAPS` has
`CAP_AUTO_CMD12`, and `X_DMA_EN` is never in it. -/
def Obligations.CommandWordAutoAndDma : Prop :=
  ∀ (p : Config.Params) (d : Descriptor) (caps : Word), p.valid = true →
    p.commandWord d caps &&& p.cl.xAutoCmd12 =
      (if d.bufsize ≠ 0 ∧ (d.opcode = p.opReadMulti ∨ d.opcode = p.opWriteMulti) ∧ caps &&& 0x20 ≠ 0 then p.cl.xAutoCmd12
       else 0) ∧
    p.commandWord d caps &&& p.cl.xDmaEn = 0

/-- Rules R53, R122 to R125: every field of a command word but the auto-CMD12 bit: the opcode, the response type by class,
the two checks, the data-present, direction, multi-block and block-count bits; every bit outside the fields is 0. -/
def Obligations.CommandWordFields : Prop :=
  (Config.params.cl.respNone = 0 ∧ Config.params.cl.respShort = 2 ∧ Config.params.cl.respLong = 1 ∧
    Config.params.cl.respBusy = 3) ∧
  ∀ (p : Config.Params) (d : Descriptor) (caps : Word), p.valid = true →
    let w := p.commandWord d caps
    (w >>> p.cl.cmdIndexShift).extractLsb' 0 6 = d.opcode ∧
    (w >>> p.cl.cmdRespShift).extractLsb' 0 2 = (match d.rclass with
      | .none => p.cl.respNone
      | .short => p.cl.respShort
      | .long => p.cl.respLong
      | .busy => p.cl.respBusy) ∧
    w &&& p.cl.cmdCrcChk = (if d.crc = true then p.cl.cmdCrcChk else 0) ∧
    w &&& p.cl.cmdIdxChk = (if d.opchk = true then p.cl.cmdIdxChk else 0) ∧
    w &&& p.cl.cmdData = (if d.bufsize ≠ 0 then p.cl.cmdData else 0) ∧
    w &&& p.cl.xRead = (if d.bufsize ≠ 0 ∧ d.dir = .read then p.cl.xRead else 0) ∧
    w &&& p.cl.xMulti =
      (if d.bufsize ≠ 0 ∧ (d.opcode = p.opReadMulti ∨ d.opcode = p.opWriteMulti) then p.cl.xMulti else 0) ∧
    w &&& p.cl.xBlkcntEn =
      (if d.bufsize ≠ 0 ∧ (d.opcode = p.opReadMulti ∨ d.opcode = p.opWriteMulti) then p.cl.xBlkcntEn else 0) ∧
    w &&& ~~~((0x3F#32 <<< p.cl.cmdIndexShift) ||| (3#32 <<< p.cl.cmdRespShift) ||| p.cl.cmdCrcChk ||| p.cl.cmdIdxChk |||
      p.cl.cmdData ||| p.cl.xRead ||| p.cl.xMulti ||| p.cl.xBlkcntEn ||| p.cl.xAutoCmd12) = 0

/-- Rules R51, R124: both fields of the block word hold their values exactly, for operands within rule R182, and every other
bit is 0. -/
def Obligations.BlockWordFields : Prop :=
  ∀ (p : Config.Params) (d : Descriptor) (n : Option Nat), p.valid = true → d.preconditions p n = true →
    d.bufsize ≠ 0 →
    ((p.blkszcntWord d >>> p.cl.blksizeShift).extractLsb' 0 12).toNat =
      (if d.opcode = p.opReadMulti ∨ d.opcode = p.opWriteMulti then p.blk.toNat else d.bufsize.toNat) ∧
    ((p.blkszcntWord d >>> p.cl.blkcountShift).extractLsb' 0 16).toNat =
      (if d.opcode = p.opReadMulti ∨ d.opcode = p.opWriteMulti then d.bufsize.toNat / p.blk.toNat else 0) ∧
    p.blkszcntWord d &&& ~~~((0xFFF#32 <<< p.cl.blksizeShift) ||| (0xFFFF#32 <<< p.cl.blkcountShift)) = 0

/-- Rules R128, R230, R232: a width that is written is the width that is read back, and every other bit is kept. -/
def Obligations.WidthReadsBack : Prop :=
  ∀ (p : Config.Params) (v w : Word), p.valid = true → p.hl.hcBw4 ≠ 0 → p.hl.hcBw8 ≠ 0 → (w = 1 ∨ w = 4 ∨ w = 8) →
    p.widthOf (p.withWidth v w) = w ∧
    p.withWidth v w &&& ~~~(p.hl.hcBw4 ||| p.hl.hcBw8) = v &&& ~~~(p.hl.hcBw4 ||| p.hl.hcBw8)

/-- Rules R129, R247: the first clock word holds the divisor code `d >> 1` whole, the data-timeout default and the
internal clock enable, with the output clock, every reset bit and every other bit off. For `d` within the default bounds;
what a larger bound gives is the model's choice (log entry 36). -/
def Obligations.ClockWordFields : Prop :=
  ∀ (p : Config.Params) (d : Word), p.valid = true → d.toNat ≤ 2046 →
    (let clk := p.clockWord d
     (((clk >>> p.hl.ccDivHiShift).extractLsb' 0 2 : BitVec 2) ++ ((clk >>> p.hl.ccDivLoShift).extractLsb' 0 8 : BitVec 8)
        : BitVec 10).toNat = d.toNat / 2 ∧
     (clk >>> p.hl.ccDtoShift).extractLsb' 0 4 = p.dtoDefault ∧
     clk &&& p.hl.ccIce = p.hl.ccIce ∧ clk &&& p.hl.ccSdce = 0 ∧ clk &&& p.hl.ccStable = 0 ∧
     clk &&& (p.hl.ccRstAll ||| p.hl.ccRstCmd ||| p.hl.ccRstDat) = 0 ∧
     clk &&& ~~~((0xF#32 <<< p.hl.ccDtoShift) ||| (0xFF#32 <<< p.hl.ccDivLoShift) ||| (3#32 <<< p.hl.ccDivHiShift) |||
       p.hl.ccIce) = 0)

/-! ## State, reset, the request port (10_state.md, 70_reset_and_hazards.md) -/

/-- Rule R70: after power-on reset the five context registers are 0, and they stay so until the configuration load. -/
def Obligations.ContextZeroUntilConfigured : Prop :=
  State.reset.ctx = { regbase := 0, hostver := 0, hostcaps := 0, voltages := 0, fundclk := 0 } ∧
  State.reset.seq = .idle ∧ State.reset.configured = false ∧
  ∀ s t : State, s.seq = .idle → s.configured = false → step s = .next t →
    t.seq = .idle ∧ (t.configured = false → t.ctx = s.ctx)

/-- Rules R71, R300: `IDLE`, empty call stack, counter 0, no port event; the invariant of the model holds. The empty buffer
the invariant covers is the model's choice (log entry 10). -/
def Obligations.ResetMeetsInvariant : Prop :=
  State.reset.seq = .idle ∧ State.reset.seq.callers = [] ∧ State.reset.elapsed = 0 ∧ State.reset.hist = [] ∧
    State.reset.Inv

/-- Rules R24, R82: the configuration load copies the values verbatim, leaves `C.HOSTVER`, makes no port access, and is
accepted for every aligned base up to `2^ADDR_W - 0x100`. That it may come again before the first request is DEDUCED (log
entry 13). -/
def Obligations.ConfigurationLoads : Prop :=
  ∀ (s : State) (c : ConfigLoad) (rest : List ReqMsg),
    s.seq = .idle → s.inbox = .config c :: rest → s.started = false → s.cfg.valid = true →
    c.regbase % 4 = 0 → c.regbase + 0x100 ≤ 2 ^ s.cfg.addrW →
    step s = .next { s with
      configured := true
      inbox := rest
      ctx := { s.ctx with
        regbase := c.regbase
        hostcaps := c.hostcaps.getD s.ctx.hostcaps
        voltages := c.voltages.getD s.ctx.voltages
        fundclk := c.fundclk.getD s.ctx.fundclk } }

/-- Rules R24, R82, R8, R302: what a model refuses: a load after the first request, a record that breaks a constraint, a
base that is misaligned or above `2^ADDR_W - 0x100`; and any request before the configuration load. When each check happens
is DEDUCED (log entries 13, 14). -/
def Obligations.ConfigurationRefused : Prop :=
  ∀ (s : State) (rest : List ReqMsg), s.seq = .idle →
    (∀ c : ConfigLoad, s.inbox = .config c :: rest →
      (s.started = true → step s = .refused .lateConfig) ∧
      (s.started = false → s.cfg.valid = false → step s = .refused .badParameters) ∧
      (s.started = false → s.cfg.valid = true → (c.regbase % 4 ≠ 0 ∨ 2 ^ s.cfg.addrW < c.regbase + 0x100) →
        step s = .refused .badRegbase)) ∧
    (∀ req : Byte, s.inbox = .present req :: rest → s.configured = false → step s = .refused .notConfigured)

/-- Rules R30, R111, R114, R136: the operand loads, taken while `IDLE`, and the stop of BRINGUP, which drops the next acts
unless the last operation ended with `Success`. That loads are taken only there, that attaching a buffer replaces the
contents, and the form of the stop are the model's (log entries 20, 21, 24). -/
def Obligations.OperandLoads : Prop :=
  ∀ (s : State) (rest : List ReqMsg), s.seq = .idle →
    (∀ v, s.inbox = .loadValue v :: rest → step s = .next { s with inbox := rest, q := { s.q with value := v } }) ∧
    (∀ d, s.inbox = .loadDesc d :: rest → step s = .next { s with inbox := rest, desc := d }) ∧
    (∀ d : Descriptor, s.inbox = .loadWords d.pack :: rest → step s = .next { s with inbox := rest, desc := d }) ∧
    (s.inbox = .attach none :: rest → step s = .next { s with inbox := rest, dbuf := none, buf := [] }) ∧
    (∀ bs, s.inbox = .attach (some bs) :: rest → ∃ t, step s = .next t ∧ t.dbuf = some bs.length ∧ t.buf.wf = true ∧
      (∀ (i : Nat) (h : i < bs.length), Memory.read i t.buf = bs[i]) ∧
      t = { s with inbox := rest, dbuf := t.dbuf, buf := t.buf }) ∧
    (∀ n, s.inbox = .skipUnlessSuccess n :: rest →
      (s.q.status = 0 → step s = .next { s with inbox := rest }) ∧
      (s.q.status ≠ 0 → step s = .next { s with inbox := rest.drop n }))

/-- A step runs the operation a waiting request decodes to, and the next label of the operation that runs. -/
def Obligations.StepRunsDecodedOperation : Prop :=
  (∀ (s : State) (req : Byte) (rest : List ReqMsg) (i : Instr), s.seq = .idle → s.inbox = .present req :: rest →
    decode [req] = .ok (i, []) → step s = exec i s) ∧
  (∀ (s : State) (pos : Pos) (cs : List Pos), s.seq = .running pos cs → step s = exec pos.op s)

/-- Rule R40: while an operation runs, what waits at the request port is held; `IDLE` without a request makes no port
access, starts nothing and keeps the delivered status. The second clause is the model's choice, not the rule's (DESIGN CHOICE,
log entry 15): `exec` of a requestable operation that is not the one running answers the same state. -/
def Obligations.RequestPort : Prop :=
  (∀ s t : State, s.busy = true → step s = .next t → t.inbox = s.inbox ∧ t.started = s.started) ∧
  (∀ (i : Instr) (s : State) (pos : Pos) (cs : List Pos), s.seq = .running pos cs → i.wellFormed = true → pos.op ≠ i →
    exec i s = .next s) ∧
  (∀ s t : State, s.seq = .idle → (∀ req rest, s.inbox ≠ .present req :: rest) → step s = .next t →
    t.hist = s.hist ∧ t.env = s.env ∧ t.seq = .idle ∧ t.q.status = s.q.status)

/-- Rules R20 to R22, R326: of the steps of SDHB only INIT0 and the configuration load change the context; `C.REGBASE` is
changed by no operation and `C.HOSTVER` by no load; INIT0 keeps a non-zero voltage mask and a non-zero base clock, clears no
capability bit and (rule R21) sets none but 0, 1 and 6; that no record lets it set another is DEDUCED (log entry 34). -/
def Obligations.ContextWriters : Prop :=
  (∀ (i : Instr) (s t : State), exec i s = .next t →
    t.ctx.regbase = s.ctx.regbase ∧ (i ≠ .init0 → t.ctx = s.ctx) ∧
    (s.ctx.voltages ≠ 0 → t.ctx.voltages = s.ctx.voltages) ∧ (s.ctx.fundclk ≠ 0 → t.ctx.fundclk = s.ctx.fundclk) ∧
    s.ctx.hostcaps &&& ~~~t.ctx.hostcaps = 0 ∧
    (s.cfg.valid = true → t.ctx.hostcaps &&& ~~~0x43 = s.ctx.hostcaps &&& ~~~0x43)) ∧
  (∀ s t : State, s.seq = .idle → (∀ req rest, s.inbox ≠ .present req :: rest) → step s = .next t →
    t.ctx.hostver = s.ctx.hostver ∧ ((∀ c rest, s.inbox ≠ .config c :: rest) → t.ctx = s.ctx))

/-- Rule R31: no operation but SEND touches the descriptor, and SEND only its response words, at SC_10 and at the last
read of a long capture: at SC_10 none for class NONE and at most the first for any class. -/
def Obligations.DescriptorFrame : Prop :=
  ∀ (i : Instr) (s t : State), exec i s = .next t →
    (i ≠ .send → t.desc = s.desc) ∧ t.desc = { s.desc with resp := t.desc.resp } ∧
    ((∀ r0 r1 r2 cs, s.seq ≠ .running (.send (.sc_10d r0 r1 r2)) cs) →
      t.desc.resp[1] = s.desc.resp[1] ∧ t.desc.resp[2] = s.desc.resp[2] ∧ t.desc.resp[3] = s.desc.resp[3] ∧
      ((∀ v cs, s.seq ≠ .running (.send (.sc_10 v)) cs) ∨ s.desc.rclass = .none → t.desc = s.desc))

/-- Rule R33: `Q.RESULT` is written by GETBW alone, `Q.VALUE` by no operation, `Q.FLAGS` by the acceptance of a RESET
alone (DEDUCED, log entry 29), `Q.STATUS` only where an operation ends. The parameter record, the attached buffer and the loaded flag are changed by
no operation, and the request port moves on only when a request is accepted. -/
def Obligations.RegisterFrame : Prop :=
  ∀ (i : Instr) (s t : State), exec i s = .next t →
    (i ≠ .getbw → t.q.result = s.q.result) ∧ t.q.value = s.q.value ∧
    (t.q.flags ≠ s.q.flags → ∃ f, i = .reset f ∧ s.seq = .idle ∧ t.q.flags = f) ∧
    (t.q.status ≠ s.q.status → t.seq = .idle) ∧
    t.cfg = s.cfg ∧ t.dbuf = s.dbuf ∧ t.configured = s.configured ∧
    (s.busy = true → t.inbox = s.inbox ∧ t.started = s.started) ∧
    (s.busy = false → t.inbox = s.inbox.tail ∧ t.started = true)

/-- Rules R83, R86: the buffer is written only by FIFO_READ, at the second access of a word; that access stores the word in
the four bytes of word `IDX + k`, little-endian, and changes no other byte. -/
def Obligations.BufferFrame : Prop :=
  ∀ (i : Instr) (s t : State), s.buf.wf = true → exec i s = .next t →
    (∀ rem idx n k w cs, i = .fifoRead → s.seq = .running (.fifo .read (.ff_6w rem idx n k w)) cs →
      t.buf.readWord (idx + k).toNat = w ∧
      (∀ j < 4, Memory.read (4 * (idx + k).toNat + j) t.buf = w.extractLsb' (8 * j) 8) ∧
      ∀ a, a < 4 * (idx + k).toNat ∨ 4 * (idx + k).toNat + 4 ≤ a → Memory.read a t.buf = Memory.read a s.buf) ∧
    ((i = .fifoRead → ∀ rem idx n k w cs, s.seq ≠ .running (.fifo .read (.ff_6w rem idx n k w)) cs) →
      ∀ a, Memory.read a t.buf = Memory.read a s.buf)

/-- Rules R13, R42: the elapsed counter, by where the step stands: the start of a poll sets it to 0, the stall of a poll
advances it by `T_STEP` without overflow (DEDUCED, log entry 7), no other step stalls or changes it. That a nested poll counts
in the same field is the model's choice (log entry 33). -/
def Obligations.ElapsedCounter : Prop :=
  ∀ s t : State, s.Inv → step s = .next t →
    match s.polling with
    | some .start => t.hist = s.hist ∧ t.elapsed = 0
    | some .p2 =>
      t.hist = .stall s.cfg.tStep :: s.hist ∧ t.elapsed = s.elapsed + s.cfg.tStep ∧ t.elapsed < 2 ^ s.cfg.elapsedW
    | some .p1 | none => (∀ us, t.hist ≠ .stall us :: s.hist) ∧ t.elapsed = s.elapsed

/-- Rules R12, R88, R90: one step makes at most one port event, and an answer is drawn exactly by a register read. -/
def Obligations.OneAccessPerStep : Prop :=
  ∀ (i : Instr) (s t : State), exec i s = .next t →
    (t.hist = s.hist ∧ t.env = s.env) ∨
    (∃ r a v, t.hist = .regRead r a v :: s.hist ∧ a = s.regAddr r ∧ v = s.peek r ∧ t.env = s.env.next) ∨
    (∃ e, t.hist = e :: s.hist ∧ (∀ r a v, e ≠ .regRead r a v) ∧ t.env = s.env)

/-- The last two columns of the register map of rule R50, and rule R83 for the buffer: what each operation's own steps
may access. -/
def Obligations.AccessTable : Prop :=
  ∀ (i : Instr) (s t : State) (e : Event), exec i s = .next t → t.hist = e :: s.hist →
    match e with
    | .regRead r a _ => r ∈ i.readsOf ∧ a = s.regAddr r
    | .regWrite r a _ => r ∈ i.writesOf ∧ a = s.regAddr r
    | .bufRead n _ => i = .fifoWrite ∧ n < s.desc.bufsize.toNat / 4
    | .bufWrite n _ => i = .fifoRead ∧ n < s.desc.bufsize.toNat / 4
    | .stall us => us = s.cfg.tStep

/-- Rules R81, R82, R87: every register access of a good state is aligned and inside the 256 bytes at `C.REGBASE`. -/
def Obligations.RegisterAddressesAligned : Prop :=
  ∀ (s : State) (r : Reg), s.Inv → s.configured = true →
    s.regAddr r = s.ctx.regbase + s.cfg.off r ∧ s.regAddr r % 4 = 0 ∧ s.cfg.off r ≤ 0xFC

/-- Rules R60, R61: SDHB writes only the two values 0 and `INT_EN_DEFAULT` to `INTEN` and only the value 0 to `INTSIG`, and
reads neither. -/
def Obligations.InterruptMaskWrites : Prop :=
  ∀ (s t : State) (a : Nat) (v : Word), step s = .next t →
    (t.hist = .regWrite .inten a v :: s.hist → v = 0 ∨ v = s.cfg.intEnDefault) ∧
    (t.hist = .regWrite .intsig a v :: s.hist → v = 0) ∧
    t.hist ≠ .regRead .inten a v :: s.hist ∧ t.hist ≠ .regRead .intsig a v :: s.hist

/-! ## The invariant -/

/-- Every step keeps the invariant: the canonical buffer, a valid loaded configuration, the bounded counter and the call
structure. -/
def Obligations.StepKeepsInvariant : Prop := ∀ s t : State, s.Inv → step s = .next t → t.Inv

/-- Rule R216: in a good state no buffer index outside the range is formed; no step ends in a fault. -/
def Obligations.GoodStateNeverFaults : Prop := ∀ s : State, s.Inv → SafeAt s

/-- Rule R262: the statuses each operation can end with, at the outermost level and, for the data mover, to SEND; and that
of a reserved request. -/
def Obligations.EndingStatuses : Prop :=
  ∀ (i : Instr) (s t : State), s.Inv → exec i s = .next t →
    (s.busy = true → (∃ pos, s.seq = .running pos [] ∧ pos.op = i) → t.seq = .idle →
      ∃ st ∈ i.endings, t.q.status = st.code) ∧
    (s.busy = false → t.seq = .idle → ∃ st ∈ i.endings, t.q.status = st.code) ∧
    (∀ d l st₀ st, s.seq = .running (.fifo d l) [.send (.sc_11r st₀)] → i = (Pos.fifo d l).op →
      t.seq = .running (.send (.sc_11r st)) [] → st ∈ i.endings) ∧
    (∀ (r t : State) (req : Byte) (rest : List ReqMsg) (why : DecodeReject), r.seq = .idle →
      r.inbox = .present req :: rest → decodeHeader req = .error why → step r = .next t →
      t.seq = .idle ∧ t.q.status = Status.invalidParameter.code)

/-! ## Endings (60_exceptions.md) -/

/-- Rules R280, R281: at the outermost level `raise` and `return` deliver the status and make SDHB `IDLE`; in a
sub-operation they hand the status to the caller; nothing else changes. -/
def Obligations.EndingAnOperation : Prop :=
  ∀ (s : State) (st : Status) (pos : Pos),
    (s.seq = .running pos [] → s.finish st = { s with seq := .idle, q := { s.q with status := st.code } }) ∧
    (∀ st₀, s.seq = .running pos [.send (.sc_11r st₀)] →
      s.finish st = { s with seq := .running (.send (.sc_11r st)) [] }) ∧
    (s.seq = .running pos [.send .sc_8r] → s.finish st = { s with seq := .running (.send .sc_8r) [] }) ∧
    (∀ d rem idx n v c, s.seq = .running pos [.fifo d (.ff_4 rem idx n v), c] →
      s.finish st = { s with seq := .running (.fifo d (.ff_4 rem idx n v)) [c] })

/-! ## Initialisation (40_init.md) -/

/-- Rules R150 to R155: a successful INIT0, for every pair of answers, with its two reads, its one write and the four
context registers it leaves. -/
def Obligations.Init0Succeeds : Prop :=
  ∀ (s : State) (lvl : Word), s.ready →
    let v := s.peek .version
    let caps := (s.afterRead .version).peek .caps
    let ver := s.cfg.versionCode v
    let volts := if s.ctx.voltages = 0 then s.cfg.voltsFound caps else s.ctx.voltages
    let clk := if s.ctx.fundclk = 0 then s.cfg.clockFound ver caps else s.ctx.fundclk
    s.cfg.powerLevel volts = some lvl → clk ≠ 0 →
      Completes .init0 5 s
        { s.ended .success 2 [s.readOf .version v, s.readOf .caps caps, s.writeOf .hostctl lvl] with
          ctx := { regbase := s.ctx.regbase, hostver := ver, hostcaps := s.ctx.hostcaps ||| s.cfg.capsFound caps,
                   voltages := volts, fundclk := clk } }

/-- Rules R153 to R156: the three failures of INIT0, each with `DeviceError` (code 2) and with what was done before it
left in place. -/
def Obligations.Init0Fails : Prop :=
  ∀ s : State, s.ready →
    let v := s.peek .version
    let caps := (s.afterRead .version).peek .caps
    let ver := s.cfg.versionCode v
    let found := s.ctx.hostcaps ||| s.cfg.capsFound caps
    let volts := if s.ctx.voltages = 0 then s.cfg.voltsFound caps else s.ctx.voltages
    let clk := if s.ctx.fundclk = 0 then s.cfg.clockFound ver caps else s.ctx.fundclk
    (volts = 0 →
      Completes .init0 3 s
        { s.ended .deviceError 2 [s.readOf .version v, s.readOf .caps caps] with
          ctx := { s.ctx with hostver := ver, hostcaps := found } }) ∧
    (volts ≠ 0 → s.cfg.powerLevel volts = none →
      Completes .init0 4 s
        { s.ended .deviceError 2 [s.readOf .version v, s.readOf .caps caps] with
          ctx := { s.ctx with hostver := ver, hostcaps := found, voltages := volts } }) ∧
    (∀ lvl, s.cfg.powerLevel volts = some lvl → clk = 0 →
      Completes .init0 5 s
        { s.ended .deviceError 2 [s.readOf .version v, s.readOf .caps caps, s.writeOf .hostctl lvl] with
          ctx := { s.ctx with hostver := ver, hostcaps := found, voltages := volts } })

/-- Rules R63, R152 to R155 with the default parameters: what INIT0 makes of the two words it reads. -/
def Obligations.Init0DefaultWords : Prop :=
  ∀ (v caps m : Word) (ver : BitVec 8),
    Config.params.versionCode v = v.extractLsb' 16 8 ∧
    Config.params.capsFound caps =
      (if caps &&& 0x00080000 ≠ 0 then 0x40 else 0) ||| (if caps &&& 0x00200000 ≠ 0 then 0x01 else 0) ∧
    Config.params.voltsFound caps =
      (if caps &&& 0x04000000 ≠ 0 then 0x00000080 else 0) ||| (if caps &&& 0x02000000 ≠ 0 then 0x00060000 else 0) |||
        (if caps &&& 0x01000000 ≠ 0 then 0x00300000 else 0) ∧
    Config.params.powerLevel m =
      (if m &&& 0x00300000 ≠ 0 then some 0x0E00 else if m &&& 0x00060000 ≠ 0 then some 0x0C00
       else if m &&& 0x00000080 ≠ 0 then some 0x0A00 else none) ∧
    (Config.params.clockFound ver caps).toNat =
      (if 2 ≤ ver.toNat then (caps.extractLsb' 8 8).toNat else (caps.extractLsb' 8 6).toNat) * 1000000

/-- Rule R158: INIT1 makes one read and three writes, always, and always ends with `Success`. -/
def Obligations.Init1Completes : Prop :=
  decodeHeader 0x08 = .ok .init1 ∧ ∀ s : State, s.ready →
    let v := s.peek .hostctl
    Completes .init1 3 s
      (s.ended .success 1
        [s.readOf .hostctl v, s.writeOf .hostctl (v ||| s.cfg.hl.hcPowerEn), s.writeOf .inten s.cfg.intEnDefault,
         s.writeOf .intsig 0])

/-! ## RESET (41_reset.md) -/

/-- Rules R120, R170 to R173: the read-modify-write of RESET and its poll: where the bits are cleared within
`NPOLL(T_RESET)` reads, the two writes of `INTEN` and `Success`; after that many failed reads `Timeout` (code 1), `INTEN` not
written. That acceptance writes `Q.FLAGS` is DEDUCED (log entry 29). -/
def Obligations.ResetCompletes : Prop :=
  ∀ (s : State) (flags : BitVec 3) (v₀ : Word) (bad rest : List Word), s.ready → s.cfg.valid = true →
    let bits := (if flags &&& 1 ≠ 0 then s.cfg.hl.ccRstAll else 0) ||| (if flags &&& 2 ≠ 0 then s.cfg.hl.ccRstCmd else 0)
      ||| (if flags &&& 4 ≠ 0 then s.cfg.hl.ccRstDat else 0)
    (∀ v ∈ bad, v &&& bits ≠ 0) →
    (∀ good, s.env.script = v₀ :: (bad ++ good :: rest) → good &&& bits = 0 → bad.length < s.cfg.npoll s.cfg.tReset →
      Completes (.reset flags) (2 * bad.length + 6) s
        { s.ended .success (bad.length + 2)
            ([s.readOf .clkctl v₀, s.writeOf .clkctl (v₀ ||| bits)] ++ s.pollsOf .clkctl bad ++
             [s.readOf .clkctl good, s.writeOf .inten 0, s.writeOf .inten s.cfg.intEnDefault]) with
          elapsed := bad.length * s.cfg.tStep
          q := { s.q with flags := flags, status := 0 } }) ∧
    (s.env.script = v₀ :: (bad ++ rest) → bad.length = s.cfg.npoll s.cfg.tReset →
      Completes (.reset flags) (2 * bad.length + 3) s
        { s.ended .timeout (bad.length + 1)
            ([s.readOf .clkctl v₀, s.writeOf .clkctl (v₀ ||| bits)] ++ s.pollsOf .clkctl bad) with
          elapsed := bad.length * s.cfg.tStep
          q := { s.q with flags := flags, status := 1 } })

/-- Rule R331 for RESET: in every environment it ends, with `Success` or `Timeout`, after at most `2 * N_RESET + 3` port
events. -/
def Obligations.ResetTerminates : Prop :=
  ∀ (s : State) (flags : BitVec 3), s.ready → s.cfg.valid = true →
    ∃ n t, Completes (.reset flags) n s t ∧ t.seq = .idle ∧ (t.q.status = 0 ∨ t.q.status = 1) ∧
      t.hist.length ≤ s.hist.length + (2 * s.cfg.npoll s.cfg.tReset + 3)

/-! ## SEND (42_send_command.md) -/

/-- Rule R181: the descriptors SEND turns away, with `InvalidParameter` (code 3) and an empty trace; and it turns no other
away. -/
def Obligations.SendInvalidDescriptor : Prop :=
  ∀ s : State, s.ready → s.desc.preconditions s.cfg s.dbuf = true →
    (((s.desc.rclass = .none ∧ (s.desc.crc = true ∨ s.desc.opchk = true)) ∨ s.desc.reserved ≠ 0) →
      exec .send s = .next (s.ended .invalidParameter 0 [])) ∧
    (¬((s.desc.rclass = .none ∧ (s.desc.crc = true ∨ s.desc.opchk = true)) ∨ s.desc.reserved ≠ 0) →
      ∃ t, exec .send s = .next t ∧ t.seq = .running (.send .sc_1) [] ∧ t.hist = s.hist ∧ t.desc = s.desc)

/-- Rule R182: a SEND is refused where, and only where, one of its four operand preconditions fails. That the refusal comes
before the check of rule R181 is DEDUCED (log entry 12). -/
def Obligations.SendPreconditions : Prop :=
  ∀ s : State, s.ready →
    let size := s.desc.bufsize.toNat
    let multi := s.desc.opcode = s.cfg.opReadMulti ∨ s.desc.opcode = s.cfg.opWriteMulti
    (exec .send s = .refused .sendPrecondition ↔
      ¬(size % 4 = 0 ∧
        (size ≠ 0 → multi → size % s.cfg.blk.toNat = 0 ∧ size / s.cfg.blk.toNat ≤ 0xFFFF) ∧
        (size ≠ 0 → ¬multi → size ≤ s.cfg.blk.toNat) ∧
        (size ≠ 0 → ∃ n, s.dbuf = some n ∧ size ≤ n)))

/-- Rule R184: the inhibit mask, by opcode and class alone, and that the poll waits for exactly its bits. -/
def Obligations.InhibitMask : Prop :=
  (∀ (s : State) (cs : List Pos), s.seq = .running (.send .sc_1) cs →
    ∃ mask, exec .send s = .next { s with seq := .running (.send (.sc_2 mask .start)) cs } ∧
      mask = (if s.desc.opcode = s.cfg.opStop ∧ s.desc.rclass ≠ .busy then s.cfg.hl.psCmdInhibit
              else s.cfg.hl.psCmdInhibit ||| s.cfg.hl.psDatInhibit)) ∧
  ∀ (s : State) (mask : Word) (cs : List Pos), s.seq = .running (.send (.sc_2 mask .p1)) cs →
    exec .send s = .next { s with
      seq := .running (.send (if s.peek .pstate &&& mask = 0 then .sc_3 else .sc_2 mask .p2)) cs
      env := s.env.next
      hist := s.readOf .pstate (s.peek .pstate) :: s.hist }

/-- Rules R186, R187, R52: from SC_3 to the outcome poll: the clear, the block word only with data, the argument
unchanged, the command word last, and no read. -/
def Obligations.SendProgramming : Prop :=
  ∀ (s : State) (cs : List Pos), s.seq = .running (.send .sc_3) cs →
    Completes .send 3 s
      { s with
        seq := .running (.send (.sc_7 .start)) cs
        hist :=
          (s.writeOf .intsts s.cfg.intAll ::
            ((if s.desc.bufsize ≠ 0 then [s.writeOf .blkszcnt (s.cfg.blkszcntWord s.desc)] else []) ++
              [s.writeOf .arg s.desc.arg, s.writeOf .cmd (s.cfg.commandWord s.desc s.ctx.hostcaps)])).reverse ++ s.hist }

/-- Rule R185: the inhibit poll: the first read with all masked bits 0 leads on to SC_3; after `NPOLL(T_INHIBIT)` failed
reads SEND ends with `Timeout`; nothing written in either case. -/
def Obligations.SendInhibitPoll : Prop :=
  ∀ (s : State) (bad rest : List Word), s.ready → s.cfg.valid = true → s.desc.preconditions s.cfg s.dbuf = true →
    s.desc.invalid = false → (∀ v ∈ bad, v &&& s.cfg.inhibitMask s.desc ≠ 0) →
    (∀ good, s.env.script = bad ++ good :: rest → good &&& s.cfg.inhibitMask s.desc = 0 →
      bad.length < s.cfg.npoll s.cfg.tInhibit →
      Completes .send (2 * bad.length + 3) s
        { s with
          seq := .running (.send .sc_3) []
          started := true
          inbox := s.inbox.tail
          elapsed := bad.length * s.cfg.tStep
          env := { script := rest, draws := s.env.draws + (bad.length + 1) }
          hist := (s.pollsOf .pstate bad ++ [s.readOf .pstate good]).reverse ++ s.hist }) ∧
    (s.env.script = bad ++ rest → bad.length = s.cfg.npoll s.cfg.tInhibit →
      Completes .send (2 * bad.length + 2) s
        { s.ended .timeout bad.length (s.pollsOf .pstate bad) with elapsed := bad.length * s.cfg.tStep })

/-- Rules R180, R184 to R187, R189, R190, R194, R195: SEND up to its outcome poll and what follows: without data, a command
that completes with a short or busy response gives the whole trace, the one response word and `Success`; with or without
data, an outcome poll whose `NPOLL(T_CMD)` reads are all 0 ends with `Timeout`, nothing reset, captured or acknowledged. -/
def Obligations.SendShortCompletes : Prop :=
  ∀ (s : State) (bad : List Word) (free : Word) (rest : List Word), s.ready → s.cfg.valid = true →
    s.desc.preconditions s.cfg s.dbuf = true → s.desc.invalid = false →
    (∀ w ∈ bad, w &&& s.cfg.inhibitMask s.desc ≠ 0) → free &&& s.cfg.inhibitMask s.desc = 0 →
    bad.length < s.cfg.npoll s.cfg.tInhibit →
    let issued := s.pollsOf .pstate bad ++ [s.readOf .pstate free, s.writeOf .intsts s.cfg.intAll] ++
      (if s.desc.bufsize ≠ 0 then [s.writeOf .blkszcnt (s.cfg.blkszcntWord s.desc)] else []) ++
      [s.writeOf .arg s.desc.arg, s.writeOf .cmd (s.cfg.commandWord s.desc s.ctx.hostcaps)]
    (∀ (v r : Word) (k : Nat), s.desc.bufsize = 0 → (s.desc.rclass = .short ∨ s.desc.rclass = .busy) →
      s.env.script = bad ++ free :: (List.replicate k 0 ++ v :: r :: rest) → k < s.cfg.npoll s.cfg.tCmd →
      v &&& s.cfg.sl.isCmdTimeout = 0 → v &&& s.cfg.sl.isError = 0 → v &&& s.cfg.sl.isCmdComplete ≠ 0 →
        Completes .send (2 * bad.length + 2 * k + 14) s
          { s.ended .success (bad.length + k + 3)
              (issued ++ s.pollsOf .intsts (List.replicate k 0) ++ [s.readOf .intsts v, s.readOf .rsp0 r]) with
            elapsed := k * s.cfg.tStep
            desc := { s.desc with resp := #v[r, s.desc.resp[1], s.desc.resp[2], s.desc.resp[3]] } }) ∧
    (s.env.script = bad ++ free :: (List.replicate (s.cfg.npoll s.cfg.tCmd) 0 ++ rest) →
      Completes .send (2 * bad.length + 2 * s.cfg.npoll s.cfg.tCmd + 8) s
        { s.ended .timeout (bad.length + s.cfg.npoll s.cfg.tCmd + 1)
            (issued ++ s.pollsOf .intsts (List.replicate (s.cfg.npoll s.cfg.tCmd) 0)) with
          elapsed := s.cfg.npoll s.cfg.tCmd * s.cfg.tStep })

/-- Rules R194, R196, R197: the long capture: four reads in ascending order, stored most significant word first, as the
128-bit value itself or, with the quirk, that value shifted left by 8. -/
def Obligations.SendLongCapture : Prop :=
  ∀ (s : State) (v r0 r1 r2 r3 : Word) (rest : List Word) (cs : List Pos),
    s.seq = .running (.send (.sc_10 v)) cs → s.desc.rclass = .long → v &&& s.cfg.sl.isCmdComplete ≠ 0 →
    s.env.script = r0 :: r1 :: r2 :: r3 :: rest →
    ∃ t, Completes .send 3 s t ∧
      (t.desc.resp[0] ++ t.desc.resp[1] ++ t.desc.resp[2] ++ t.desc.resp[3] : BitVec 128) =
        (let r : BitVec 128 := r3 ++ r2 ++ r1 ++ r0
         if s.ctx.hostcaps &&& 0x80 ≠ 0 then r <<< 8 else r) ∧
      t = { s with
        seq := .running (.send .sc_11) cs
        desc := { s.desc with resp := t.desc.resp }
        env := { script := rest, draws := s.env.draws + 4 }
        hist := [s.readOf .rsp0 r0, s.readOf .rsp1 r1, s.readOf .rsp2 r2, s.readOf .rsp3 r3].reverse ++ s.hist }

/-- Rules R194, R195, R198: what SC_10 captures otherwise: one word for a short or busy response, nothing for class NONE
or without the completion bit. -/
def Obligations.SendShortCapture : Prop :=
  ∀ (s : State) (v : Word) (cs : List Pos), s.seq = .running (.send (.sc_10 v)) cs →
    (v &&& s.cfg.sl.isCmdComplete ≠ 0 → s.desc.rclass = .short ∨ s.desc.rclass = .busy →
      exec .send s = .next { s with
        seq := .running (.send .sc_11) cs
        desc := { s.desc with resp := #v[s.peek .rsp0, s.desc.resp[1], s.desc.resp[2], s.desc.resp[3]] }
        env := s.env.next
        hist := s.readOf .rsp0 (s.peek .rsp0) :: s.hist }) ∧
    (v &&& s.cfg.sl.isCmdComplete = 0 ∨ s.desc.rclass = .none →
      exec .send s = .next { s with seq := .running (.send .sc_11) cs })

/-- Rule R191: command-timeout bit, then generic error bit, then completion bit: the first that is set decides. The first
leads to the nested RESET and, when that has ended, to `Timeout`. -/
def Obligations.OutcomePriority : Prop :=
  ∀ (s : State) (v : Word), s.seq = .running (.send (.sc_8 v)) [] →
    (v &&& s.cfg.sl.isCmdTimeout ≠ 0 →
      exec .send s = .next { s with seq := .running (.reset 2 .rs_1) [.send .sc_8r] } ∧
      ∀ t : State, t.seq = .running (.send .sc_8r) [] →
        exec .send t = .next { t with seq := .idle, q := { t.q with status := 1 } }) ∧
    (v &&& s.cfg.sl.isCmdTimeout = 0 → v &&& s.cfg.sl.isError ≠ 0 →
      Completes .send 1 s { s with seq := .idle, q := { s.q with status := 2 } }) ∧
    (v &&& s.cfg.sl.isCmdTimeout = 0 → v &&& s.cfg.sl.isError = 0 →
      Completes .send 1 s { s with seq := .running (.send (.sc_10 v)) [] } ∧
      (v &&& s.cfg.sl.isCmdComplete = 0 →
        Completes .send 2 s { s with seq := .running (.send .sc_11) [] }))

/-- Rules R192, R175, R283: after a command-timeout bit SEND runs the whole nested RESET of the command line and then ends
with `Timeout`, in every environment: whether the nested RESET succeeded or not. -/
def Obligations.SendCommandTimeout : Prop :=
  ∀ (s : State) (v : Word), s.seq = .running (.send (.sc_8 v)) [] → s.cfg.valid = true →
    v &&& s.cfg.sl.isCmdTimeout ≠ 0 →
    ∃ n t w es, Completes .send n s t ∧
      t = { s with seq := .idle, q := { s.q with status := 1 }, elapsed := t.elapsed, env := t.env, hist := t.hist } ∧
      t.hist = es ++ [s.writeOf .clkctl (w ||| s.cfg.hl.ccRstCmd), s.readOf .clkctl w] ++ s.hist ∧ w = s.peek .clkctl ∧
      es.length ≤ 2 * s.cfg.npoll s.cfg.tReset + 1 ∧
      (∀ e ∈ es, (∃ x, e = s.readOf .clkctl x) ∨ e = .stall s.cfg.tStep ∨ e = s.writeOf .inten 0 ∨
        e = s.writeOf .inten s.cfg.intEnDefault)

/-- Rules R200, R281: SEND calls the data mover of the direction once, passes a failing status on unchanged and ends with
`Success` after its `Success`. -/
def Obligations.SendDataPhase : Prop :=
  ∀ s : State,
    (s.seq = .running (.send .sc_11) [] → s.desc.bufsize ≠ 0 →
      exec .send s = .next { s with
        seq := .running (.fifo s.desc.dir .ff_0) [.send (.sc_11r .success)] }) ∧
    (s.seq = .running (.send .sc_11) [] → s.desc.bufsize = 0 →
      Completes .send 1 s { s with seq := .idle, q := { s.q with status := 0 } }) ∧
    (s.seq = .running (.send (.sc_11r .success)) [] →
      Completes .send 1 s { s with seq := .idle, q := { s.q with status := 0 } }) ∧
    (∀ st, s.seq = .running (.send (.sc_11r st)) [] → st ≠ .success →
      exec .send s = .next { s with seq := .idle, q := { s.q with status := st.code } })

/-- Rule R331 for SEND without data: in every environment it ends, within the bound on its port events. -/
def Obligations.SendWithoutDataTerminates : Prop :=
  ∀ s : State, s.ready → s.cfg.valid = true → s.desc.preconditions s.cfg s.dbuf = true → s.desc.bufsize = 0 →
    ∃ n t, Completes .send n s t ∧ t.seq = .idle ∧ t.ctx = s.ctx ∧ t.buf = s.buf ∧
      t.hist.length ≤ s.hist.length +
        (2 * s.cfg.npoll s.cfg.tInhibit + 2 * s.cfg.npoll s.cfg.tCmd + 1 +
          max 4 (2 * s.cfg.npoll s.cfg.tReset + 3))

/-! ## The data mover (43_fifo.md) -/

/-- Rules R210, R212, R214 to R216, R221: an error-free FIFO_READ moves the words of every chunk to the buffer in ascending
order, each once, acknowledges each batch before its words and the trailing bits at the end, and hands `Success` to SEND;
the bytes past the transfer keep what they held. -/
def Obligations.FifoReadTransfers : Prop :=
  ∀ (s : State) (st₀ : Status) (chunks : List (Word × List Word)) (v : Word) (rest : List Word),
    s.seq = .running (.fifo .read .ff_0) [.send (.sc_11r st₀)] → s.cfg.valid = true → s.buf.wf = true →
    s.desc.bufsize ≠ 0 → s.desc.bufsize.toNat % 4 = 0 → Serves s.cfg .read s.desc.bufsize.toNat chunks →
    s.env.script = chunks.flatMap (fun c => c.1 :: c.2) ++ v :: rest →
    let words := chunks.flatMap (·.2)
    ∃ n t, Completes .fifoRead n s t ∧ words.length = s.desc.bufsize.toNat / 4 ∧
      (∀ (i : Nat) (h : i < words.length), t.buf.readWord i = words[i]) ∧
      (∀ a, s.desc.bufsize.toNat ≤ a → Memory.read a t.buf = Memory.read a s.buf) ∧
      t = { s with
        seq := .running (.send (.sc_11r .success)) []
        elapsed := 0
        buf := t.buf
        env := { script := rest, draws := s.env.draws + (words.length + chunks.length + 1) }
        hist :=
          (s.chunksOf .read 0 chunks ++ s.readOf .intsts v ::
            (if v &&& s.cfg.sl.isTrailing ≠ 0 then [s.writeOf .intsts (v &&& s.cfg.sl.isTrailing)] else [])).reverse ++
            s.hist }

/-- Rules R210, R213 to R216, R221: an error-free FIFO_WRITE gives the words of the buffer to the data port in ascending
order, each once, and leaves the buffer alone. -/
def Obligations.FifoWriteTransfers : Prop :=
  ∀ (s : State) (st₀ : Status) (chunks : List (Word × List Word)) (v : Word) (rest : List Word),
    s.seq = .running (.fifo .write .ff_0) [.send (.sc_11r st₀)] → s.cfg.valid = true →
    s.desc.bufsize ≠ 0 → s.desc.bufsize.toNat % 4 = 0 → Serves s.cfg .write s.desc.bufsize.toNat chunks →
    s.env.script = chunks.map (·.1) ++ v :: rest →
    let words := chunks.flatMap (·.2)
    (∀ (i : Nat) (h : i < words.length), words[i] = s.buf.readWord i) →
    words.length = s.desc.bufsize.toNat / 4 ∧
    ∃ n, Completes .fifoWrite n s
      { s with
        seq := .running (.send (.sc_11r .success)) []
        elapsed := 0
        env := { script := rest, draws := s.env.draws + (chunks.length + 1) }
        hist :=
          (s.chunksOf .write 0 chunks ++ s.readOf .intsts v ::
            (if v &&& s.cfg.sl.isTrailing ≠ 0 then [s.writeOf .intsts (v &&& s.cfg.sl.isTrailing)] else [])).reverse ++
            s.hist }

/-- Rules R217, R218, R220, R222: the tests of a chunk's status word `v`, in order: a data-error bit runs RESET of the data
line first, a generic error bit then ends the mover with `DeviceError`, a missing ready bit goes round without an access. -/
def Obligations.FifoClassifies : Prop :=
  ∀ (s : State) (d : Dir) (rem idx n v : Word) (cs : List Pos),
    let ready := match d with
      | .read => s.cfg.sl.isBufRdReady
      | .write => s.cfg.sl.isBufWrReady
    let mover := (Pos.fifo d .ff_0).op
    (s.seq = .running (.fifo d (.ff_3 rem idx n v)) cs → v &&& s.cfg.sl.isDataErr ≠ 0 →
      exec mover s = .next { s with seq := .running (.reset 4 .rs_1) (.fifo d (.ff_4 rem idx n v) :: cs) }) ∧
    (s.seq = .running (.fifo d (.ff_3 rem idx n v)) cs → v &&& s.cfg.sl.isDataErr = 0 →
      exec mover s = .next { s with seq := .running (.fifo d (.ff_4 rem idx n v)) cs }) ∧
    (∀ st₀, s.seq = .running (.fifo d (.ff_4 rem idx n v)) [.send (.sc_11r st₀)] → v &&& s.cfg.sl.isError ≠ 0 →
      exec mover s = .next { s with seq := .running (.send (.sc_11r .deviceError)) [] }) ∧
    (s.seq = .running (.fifo d (.ff_4 rem idx n v)) cs → v &&& s.cfg.sl.isError = 0 → v &&& ready = 0 →
      Completes mover 1 s { s with seq := .running (.fifo d (.ff_1 rem idx)) cs }) ∧
    (s.seq = .running (.fifo d (.ff_4 rem idx n v)) cs → v &&& s.cfg.sl.isError = 0 → v &&& ready ≠ 0 →
      Completes mover 2 s { s with
        seq := .running (.fifo d (.ff_6k rem idx n 0)) cs
        hist := s.writeOf .intsts v :: s.hist })

/-- Rule R219: a run of `NPOLL(T_DATA)` reads of 0 ends the mover with `Timeout` to SEND; the words moved before stay. -/
def Obligations.FifoPollTimeout : Prop :=
  ∀ (s : State) (d : Dir) (rem idx n : Word) (st₀ : Status) (rest : List Word),
    s.seq = .running (.fifo d (.ff_2 rem idx n .start)) [.send (.sc_11r st₀)] → s.cfg.valid = true →
    s.env.script = List.replicate (s.cfg.npoll s.cfg.tData) 0 ++ rest →
      Completes (Pos.fifo d .ff_0).op (2 * s.cfg.npoll s.cfg.tData) s
        { s with
          seq := .running (.send (.sc_11r .timeout)) []
          elapsed := s.cfg.npoll s.cfg.tData * s.cfg.tStep
          env := { script := rest, draws := s.env.draws + s.cfg.npoll s.cfg.tData }
          hist := (s.pollsOf .intsts (List.replicate (s.cfg.npoll s.cfg.tData) 0)).reverse ++ s.hist }

/-! ## Bus width (44_bus_width.md) -/

/-- Rule R230: GETBW makes one read and no write, leaves the decoded width in `Q.RESULT`, always ends with `Success`. -/
def Obligations.GetbwCompletes : Prop :=
  decodeHeader 0x03 = .ok .getbw ∧ ∀ s : State, s.ready →
    let v := s.peek .hostctl
    Completes .getbw 1 s
      { s.ended .success 1 [s.readOf .hostctl v] with
        q := { s.q with
          result := if v &&& s.cfg.hl.hcBw8 ≠ 0 then 8 else if v &&& s.cfg.hl.hcBw4 ≠ 0 then 4 else 1
          status := 0 } }

/-- Rule R232: SETBW of 1, 4 or 8 is one read and one write of `HOSTCTL`, its two width bits replaced; any other value ends
with `InvalidParameter` (code 3) and no access. -/
def Obligations.SetbwCompletes : Prop :=
  decodeHeader 0x0B = .ok .setbw ∧ ∀ s : State, s.ready →
    ((s.q.value = 1 ∨ s.q.value = 4 ∨ s.q.value = 8) →
      let v := s.peek .hostctl
      let enc := if s.q.value = 4 then s.cfg.hl.hcBw4 else if s.q.value = 8 then s.cfg.hl.hcBw8 else 0
      Completes .setbw 2 s
        (s.ended .success 1
          [s.readOf .hostctl v, s.writeOf .hostctl ((v &&& ~~~(s.cfg.hl.hcBw4 ||| s.cfg.hl.hcBw8)) ||| enc)])) ∧
    (¬(s.q.value = 1 ∨ s.q.value = 4 ∨ s.q.value = 8) → exec .setbw s = .next (s.ended .invalidParameter 0 []))

/-! ## Clock (45_clock.md) -/

/-- Rule R240: GETCLK makes no port access and always ends with `Unsupported` (code 4). -/
def Obligations.GetclkUnsupported : Prop :=
  decodeHeader 0x04 = .ok .getclk ∧ ∀ s : State, s.ready → exec .getclk s = .next (s.ended .unsupported 0 [])

/-- Rule R243: a requested speed of 0 or a base clock of 0 ends with `InvalidParameter` and no access; any other request is
searched for. -/
def Obligations.SetclkOperandCheck : Prop :=
  ∀ s : State, s.ready →
    ((s.q.value = 0 ∨ s.ctx.fundclk = 0) → exec .setclk s = .next (s.ended .invalidParameter 0 [])) ∧
    (s.q.value ≠ 0 → s.ctx.fundclk ≠ 0 →
      ∃ t, exec .setclk s = .next t ∧ t.seq = .running (.setclk .ck_1) [] ∧ t.hist = s.hist)

/-- Rules R245, R246, R250: before version 3 the divisor is a power of two up to the bound, it meets the speed or is the
bound, and no smaller power of two meets the speed. -/
def Obligations.DivisorBeforeV3 : Prop :=
  ∀ (p : Config.Params) (ver : BitVec 8) (fund s : Word), p.valid = true → ver < p.hostverV3 →
    let d := (divisor p ver fund s).toNat
    (∃ k, d = 2 ^ k) ∧ 1 ≤ d ∧ d ≤ p.maxdivPre3.toNat ∧
    (fund.toNat / d ≤ s.toNat ∨ d = p.maxdivPre3.toNat) ∧
    ∀ j, 2 ^ j < d → s.toNat < fund.toNat / 2 ^ j

/-- Rules R245, R246, R250: from version 3 on the divisor is 1 exactly when the base clock meets the speed undivided;
otherwise it is even, up to the bound, it meets the speed or is the bound, and no smaller even number meets it. -/
def Obligations.DivisorFromV3 : Prop :=
  ∀ (p : Config.Params) (ver : BitVec 8) (fund s : Word), p.valid = true → p.hostverV3 ≤ ver →
    let d := (divisor p ver fund s).toNat
    (fund ≤ s → d = 1) ∧
    (s < fund → d % 2 = 0 ∧ 2 ≤ d ∧ d ≤ p.maxdivV3.toNat ∧
      (fund.toNat / d ≤ s.toNat ∨ d = p.maxdivV3.toNat) ∧
      ∀ e, e % 2 = 0 → 2 ≤ e → e < d → s.toNat < fund.toNat / e)

/-- Rules R242, R247 to R249: the divisor word of SETCLK and its poll: where the clock is stable within `NPOLL(T_CLOCK)`
reads, the same word with the output clock on and `Success`; after that many failed reads `Timeout`, nothing more written. -/
def Obligations.SetclkCompletes : Prop :=
  ∀ (s : State) (bad rest : List Word), s.ready → s.cfg.valid = true → s.q.value ≠ 0 → s.ctx.fundclk ≠ 0 →
    (∀ v ∈ bad, v &&& s.cfg.hl.ccStable = 0) →
    let clk := s.cfg.clockWord (divisor s.cfg s.ctx.hostver s.ctx.fundclk s.q.value)
    (∀ good, s.env.script = bad ++ good :: rest → good &&& s.cfg.hl.ccStable ≠ 0 →
      bad.length < s.cfg.npoll s.cfg.tClock →
      Completes .setclk (2 * bad.length + 6) s
        { s.ended .success (bad.length + 1)
            ([s.writeOf .clkctl clk] ++ s.pollsOf .clkctl bad ++
             [s.readOf .clkctl good, s.writeOf .clkctl (clk ||| s.cfg.hl.ccSdce)]) with
          elapsed := bad.length * s.cfg.tStep }) ∧
    (s.env.script = bad ++ rest → bad.length = s.cfg.npoll s.cfg.tClock →
      Completes .setclk (2 * bad.length + 4) s
        { s.ended .timeout bad.length ([s.writeOf .clkctl clk] ++ s.pollsOf .clkctl bad) with
          elapsed := bad.length * s.cfg.tStep })

end
end

