-- ==== Sys2Proof/Laws/Memory.lean ====
section
/-! SUPPORT. The data buffer: a byte reads as it was last written, a write leaves every other byte alone, and every
operation keeps the canonical form (rules R83, R86). -/

namespace Sys2Proof.Machine

/-- The head of a canonical buffer: a listed byte below every other address, and a canonical rest. -/
theorem Memory.wf_cons {a : Nat} {b : Byte} {m : Memory} :
    Memory.wf ((a, b) :: m) = true ↔ b ≠ Memory.unlisted ∧ (∀ c ∈ m, a < c.1) ∧ Memory.wf m = true := by
  simp [Memory.wf, and_assoc]

/-- An address below every listed one reads as an unlisted byte. -/
theorem Memory.read_below {a : Nat} {m : Memory} (h : ∀ c ∈ m, a < c.1) : Memory.read a m = Memory.unlisted := by
  induction m with
  | nil => rfl
  | cons c m ih =>
    have hc := h c (by simp)
    rw [Memory.read, if_neg (by omega)]
    exact ih fun c' hc' => h c' (by simp [hc'])

/-- A write lists no address but its own and those listed before. -/
theorem Memory.mem_write {a : Nat} {b : Byte} {m : Memory} {c : Host.Cell} (h : c ∈ Memory.write a b m) :
    c.1 = a ∨ c ∈ m := by
  induction m with
  | nil => simp only [Memory.write] at h; split at h <;> simp_all
  | cons d m ih =>
    obtain ⟨a', b'⟩ := d
    simp only [Memory.write] at h
    split_ifs at h with h1 h2 h3 h4
    · exact .inr h
    · rcases List.mem_cons.1 h with rfl | h'
      · exact .inl rfl
      · exact .inr h'
    · exact .inr (List.mem_cons_of_mem _ h)
    · rcases List.mem_cons.1 h with rfl | h'
      · exact .inl rfl
      · exact .inr (List.mem_cons_of_mem _ h')
    · rcases List.mem_cons.1 h with rfl | h'
      · exact .inr (by simp)
      · rcases ih h' with h'' | h''
        · exact .inl h''
        · exact .inr (List.mem_cons_of_mem _ h'')

/-- A write keeps the canonical form. -/
theorem Memory.wf_write {a : Nat} {b : Byte} {m : Memory} (h : Memory.wf m = true) :
    Memory.wf (Memory.write a b m) = true := by
  induction m with
  | nil => simp only [Memory.write]; split <;> simp_all [Memory.wf]
  | cons d m ih =>
    obtain ⟨a', b'⟩ := d
    obtain ⟨hb, hlt, hm⟩ := Memory.wf_cons.1 h
    simp only [Memory.write]
    split_ifs with h1 h2 h3 h4
    · exact h
    · refine Memory.wf_cons.2 ⟨h2, fun c hc => ?_, h⟩
      rcases List.mem_cons.1 hc with rfl | hc'
      · exact h1
      · exact h1.trans (hlt c hc')
    · exact hm
    · exact Memory.wf_cons.2 ⟨h4, fun c hc => h3 ▸ hlt c hc, hm⟩
    · refine Memory.wf_cons.2 ⟨hb, fun c hc => ?_, ih hm⟩
      rcases Memory.mem_write hc with h5 | h5
      · omega
      · exact hlt c h5

/-- A byte reads as it was last written, and a write leaves every other byte alone. -/
theorem Memory.read_write {a a' : Nat} {b : Byte} {m : Memory} (h : Memory.wf m = true) :
    Memory.read a' (Memory.write a b m) = if a' = a then b else Memory.read a' m := by
  induction m with
  | nil =>
    simp only [Memory.write]
    split_ifs with h1 h2 <;> simp_all [Memory.read]
  | cons d m ih =>
    obtain ⟨x, y⟩ := d
    obtain ⟨hy, hlt, hm⟩ := Memory.wf_cons.1 h
    have hbelow : ∀ z, z ≤ x → Memory.read z m = Memory.unlisted :=
      fun z hz => Memory.read_below fun c hc => Nat.lt_of_le_of_lt hz (hlt c hc)
    simp only [Memory.write]
    split_ifs with h1 h2 h3 h4 h5 h6 h7 h8
    · subst h3; rw [h2, Memory.read, if_neg (by omega), hbelow _ (by omega)]
    · rfl
    · simp [Memory.read, h4]
    · rw [Memory.read, if_neg h4]
    · subst h5; rw [h7, h6, hbelow _ (Nat.le_refl _)]
    · rw [Memory.read, if_neg (by omega)]
    · simp [Memory.read, h8]
    · rw [Memory.read, if_neg h8, Memory.read, if_neg (by omega)]
    all_goals (rw [Memory.read, ih hm]; simp_all [Memory.read])

/-- What a word write leaves in each byte (rule R86). -/
theorem Memory.read_writeWord {i a : Nat} {v : Word} {m : Memory} (h : Memory.wf m = true) :
    Memory.read a (Memory.writeWord i v m) =
      if a = 4 * i then v.extractLsb' 0 8 else if a = 4 * i + 1 then v.extractLsb' 8 8
      else if a = 4 * i + 2 then v.extractLsb' 16 8 else if a = 4 * i + 3 then v.extractLsb' 24 8
      else Memory.read a m := by
  unfold Memory.writeWord
  rw [Memory.read_write (Memory.wf_write (Memory.wf_write (Memory.wf_write h))),
    Memory.read_write (Memory.wf_write (Memory.wf_write h)), Memory.read_write (Memory.wf_write h), Memory.read_write h]
  split_ifs <;> first | rfl | omega

/-- A word write keeps the canonical form. -/
theorem Memory.wf_writeWord {i : Nat} {v : Word} {m : Memory} (h : Memory.wf m = true) :
    Memory.wf (Memory.writeWord i v m) = true :=
  Memory.wf_write (Memory.wf_write (Memory.wf_write (Memory.wf_write h)))

/-- A word is its four bytes (rule R86). -/
theorem word_of_bytes (v : Word) :
    v.extractLsb' 24 8 ++ v.extractLsb' 16 8 ++ v.extractLsb' 8 8 ++ v.extractLsb' 0 8 = v := by
  refine BitVec.eq_of_getLsbD_eq fun j hj => ?_
  simp only [BitVec.getLsbD_append, BitVec.getLsbD_extractLsb']
  interval_cases j <;> rfl

/-- A word reads as it was last written (rule R86). -/
theorem Memory.readWord_writeWord {i : Nat} {v : Word} {m : Memory} (h : Memory.wf m = true) :
    Memory.readWord i (Memory.writeWord i v m) = v := by
  unfold Memory.readWord
  simp only [Memory.read_writeWord h, if_true]
  simp only [show ¬ 4 * i + 3 = 4 * i by omega, show ¬ 4 * i + 3 = 4 * i + 1 by omega,
    show ¬ 4 * i + 3 = 4 * i + 2 by omega, show ¬ 4 * i + 2 = 4 * i by omega, show ¬ 4 * i + 2 = 4 * i + 1 by omega,
    show ¬ 4 * i + 1 = 4 * i by omega, if_false]
  exact word_of_bytes v

/-- A word write leaves every other word alone. -/
theorem Memory.readWord_writeWord_ne {i j : Nat} {v : Word} {m : Memory} (h : Memory.wf m = true) (hij : j ≠ i) :
    Memory.readWord j (Memory.writeWord i v m) = Memory.readWord j m := by
  unfold Memory.readWord
  simp only [Memory.read_writeWord h]
  simp only [show ∀ p q, p < 4 → q < 4 → (4 * j + p = 4 * i + q) = False from
    fun p q hp hq => by simp; omega, show ∀ p, p < 4 → (4 * j + p = 4 * i) = False from
    fun p hp => by simp; omega, show ∀ q, q < 4 → (4 * j = 4 * i + q) = False from
    fun q hq => by simp; omega, show (4 * j = 4 * i) = False by simp; omega, Nat.reduceLT, if_false]

/-- Every address of a buffer made of bytes is at least where it starts. -/
theorem Memory.mem_ofBytes {a : Nat} {bs : List Byte} {c : Host.Cell} (h : c ∈ Memory.ofBytes a bs) : a ≤ c.1 := by
  induction bs generalizing a with
  | nil => simp [Memory.ofBytes] at h
  | cons b bs ih =>
    rw [Memory.ofBytes] at h
    split_ifs at h
    · have := ih h; omega
    · rcases List.mem_cons.1 h with rfl | h'
      · exact Nat.le_refl _
      · have := ih h'; omega

/-- A buffer made of bytes is canonical. -/
theorem Memory.wf_ofBytes (a : Nat) (bs : List Byte) : Memory.wf (Memory.ofBytes a bs) = true := by
  induction bs generalizing a with
  | nil => rfl
  | cons b bs ih =>
    rw [Memory.ofBytes]
    split_ifs with h
    · exact ih _
    · exact Memory.wf_cons.2 ⟨h, fun c hc => Memory.mem_ofBytes hc, ih _⟩

/-- The buffer made of bytes holds them from offset `a` up. -/
theorem Memory.read_ofBytes (a : Nat) (bs : List Byte) (i : Nat) :
    Memory.read (a + i) (Memory.ofBytes a bs) = (bs[i]?).getD Memory.unlisted := by
  induction bs generalizing a i with
  | nil => simp [Memory.ofBytes, Memory.read]
  | cons b bs ih =>
    rw [Memory.ofBytes]
    cases i with
    | zero =>
      split_ifs with h
      · rw [Memory.read_below fun c hc => by have := Memory.mem_ofBytes hc; omega]; simp [h]
      · simp [Memory.read]
    | succ i =>
      have hi : a + (i + 1) = a + 1 + i := by omega
      split_ifs with h
      · rw [hi, ih]; simp
      · rw [Memory.read, if_neg (by omega), hi, ih]; simp

end Sys2Proof.Machine
end

