-- ==== Sys2Proof/Laws/State.lean ====
section
/-! SUPPORT. What each named update of the state leaves in each field: one lemma per field per update, true by
definition, so that no proof unfolds an update. -/

namespace Sys2Proof.Machine

variable (s : State)

/-! ## `State.goto` -/

@[simp] theorem State.goto_cfg (pos : Pos) : (s.goto pos).cfg = s.cfg := rfl
@[simp] theorem State.goto_ctx (pos : Pos) : (s.goto pos).ctx = s.ctx := rfl
@[simp] theorem State.goto_desc (pos : Pos) : (s.goto pos).desc = s.desc := rfl
@[simp] theorem State.goto_dbuf (pos : Pos) : (s.goto pos).dbuf = s.dbuf := rfl
@[simp] theorem State.goto_q (pos : Pos) : (s.goto pos).q = s.q := rfl
@[simp] theorem State.goto_seq (pos : Pos) : (s.goto pos).seq = .running pos s.seq.callers := rfl
@[simp] theorem State.goto_elapsed (pos : Pos) : (s.goto pos).elapsed = s.elapsed := rfl
@[simp] theorem State.goto_buf (pos : Pos) : (s.goto pos).buf = s.buf := rfl
@[simp] theorem State.goto_configured (pos : Pos) : (s.goto pos).configured = s.configured := rfl
@[simp] theorem State.goto_started (pos : Pos) : (s.goto pos).started = s.started := rfl
@[simp] theorem State.goto_inbox (pos : Pos) : (s.goto pos).inbox = s.inbox := rfl
@[simp] theorem State.goto_env (pos : Pos) : (s.goto pos).env = s.env := rfl
@[simp] theorem State.goto_hist (pos : Pos) : (s.goto pos).hist = s.hist := rfl

/-! ## `State.call` -/

@[simp] theorem State.call_cfg (callee ret : Pos) : (s.call callee ret).cfg = s.cfg := rfl
@[simp] theorem State.call_ctx (callee ret : Pos) : (s.call callee ret).ctx = s.ctx := rfl
@[simp] theorem State.call_desc (callee ret : Pos) : (s.call callee ret).desc = s.desc := rfl
@[simp] theorem State.call_dbuf (callee ret : Pos) : (s.call callee ret).dbuf = s.dbuf := rfl
@[simp] theorem State.call_q (callee ret : Pos) : (s.call callee ret).q = s.q := rfl
@[simp] theorem State.call_seq (callee ret : Pos) : (s.call callee ret).seq = .running callee (ret :: s.seq.callers) := rfl
@[simp] theorem State.call_elapsed (callee ret : Pos) : (s.call callee ret).elapsed = s.elapsed := rfl
@[simp] theorem State.call_buf (callee ret : Pos) : (s.call callee ret).buf = s.buf := rfl
@[simp] theorem State.call_configured (callee ret : Pos) : (s.call callee ret).configured = s.configured := rfl
@[simp] theorem State.call_started (callee ret : Pos) : (s.call callee ret).started = s.started := rfl
@[simp] theorem State.call_inbox (callee ret : Pos) : (s.call callee ret).inbox = s.inbox := rfl
@[simp] theorem State.call_env (callee ret : Pos) : (s.call callee ret).env = s.env := rfl
@[simp] theorem State.call_hist (callee ret : Pos) : (s.call callee ret).hist = s.hist := rfl

/-! ## `State.regWrite` -/

@[simp] theorem State.regWrite_cfg (r : Reg) (v : Word) : (s.regWrite r v).cfg = s.cfg := rfl
@[simp] theorem State.regWrite_ctx (r : Reg) (v : Word) : (s.regWrite r v).ctx = s.ctx := rfl
@[simp] theorem State.regWrite_desc (r : Reg) (v : Word) : (s.regWrite r v).desc = s.desc := rfl
@[simp] theorem State.regWrite_dbuf (r : Reg) (v : Word) : (s.regWrite r v).dbuf = s.dbuf := rfl
@[simp] theorem State.regWrite_q (r : Reg) (v : Word) : (s.regWrite r v).q = s.q := rfl
@[simp] theorem State.regWrite_seq (r : Reg) (v : Word) : (s.regWrite r v).seq = s.seq := rfl
@[simp] theorem State.regWrite_elapsed (r : Reg) (v : Word) : (s.regWrite r v).elapsed = s.elapsed := rfl
@[simp] theorem State.regWrite_buf (r : Reg) (v : Word) : (s.regWrite r v).buf = s.buf := rfl
@[simp] theorem State.regWrite_configured (r : Reg) (v : Word) : (s.regWrite r v).configured = s.configured := rfl
@[simp] theorem State.regWrite_started (r : Reg) (v : Word) : (s.regWrite r v).started = s.started := rfl
@[simp] theorem State.regWrite_inbox (r : Reg) (v : Word) : (s.regWrite r v).inbox = s.inbox := rfl
@[simp] theorem State.regWrite_env (r : Reg) (v : Word) : (s.regWrite r v).env = s.env := rfl
@[simp] theorem State.regWrite_hist (r : Reg) (v : Word) : (s.regWrite r v).hist = .regWrite r (s.regAddr r) v :: s.hist := rfl

/-! ## `State.afterRead` -/

@[simp] theorem State.afterRead_cfg (r : Reg) : (s.afterRead r).cfg = s.cfg := rfl
@[simp] theorem State.afterRead_ctx (r : Reg) : (s.afterRead r).ctx = s.ctx := rfl
@[simp] theorem State.afterRead_desc (r : Reg) : (s.afterRead r).desc = s.desc := rfl
@[simp] theorem State.afterRead_dbuf (r : Reg) : (s.afterRead r).dbuf = s.dbuf := rfl
@[simp] theorem State.afterRead_q (r : Reg) : (s.afterRead r).q = s.q := rfl
@[simp] theorem State.afterRead_seq (r : Reg) : (s.afterRead r).seq = s.seq := rfl
@[simp] theorem State.afterRead_elapsed (r : Reg) : (s.afterRead r).elapsed = s.elapsed := rfl
@[simp] theorem State.afterRead_buf (r : Reg) : (s.afterRead r).buf = s.buf := rfl
@[simp] theorem State.afterRead_configured (r : Reg) : (s.afterRead r).configured = s.configured := rfl
@[simp] theorem State.afterRead_started (r : Reg) : (s.afterRead r).started = s.started := rfl
@[simp] theorem State.afterRead_inbox (r : Reg) : (s.afterRead r).inbox = s.inbox := rfl
@[simp] theorem State.afterRead_env (r : Reg) : (s.afterRead r).env = s.env.next := rfl
@[simp] theorem State.afterRead_hist (r : Reg) : (s.afterRead r).hist = .regRead r (s.regAddr r) (s.peek r) :: s.hist := rfl

/-! ## `State.stall` -/

@[simp] theorem State.stall_cfg : (s.stall).cfg = s.cfg := rfl
@[simp] theorem State.stall_ctx : (s.stall).ctx = s.ctx := rfl
@[simp] theorem State.stall_desc : (s.stall).desc = s.desc := rfl
@[simp] theorem State.stall_dbuf : (s.stall).dbuf = s.dbuf := rfl
@[simp] theorem State.stall_q : (s.stall).q = s.q := rfl
@[simp] theorem State.stall_seq : (s.stall).seq = s.seq := rfl
@[simp] theorem State.stall_elapsed : (s.stall).elapsed = s.elapsed := rfl
@[simp] theorem State.stall_buf : (s.stall).buf = s.buf := rfl
@[simp] theorem State.stall_configured : (s.stall).configured = s.configured := rfl
@[simp] theorem State.stall_started : (s.stall).started = s.started := rfl
@[simp] theorem State.stall_inbox : (s.stall).inbox = s.inbox := rfl
@[simp] theorem State.stall_env : (s.stall).env = s.env := rfl
@[simp] theorem State.stall_hist : (s.stall).hist = .stall s.cfg.tStep :: s.hist := rfl

/-! ## `State.tick` -/

@[simp] theorem State.tick_cfg : (s.tick).cfg = s.cfg := rfl
@[simp] theorem State.tick_ctx : (s.tick).ctx = s.ctx := rfl
@[simp] theorem State.tick_desc : (s.tick).desc = s.desc := rfl
@[simp] theorem State.tick_dbuf : (s.tick).dbuf = s.dbuf := rfl
@[simp] theorem State.tick_q : (s.tick).q = s.q := rfl
@[simp] theorem State.tick_seq : (s.tick).seq = s.seq := rfl
@[simp] theorem State.tick_elapsed : (s.tick).elapsed = (s.elapsed + s.cfg.tStep) % 2 ^ s.cfg.elapsedW := rfl
@[simp] theorem State.tick_buf : (s.tick).buf = s.buf := rfl
@[simp] theorem State.tick_configured : (s.tick).configured = s.configured := rfl
@[simp] theorem State.tick_started : (s.tick).started = s.started := rfl
@[simp] theorem State.tick_inbox : (s.tick).inbox = s.inbox := rfl
@[simp] theorem State.tick_env : (s.tick).env = s.env := rfl
@[simp] theorem State.tick_hist : (s.tick).hist = s.hist := rfl

/-! ## `State.finish` -/

@[simp] theorem State.finish_cfg (st : Status) : (s.finish st).cfg = s.cfg := rfl
@[simp] theorem State.finish_ctx (st : Status) : (s.finish st).ctx = s.ctx := rfl
@[simp] theorem State.finish_desc (st : Status) : (s.finish st).desc = s.desc := rfl
@[simp] theorem State.finish_dbuf (st : Status) : (s.finish st).dbuf = s.dbuf := rfl
@[simp] theorem State.finish_elapsed (st : Status) : (s.finish st).elapsed = s.elapsed := rfl
@[simp] theorem State.finish_buf (st : Status) : (s.finish st).buf = s.buf := rfl
@[simp] theorem State.finish_configured (st : Status) : (s.finish st).configured = s.configured := rfl
@[simp] theorem State.finish_started (st : Status) : (s.finish st).started = s.started := rfl
@[simp] theorem State.finish_inbox (st : Status) : (s.finish st).inbox = s.inbox := rfl
@[simp] theorem State.finish_env (st : Status) : (s.finish st).env = s.env := rfl
@[simp] theorem State.finish_hist (st : Status) : (s.finish st).hist = s.hist := rfl

/-! ## `State.accept` -/

@[simp] theorem State.accept_cfg (i : Instr) : (s.accept i).cfg = s.cfg := rfl
@[simp] theorem State.accept_ctx (i : Instr) : (s.accept i).ctx = s.ctx := rfl
@[simp] theorem State.accept_desc (i : Instr) : (s.accept i).desc = s.desc := rfl
@[simp] theorem State.accept_dbuf (i : Instr) : (s.accept i).dbuf = s.dbuf := rfl
@[simp] theorem State.accept_seq (i : Instr) : (s.accept i).seq = .running i.start [] := rfl
@[simp] theorem State.accept_elapsed (i : Instr) : (s.accept i).elapsed = s.elapsed := rfl
@[simp] theorem State.accept_buf (i : Instr) : (s.accept i).buf = s.buf := rfl
@[simp] theorem State.accept_configured (i : Instr) : (s.accept i).configured = s.configured := rfl
@[simp] theorem State.accept_started (i : Instr) : (s.accept i).started = true := rfl
@[simp] theorem State.accept_inbox (i : Instr) : (s.accept i).inbox = s.inbox.tail := rfl
@[simp] theorem State.accept_env (i : Instr) : (s.accept i).env = s.env := rfl
@[simp] theorem State.accept_hist (i : Instr) : (s.accept i).hist = s.hist := rfl

/-! ## Endings (rules R280, R281) -/

/-- Nothing but the sequencer and `Q.STATUS` is touched by an ending; the other `Q` registers stay. -/
@[simp] theorem State.finish_flags (st : Status) : (s.finish st).q.flags = s.q.flags := by
  unfold State.finish; cases s.seq.callers <;> rfl

@[simp] theorem State.finish_value (st : Status) : (s.finish st).q.value = s.q.value := by
  unfold State.finish; cases s.seq.callers <;> rfl

@[simp] theorem State.finish_result (st : Status) : (s.finish st).q.result = s.q.result := by
  unfold State.finish; cases s.seq.callers <;> rfl

/-- At the outermost level an ending leaves SDHB `IDLE` with the status delivered (rule R280). -/
theorem State.finish_outermost (st : Status) (h : s.seq.callers = []) :
    s.finish st = { s with seq := .idle, q := { s.q with status := st.code } } := by
  simp [State.finish, h]

/-- Inside a sub-operation an ending hands the status to the caller (rule R281). -/
theorem State.finish_nested (st : Status) (c : Pos) (cs : List Pos) (h : s.seq.callers = c :: cs) :
    s.finish st = { s with seq := .running (c.resume st) cs } := by
  simp [State.finish, h]

@[simp] theorem State.accept_value (i : Instr) : (s.accept i).q.value = s.q.value := by
  cases i <;> rfl

@[simp] theorem State.accept_result (i : Instr) : (s.accept i).q.result = s.q.result := by
  cases i <;> rfl

@[simp] theorem State.accept_status (i : Instr) : (s.accept i).q.status = s.q.status := by
  cases i <;> rfl

@[simp] theorem Seq.callers_idle : Seq.callers .idle = [] := rfl
@[simp] theorem Seq.callers_running (p : Pos) (cs : List Pos) : Seq.callers (.running p cs) = cs := rfl

/-! ## What a read returns depends on the environment and the base only -/

@[simp] theorem State.regAddr_goto (pos : Pos) (r : Reg) : (s.goto pos).regAddr r = s.regAddr r := rfl
@[simp] theorem State.regAddr_afterRead (r' r : Reg) : (s.afterRead r').regAddr r = s.regAddr r := rfl
@[simp] theorem State.regAddr_regWrite (r' r : Reg) (v : Word) : (s.regWrite r' v).regAddr r = s.regAddr r := rfl
@[simp] theorem State.regAddr_stall (r : Reg) : s.stall.regAddr r = s.regAddr r := rfl
@[simp] theorem State.regAddr_tick (r : Reg) : s.tick.regAddr r = s.regAddr r := rfl
@[simp] theorem State.peek_goto (pos : Pos) (r : Reg) : (s.goto pos).peek r = s.peek r := rfl

@[simp] theorem Env.answer_cons (v : Word) (vs : List Word) (n a : Nat) :
    Env.answer { script := v :: vs, draws := n } a = v := rfl

@[simp] theorem Env.next_script (e : Env) : e.next.script = e.script.tail := rfl
@[simp] theorem Env.next_draws (e : Env) : e.next.draws = e.draws + 1 := rfl

end Sys2Proof.Machine
end

