-- ==== Sys2Proof/Laws/Ops.lean ====
section
/-! SUPPORT. What each shared operation can do, said once: the port accesses, the poll helper, the beginning of an
operation, the two accesses of a data word, and which label a meaning runs. -/

namespace Sys2Proof.Machine

variable {s t : State}

@[simp] theorem regRead_eq (r : Reg) (s : State) (k : Word → State → Out) :
    regRead r s k = k (s.peek r) (s.afterRead r) := rfl

/-- A buffer read that goes on was inside the BUF space (rule R83). -/
theorem bufRead_next {i : Nat} {k : Word → State → Out} (h : bufRead i s k = .next t) :
    s.bufIndexOk i = true ∧
      k (s.buf.readWord i) { s with hist := .bufRead i (s.buf.readWord i) :: s.hist } = .next t := by
  unfold bufRead at h
  split at h
  · exact ⟨‹_›, h⟩
  · cases h

/-- A buffer write that goes on was inside the BUF space (rule R83). -/
theorem bufWrite_next {i : Nat} {v : Word} {k : State → Out} (h : bufWrite i v s k = .next t) :
    s.bufIndexOk i = true ∧
      k { s with buf := s.buf.writeWord i v, hist := .bufWrite i v :: s.hist } = .next t := by
  unfold bufWrite at h
  split at h
  · exact ⟨‹_›, h⟩
  · cases h

/-- An operation that begins was accepted after the configuration load (rule R302). -/
theorem begin_next {i : Instr} {first : State → Out} (h : begin i s first = .next t) :
    s.configured = true ∧ first (s.accept i) = .next t := by
  unfold begin at h
  split at h
  · exact ⟨‹_›, h⟩
  · cases h

/-- After the configuration load a request is accepted and its first label runs. -/
theorem begin_configured {i : Instr} {first : State → Out} (h : s.configured = true) :
    begin i s first = first (s.accept i) := by simp [begin, h]

section poll
variable {r : Reg} {pred : Word → Bool} {T : Nat} {here : PollPos → Pos} {done : Word → Pos}

/-- The start of a poll: `ELAPSED <- 0` (rule R13). -/
theorem pollUntil_start :
    pollUntil r pred T here done .start s = .next (State.goto (here .p1) { s with elapsed := 0 }) := rfl

/-- P1: one read, then on or to P2 (rule R13). -/
theorem pollUntil_p1 :
    pollUntil r pred T here done .p1 s =
      .next ((s.afterRead r).goto (if pred (s.peek r) then done (s.peek r) else here .p2)) := rfl

/-- P2: one stall, then another read or the end with `Timeout` (rule R13). -/
theorem pollUntil_p2 :
    pollUntil r pred T here done .p2 s =
      .next (if s.stall.tick.elapsed ≤ T then s.stall.tick.goto (here .p1) else s.stall.tick.finish .timeout) := rfl

/-- A poll never stops the machine, and this is all it can do. -/
theorem pollUntil_next {p : PollPos} (h : pollUntil r pred T here done p s = .next t) :
    (p = .start ∧ t = State.goto (here .p1) { s with elapsed := 0 }) ∨
    (p = .p1 ∧ pred (s.peek r) = true ∧ t = (s.afterRead r).goto (done (s.peek r))) ∨
    (p = .p1 ∧ pred (s.peek r) = false ∧ t = (s.afterRead r).goto (here .p2)) ∨
    (p = .p2 ∧ s.stall.tick.elapsed ≤ T ∧ t = s.stall.tick.goto (here .p1)) ∨
    (p = .p2 ∧ T < s.stall.tick.elapsed ∧ t = s.stall.tick.finish .timeout) := by
  cases p with
  | start => rw [pollUntil_start] at h; cases h; simp
  | p1 =>
    rw [pollUntil_p1] at h
    cases hp : pred (s.peek r) <;> rw [hp] at h <;> cases h <;> simp
  | p2 =>
    rw [pollUntil_p2] at h
    by_cases hT : s.stall.tick.elapsed ≤ T
    · rw [if_pos hT] at h; cases h; exact .inr (.inr (.inr (.inl ⟨rfl, hT, rfl⟩)))
    · rw [if_neg hT] at h; cases h; exact .inr (.inr (.inr (.inr ⟨rfl, not_le.1 hT, rfl⟩)))

end poll

/-- The first access of a data word (rules R212, R213). -/
theorem wordFetch_next {d : Dir} {i : Word} {k : Word → State → Out} (h : wordFetch d i s k = .next t) :
    (d = .read ∧ k (s.peek .data) (s.afterRead .data) = .next t) ∨
    (d = .write ∧ s.bufIndexOk i.toNat = true ∧
      k (s.buf.readWord i.toNat) { s with hist := .bufRead i.toNat (s.buf.readWord i.toNat) :: s.hist } = .next t) := by
  cases d with
  | read => exact .inl ⟨rfl, h⟩
  | write => exact .inr ⟨rfl, bufRead_next h⟩

/-- The second access of a data word (rules R212, R213). -/
theorem wordStore_next {d : Dir} {i w : Word} {k : State → Out} (h : wordStore d i w s k = .next t) :
    (d = .read ∧ s.bufIndexOk i.toNat = true ∧
      k { s with buf := s.buf.writeWord i.toNat w, hist := .bufWrite i.toNat w :: s.hist } = .next t) ∨
    (d = .write ∧ k (s.regWrite .data w) = .next t) := by
  cases d with
  | read => exact .inl ⟨rfl, bufWrite_next h⟩
  | write => exact .inr ⟨rfl, h⟩

/-! ## Which label a meaning runs -/

variable {cs : List Pos}

theorem execInit0_at {l : Init0Pos} (h : s.seq = .running (.init0 l) cs) : exec .init0 s = init0At l s := by
  simp [exec, execInit0, h]

theorem execInit1_at {l : Init1Pos} (h : s.seq = .running (.init1 l) cs) : exec .init1 s = init1At l s := by
  simp [exec, execInit1, h]

theorem execReset_at {f : BitVec 3} {l : ResetPos} (h : s.seq = .running (.reset f l) cs) :
    exec (.reset f) s = resetAt f l s := by
  simp [exec, execReset, h]

theorem execSend_at {l : SendPos} (h : s.seq = .running (.send l) cs) : exec .send s = sendAt l s := by
  simp [exec, execSend, h]

theorem execGetbw_at {l : GetbwPos} (h : s.seq = .running (.getbw l) cs) : exec .getbw s = getbwAt l s := by
  simp [exec, execGetbw, h]

theorem execSetbw_at {l : SetbwPos} (h : s.seq = .running (.setbw l) cs) : exec .setbw s = setbwAt l s := by
  simp [exec, execSetbw, h]

theorem execSetclk_at {l : SetclkPos} (h : s.seq = .running (.setclk l) cs) : exec .setclk s = setclkAt l s := by
  simp [exec, execSetclk, h]

theorem execFifoRead_at {l : FifoPos} (h : s.seq = .running (.fifo .read l) cs) :
    exec .fifoRead s = fifoAt .read l s := by
  simp [exec, execFifoRead, h]

theorem execFifoWrite_at {l : FifoPos} (h : s.seq = .running (.fifo .write l) cs) :
    exec .fifoWrite s = fifoAt .write l s := by
  simp [exec, execFifoWrite, h]

end Sys2Proof.Machine
end

