-- ==== Sys2Proof/Laws/PerInstr.lean ====
section
/-! SUPPORT. Two facts about every operation as syntax, one lemma per constructor: its first label is a label of its
own (rule R41), and its request is one byte exactly when it is requestable (rules R2, R110). -/

namespace Sys2Proof.Laws

namespace StartPosition

/-- The first label of an operation belongs to that operation. -/
def Statement (i : Instr) : Prop := i.start.op = i

theorem init0 : Statement .init0 := rfl
theorem init1 : Statement .init1 := rfl
theorem reset (flags : BitVec 3) : Statement (.reset flags) := rfl
theorem send : Statement .send := rfl
theorem getbw : Statement .getbw := rfl
theorem setbw : Statement .setbw := rfl
theorem getclk : Statement .getclk := rfl
theorem setclk : Statement .setclk := rfl
theorem fifoRead : Statement .fifoRead := rfl
theorem fifoWrite : Statement .fifoWrite := rfl

end StartPosition

namespace RequestLength

/-- An operation has a one-byte request exactly when it is requestable, and none otherwise. -/
def Statement (i : Instr) : Prop := (encode i).length = if i.wellFormed then 1 else 0

theorem init0 : Statement .init0 := rfl
theorem init1 : Statement .init1 := rfl
theorem reset (flags : BitVec 3) : Statement (.reset flags) := rfl
theorem send : Statement .send := rfl
theorem getbw : Statement .getbw := rfl
theorem setbw : Statement .setbw := rfl
theorem getclk : Statement .getclk := rfl
theorem setclk : Statement .setclk := rfl
theorem fifoRead : Statement .fifoRead := rfl
theorem fifoWrite : Statement .fifoWrite := rfl

end RequestLength

end Sys2Proof.Laws
end

