-- ==== Sys2Proof/Laws/Runs.lean ====
section
/-! SUPPORT. Runs of steps: they chain, and what a whole poll does (rules R9, R13), said once for the five polls of SDHB:
where a read passes in time, where every read fails, and in any environment. -/

namespace Sys2Proof.Machine

variable {s t u : State} {m n : Nat}

theorem Runs.zero (s : State) : Runs 0 s s := rfl

theorem Runs.one (h : step s = .next t) : Runs 1 s t := ⟨t, h, rfl⟩

theorem Runs.cons (h : step s = .next u) (hr : Runs n u t) : Runs (n + 1) s t := ⟨u, h, hr⟩

theorem Runs.trans (h : Runs m s u) (h' : Runs n u t) : Runs (m + n) s t := by
  induction m generalizing s with
  | zero => cases h; simpa using h'
  | succ m ih =>
    obtain ⟨v, hv, hr⟩ := h
    exact Nat.succ_add m n ▸ Runs.cons hv (ih hr)

/-- While an operation runs, a step is its next label (rule R41). -/
theorem step_running {pos : Pos} {cs : List Pos} (h : s.seq = .running pos cs) : step s = exec pos.op s := by
  simp [step, fetch, h]

/-- While `IDLE` no poll runs. -/
theorem polling_idle (h : s.seq = .idle) : s.polling = none := by simp [State.polling, h]

/-- While an operation runs, its position says whether a poll runs and where it stands (rule R13). -/
theorem polling_running {pos : Pos} {cs : List Pos} (h : s.seq = .running pos cs) : s.polling = pos.poll := by
  simp [State.polling, h]

/-- An operation that runs completes by runs of steps. -/
theorem Completes.of_runs {i : Instr} {pos : Pos} {cs : List Pos} (h : s.seq = .running pos cs) (hi : pos.op = i)
    (hr : Runs (n + 1) s t) : Completes i n s t := by
  obtain ⟨v, hv, hr⟩ := hr
  rw [step_running h, hi] at hv
  exact ⟨v, hv, hr⟩

section poll
variable {r : Reg} {pred : Word → Bool} {T : Nat} {here : PollPos → Pos} {done : Word → Pos} {cs : List Pos}

/-- At every position of the poll a step is the poll's step. -/
def PollAt (cfg : Config.Params) (r : Reg) (pred : Word → Bool) (T : Nat) (here : PollPos → Pos) (done : Word → Pos)
    (cs : List Pos) : Prop :=
  ∀ (u : State) (p : PollPos), u.cfg = cfg → u.seq = .running (here p) cs → step u = pollUntil r pred T here done p u

/-- One failed poll before the timeout: a read and a stall (rule R13). -/
theorem poll_fail (hp : PollAt s.cfg r pred T here done cs) (hs : s.seq = .running (here .p1) cs)
    (hv : pred (s.peek r) = false) (hT : s.elapsed + s.cfg.tStep ≤ T) (hW : T + s.cfg.tStep < 2 ^ s.cfg.elapsedW) :
    Runs 2 s { s with
      elapsed := s.elapsed + s.cfg.tStep, env := s.env.next,
      hist := .stall s.cfg.tStep :: s.readOf r (s.peek r) :: s.hist } := by
  have hmod : (s.elapsed + s.cfg.tStep) % 2 ^ s.cfg.elapsedW = s.elapsed + s.cfg.tStep := Nat.mod_eq_of_lt (by omega)
  refine ⟨_, (hp s .p1 rfl hs).trans pollUntil_p1, Runs.one ((hp _ .p2 ?_ ?_).trans ?_)⟩
  · rfl
  · simp [hv, hs, Seq.callers]
  · rw [pollUntil_p2]
    simp [State.goto, State.afterRead, State.stall, State.tick, hs, Seq.callers, hmod, hT, State.readOf]

/-- The failed poll that exhausts the timeout (rules R9, R13). -/
theorem poll_last (hp : PollAt s.cfg r pred T here done cs) (hs : s.seq = .running (here .p1) cs)
    (hv : pred (s.peek r) = false) (hT : T < s.elapsed + s.cfg.tStep)
    (hW : s.elapsed + s.cfg.tStep < 2 ^ s.cfg.elapsedW) :
    Runs 2 s (State.finish .timeout { s with
      elapsed := s.elapsed + s.cfg.tStep, env := s.env.next,
      hist := .stall s.cfg.tStep :: s.readOf r (s.peek r) :: s.hist }) := by
  have hmod : (s.elapsed + s.cfg.tStep) % 2 ^ s.cfg.elapsedW = s.elapsed + s.cfg.tStep := Nat.mod_eq_of_lt hW
  have hT' : ¬ s.elapsed + s.cfg.tStep ≤ T := by omega
  refine ⟨_, (hp s .p1 rfl hs).trans pollUntil_p1, Runs.one ((hp _ .p2 ?_ ?_).trans ?_)⟩
  · rfl
  · simp [hv, hs, Seq.callers]
  · rw [pollUntil_p2]
    simp [State.goto, State.afterRead, State.stall, State.tick, State.finish, hs, Seq.callers, hmod, hT', State.readOf]

/-- Failed polls that stay within the timeout (rule R13). -/
theorem poll_fails {bad rest : List Word} (hp : PollAt s.cfg r pred T here done cs)
    (hs : s.seq = .running (here .p1) cs) (hsc : s.env.script = bad ++ rest) (hbad : ∀ v ∈ bad, pred v = false)
    (hT : s.elapsed + bad.length * s.cfg.tStep ≤ T) (hW : T + s.cfg.tStep < 2 ^ s.cfg.elapsedW) :
    Runs (2 * bad.length) s { s with
      elapsed := s.elapsed + bad.length * s.cfg.tStep
      env := { script := rest, draws := s.env.draws + bad.length }
      hist := (s.pollsOf r bad).reverse ++ s.hist } := by
  induction bad generalizing s with
  | nil =>
    have : ({ script := rest, draws := s.env.draws } : Env) = s.env := by rw [← (by simpa using hsc : s.env.script = rest)]
    simp [State.pollsOf, Runs, this]
  | cons v bad ih =>
    have hpk : s.peek r = v := by simp [State.peek, Env.answer, hsc]
    have hmul : (bad.length + 1) * s.cfg.tStep = bad.length * s.cfg.tStep + s.cfg.tStep := Nat.succ_mul _ _
    simp only [List.length_cons] at hT ⊢
    have h1 := poll_fail hp hs (by rw [hpk]; exact hbad v (by simp)) (by omega) hW
    have h2 := ih (s := { s with
      elapsed := s.elapsed + s.cfg.tStep, env := s.env.next,
      hist := .stall s.cfg.tStep :: s.readOf r (s.peek r) :: s.hist }) hp hs (by simp [Env.next, hsc])
      (fun w hw => hbad w (by simp [hw])) (by simp only; omega) hW
    have h3 := h1.trans h2
    rw [show 2 + 2 * bad.length = 2 * (bad.length + 1) by omega] at h3
    refine cast (congrArg _ ?_) h3
    simp only [hpk, Env.next, State.pollsOf, List.flatMap_cons, List.reverse_append, State.mk.injEq, true_and]
    refine ⟨by omega, by simp; omega, by simp [State.readOf, State.regAddr]⟩

/-- A poll whose read passes before the timeout (rules R9, R13). -/
theorem poll_passes {bad rest : List Word} {good : Word} (hp : PollAt s.cfg r pred T here done cs)
    (hs : s.seq = .running (here .start) cs) (hsc : s.env.script = bad ++ good :: rest)
    (hbad : ∀ v ∈ bad, pred v = false) (hgood : pred good = true) (hn : bad.length < s.cfg.npoll T)
    (hW : T + s.cfg.tStep < 2 ^ s.cfg.elapsedW) :
    Runs (2 * bad.length + 2) s { s with
      seq := .running (done good) cs
      elapsed := bad.length * s.cfg.tStep
      env := { script := rest, draws := s.env.draws + (bad.length + 1) }
      hist := s.readOf r good :: ((s.pollsOf r bad).reverse ++ s.hist) } := by
  have hle : bad.length * s.cfg.tStep ≤ T := by
    have : bad.length ≤ T / s.cfg.tStep := Nat.lt_succ_iff.1 hn
    exact (Nat.mul_le_mul_right _ this).trans (Nat.div_mul_le_self _ _)
  rw [show 2 * bad.length + 2 = 1 + (2 * bad.length + 1) by omega]
  refine (Runs.one ((hp s .start rfl hs).trans pollUntil_start)).trans ?_
  refine Runs.trans (poll_fails (s := State.goto (here .p1) { s with elapsed := 0 }) hp
    (by simp [State.goto, hs, Seq.callers]) hsc hbad (by simpa using hle) hW)
    (Runs.one ((hp _ .p1 ?_ (by simp [hs, Seq.callers])).trans ?_))
  · rfl
  rw [pollUntil_p1]
  simp [State.goto, State.afterRead, State.peek, Env.answer, Env.next, hgood, hs, Seq.callers, State.readOf, State.pollsOf,
    State.regAddr, Nat.add_assoc]

/-- A poll whose reads all fail ends the operation with `Timeout` after `NPOLL(T)` of them (rules R9, R13). -/
theorem poll_exhausted {bad rest : List Word} (hp : PollAt s.cfg r pred T here done cs)
    (hs : s.seq = .running (here .start) cs) (hsc : s.env.script = bad ++ rest)
    (hbad : ∀ v ∈ bad, pred v = false) (hn : bad.length = s.cfg.npoll T)
    (hstep : 0 < s.cfg.tStep) (hW : T + s.cfg.tStep < 2 ^ s.cfg.elapsedW) :
    Runs (2 * bad.length + 1) s (State.finish .timeout { s with
      elapsed := bad.length * s.cfg.tStep
      env := { script := rest, draws := s.env.draws + bad.length }
      hist := (s.pollsOf r bad).reverse ++ s.hist }) := by
  obtain ⟨bad, v, rfl⟩ : ∃ l v, bad = l ++ [v] := by
    rcases List.eq_nil_or_concat bad with rfl | ⟨l, v, h⟩
    · simp [Config.Params.npoll] at hn
    · exact ⟨l, v, by simpa using h⟩
  simp only [List.length_append, List.length_singleton, Config.Params.npoll, Nat.add_right_cancel_iff] at hn ⊢
  have hle : bad.length * s.cfg.tStep ≤ T := by rw [hn]; exact Nat.div_mul_le_self _ _
  have hlt : T < bad.length * s.cfg.tStep + s.cfg.tStep := by rw [hn]; exact Nat.lt_div_mul_add hstep
  have h0 := Runs.one ((hp s .start rfl hs).trans pollUntil_start)
  have h1 := poll_fails (s := State.goto (here .p1) { s with elapsed := 0 }) (bad := bad) (rest := v :: rest) hp
    (by simp [State.goto, hs, Seq.callers]) (by simpa using hsc) (fun w hw => hbad w (by simp [hw]))
    (by simpa using hle) hW
  have h2 := poll_last (s := { State.goto (here .p1) { s with elapsed := 0 } with
      elapsed := 0 + bad.length * s.cfg.tStep
      env := { script := v :: rest, draws := s.env.draws + bad.length }
      hist := (s.pollsOf r bad).reverse ++ s.hist }) hp (by simp [hs, Seq.callers])
    (by simpa [State.peek, Env.answer] using hbad v (by simp)) (by simpa using hlt) (by simp; omega)
  have h := h0.trans (h1.trans h2)
  rw [show 1 + (2 * bad.length + 2) = 2 * (bad.length + 1) + 1 by omega] at h
  refine cast (congrArg _ ?_) h
  simp [State.finish, State.goto, hs, Seq.callers, State.pollsOf, State.readOf, State.peek, Env.answer, Env.next,
    Nat.add_mul, State.regAddr, Nat.add_assoc]

/-- The events a poll can make (rule R13). -/
def PollEvent (s : State) (r : Reg) (e : Event) : Prop := (∃ v, e = s.readOf r v) ∨ e = .stall s.cfg.tStep

/-- A poll from P1 on, in any environment: it passes, or it ends with `Timeout`, after a bounded number of events. -/
theorem poll_ends_from (k : Nat) (hp : PollAt s.cfg r pred T here done cs) (hs : s.seq = .running (here .p1) cs)
    (hk : T < s.elapsed + k * s.cfg.tStep) (hT : s.elapsed ≤ T) (hW : T + s.cfg.tStep < 2 ^ s.cfg.elapsedW) :
    ∃ n es e env, (∀ x ∈ es, PollEvent s r x) ∧
      ((∃ v, pred v = true ∧ es.length + 1 ≤ 2 * k ∧
        Runs n s { s with seq := .running (done v) cs, elapsed := e, env := env, hist := es ++ s.hist }) ∨
       (es.length ≤ 2 * k ∧
        Runs n s (State.finish .timeout { s with elapsed := e, env := env, hist := es ++ s.hist }))) := by
  induction k generalizing s with
  | zero => omega
  | succ k ih =>
    have hmul : (k + 1) * s.cfg.tStep = k * s.cfg.tStep + s.cfg.tStep := Nat.succ_mul _ _
    have hread : PollEvent s r (s.readOf r (s.peek r)) := .inl ⟨_, rfl⟩
    cases hv : pred (s.peek r) with
    | true =>
      refine ⟨1, [s.readOf r (s.peek r)], s.elapsed, s.env.next, by simpa using hread,
        .inl ⟨s.peek r, hv, by simp, ?_⟩⟩
      refine Runs.one ((hp s .p1 rfl hs).trans (pollUntil_p1.trans ?_))
      simp [State.goto, State.afterRead, hv, hs, Seq.callers, State.readOf]
    | false =>
      have hread2 : ∀ x ∈ [Event.stall s.cfg.tStep, s.readOf r (s.peek r)], PollEvent s r x := by
        simpa using ⟨Or.inr rfl, hread⟩
      by_cases hlast : s.elapsed + s.cfg.tStep ≤ T
      · have h1 := poll_fail hp hs hv hlast hW
        obtain ⟨n, es, e, env, hes, hrun⟩ := ih (s := { s with
          elapsed := s.elapsed + s.cfg.tStep, env := s.env.next,
          hist := .stall s.cfg.tStep :: s.readOf r (s.peek r) :: s.hist }) hp hs (by simp only; omega) hlast hW
        refine ⟨2 + n, es ++ [.stall s.cfg.tStep, s.readOf r (s.peek r)], e, env, ?_, ?_⟩
        · intro x hx
          rcases List.mem_append.1 hx with hx | hx
          · exact hes x hx
          · exact hread2 x hx
        · rcases hrun with ⟨v, hpv, hlen, hr⟩ | ⟨hlen, hr⟩
          · refine .inl ⟨v, hpv, by simp; omega, ?_⟩
            simpa using h1.trans hr
          · refine .inr ⟨by simp; omega, ?_⟩
            simpa [State.finish] using h1.trans hr
      · refine ⟨2, [.stall s.cfg.tStep, s.readOf r (s.peek r)], s.elapsed + s.cfg.tStep, s.env.next, hread2,
          .inr ⟨by simp, ?_⟩⟩
        simpa using poll_last hp hs hv (by omega) (by omega)

/-- A whole poll in any environment (rules R9, R13): after at most `2 * NPOLL(T) - 1` events it passes, or after at most
`2 * NPOLL(T)` it ends the operation with `Timeout`. -/
theorem poll_ends (hp : PollAt s.cfg r pred T here done cs) (hs : s.seq = .running (here .start) cs)
    (hstep : 0 < s.cfg.tStep) (hW : T + s.cfg.tStep < 2 ^ s.cfg.elapsedW) :
    ∃ n es e env, (∀ x ∈ es, PollEvent s r x) ∧
      ((∃ v, pred v = true ∧ es.length + 1 ≤ 2 * s.cfg.npoll T ∧
        Runs n s { s with seq := .running (done v) cs, elapsed := e, env := env, hist := es ++ s.hist }) ∨
       (es.length ≤ 2 * s.cfg.npoll T ∧
        Runs n s (State.finish .timeout { s with elapsed := e, env := env, hist := es ++ s.hist }))) := by
  have h0 := Runs.one ((hp s .start rfl hs).trans pollUntil_start)
  have hk : T < 0 + s.cfg.npoll T * s.cfg.tStep := by
    rw [Config.Params.npoll, Nat.succ_mul]; have := Nat.lt_div_mul_add (a := T) hstep; omega
  obtain ⟨n, es, e, env, hes, hrun⟩ := poll_ends_from (s := State.goto (here .p1) { s with elapsed := 0 })
    (s.cfg.npoll T) hp (by simp [State.goto, hs, Seq.callers]) hk (Nat.zero_le _) hW
  refine ⟨1 + n, es, e, env, hes, ?_⟩
  rcases hrun with ⟨v, hpv, hlen, hr⟩ | ⟨hlen, hr⟩
  · exact .inl ⟨v, hpv, hlen, h0.trans hr⟩
  · refine .inr ⟨hlen, ?_⟩
    have := h0.trans hr
    simpa [State.finish, State.goto, hs, Seq.callers] using this

end poll

end Sys2Proof.Machine
end

