-- ==== Sys2Proof/Tests/Slice0.lean ====
section
/-! SUPPORT. Tests on fixed values taken from the spec's tables and examples, one small step test or two per operation,
and for every statement with hypotheses a concrete state that meets them. -/

namespace Sys2Proof.Tests
open Sys2Proof.Machine

/-! ## Decoding (rules R110, R112, R114) -/

theorem test_decode_init0 : decode [0b00000000] = .ok (.init0, []) := by decide
theorem test_decode_init1 : decode [0b00001000] = .ok (.init1, []) := by decide
theorem test_decode_reset_all : decode [0b00001001] = .ok (.reset 0b001, []) := by decide
theorem test_decode_reset_lines : decode [0b00110001] = .ok (.reset 0b110, []) := by decide
theorem test_decode_send : decode [0b00000010, 0xAB] = .ok (.send, [0xAB]) := by decide
theorem test_decode_getbw : decode [0b00000011] = .ok (.getbw, []) := by decide
theorem test_decode_setbw : decode [0b00001011] = .ok (.setbw, []) := by decide
theorem test_decode_getclk : decode [0b00000100] = .ok (.getclk, []) := by decide
theorem test_decode_setclk : decode [0b00001100] = .ok (.setclk, []) := by decide
theorem test_decode_none : decode [] = .error .empty := by decide
theorem test_decode_high_bits : decode [0b01000000] = .error .highBits := by decide
theorem test_decode_selector : decode [0b00000101] = .error .selector := by decide
theorem test_decode_init_phase : decode [0b00010000] = .error .initPhase := by decide
theorem test_decode_send_modifier : decode [0b00001010] = .error .sendModifier := by decide
theorem test_decode_width_mode : decode [0b00010011] = .error .widthMode := by decide
theorem test_decode_clock_mode : decode [0b00111100] = .error .clockMode := by decide
theorem test_table_word : decodeTableWord 8 0x31 = some (.reset 6) ∧ decodeTableWord 16 0x31 = none := by decide

/-- Every byte that decodes is the encoding of what it decodes to (rule R113). -/
theorem test_encode_of_decode :
    ((List.range 256).all fun n =>
      match decode [BitVec.ofNat 8 n] with
      | .ok (i, _) => encode i == [BitVec.ofNat 8 n]
      | .error _ => true) = true := by decide +kernel

/-- The smoke test of WellFormed: the two internal operations are refused, the requestable ones are not. -/
theorem test_well_formed :
    Instr.fifoRead.wellFormed = false ∧ Instr.fifoWrite.wellFormed = false ∧ encode .fifoRead = [] ∧
      encode .fifoWrite = [] ∧ (Instr.reset 7).wellFormed = true ∧ Instr.send.wellFormed = true := by decide

/-- `DCW = 0x00000759` of 95_test_vectors.md: op 25, SHORT, crc, opchk, write. -/
theorem test_unpack :
    let d := ({ dcw := 0x00000759, arg := 0x2000, bufsize := 1024, resp := #v[0, 0, 0, 0] } : DescWords).unpack
    d.opcode = 25 ∧ d.rclass = .short ∧ d.crc = true ∧ d.opchk = true ∧ d.dir = .write ∧ d.reserved = 0 ∧
      d.arg = 0x2000 ∧ d.bufsize = 1024 := by decide

/-- `DCW[11]` is the first reserved bit (rule R114). -/
theorem test_unpack_reserved :
    ({ dcw := 0x00000800, arg := 0, bufsize := 0, resp := #v[0, 0, 0, 0] } : DescWords).unpack.invalid = true := by decide

/-! ## Words (rules R120, R127, R252) -/

/-- A descriptor for the tests. -/
def desc (op : BitVec 6) (cls : RClass) (crc opchk : Bool) (dir : Dir) (size : Word) : Descriptor :=
  { opcode := op, rclass := cls, crc := crc, opchk := opchk, dir := dir, arg := 0, bufsize := size,
    resp := #v[0xA0, 0xA1, 0xA2, 0xA3], reserved := 0 }

/-- The command words of the table of rule R127. -/
theorem test_command_words :
    [desc 0 .none false false .read 0, desc 8 .short true true .read 0, desc 2 .long true false .read 0,
     desc 12 .busy true true .read 0, desc 17 .short true true .read 512, desc 24 .short true true .write 512,
     desc 18 .short true true .read 1024, desc 25 .short true true .write 1536,
     desc 51 .short true true .read 8].map (Config.params.commandWord · 0) =
    [0x00000000, 0x081A0000, 0x02090000, 0x0C1B0000, 0x113A0010, 0x183A0000, 0x123A0032, 0x193A0022, 0x333A0010] := by
  decide

/-- The same with `CAP_AUTO_CMD12` (rule R127). -/
theorem test_command_word_auto :
    Config.params.commandWord (desc 18 .short true true .read 1024) 0x20 = 0x123A0036 := by decide

/-- The block words of the table of rule R127. -/
theorem test_block_words :
    [desc 17 .short true true .read 512, desc 18 .short true true .read 1024, desc 25 .short true true .write 1536,
     desc 51 .short true true .read 8].map Config.params.blkszcntWord =
    [0x00000200, 0x00020200, 0x00030200, 0x00000008] := by decide

/-- Rule R120 with the default layout. -/
theorem test_reset_bits :
    ((List.range 8).all fun n => Config.params.resetBits (BitVec.ofNat 3 n) == BitVec.ofNat 32 (n * 0x01000000)) = true := by
  decide

/-- Rows of the table of rule R252: version, base clock, speed, divisor, clock word. -/
theorem test_divisors :
    ([(1, 96000000, 25000000, 4, 0x000E0201), (2, 96000000, 25000000, 4, 0x000E0201),
      (1, 96000000, 400000, 256, 0x000E8001), (2, 96000000, 400000, 240, 0x000E7801),
      (0, 96000000, 50000000, 2, 0x000E0101), (2, 100000000, 26000000, 4, 0x000E0201),
      (2, 50000000, 52000000, 1, 0x000E0001), (1, 200000000, 400000, 256, 0x000E8001)] :
        List (BitVec 8 × Word × Word × Word × Word)).all
      (fun r => divisor Config.params r.1 r.2.1 r.2.2.1 == r.2.2.2.1 && Config.params.clockWord r.2.2.2.1 == r.2.2.2.2) =
    true := by decide +kernel

/-- The two long searches of the table of rule R252. -/
theorem test_divisors_long :
    divisor Config.params 2 200000000 150000 = 1334 ∧ divisor Config.params 2 208000000 100000 = 2046 ∧
      Config.params.clockWord 1334 = 0x000E9B81 ∧ Config.params.clockWord 2046 = 0x000EFFC1 := by decide +kernel

/-- The default record meets rules R8, R66 and R155. -/
theorem test_params_valid : Config.params.valid = true := by decide

/-- Records that break a constraint are refused. -/
theorem test_params_invalid :
    ({ blk := 510 } : Config.Params).valid = false ∧ ({ tStep := 0 } : Config.Params).valid = false ∧
      ({ intEnDefault := 0 } : Config.Params).valid = false ∧ ({ maxdivPre3 := 96 } : Config.Params).valid = false ∧
      ({ maxdivV3 := 1 } : Config.Params).valid = false ∧ ({ opStop := 18 } : Config.Params).valid = false ∧
      ({ offs := { arg := 0x04 } } : Config.Params).valid = false ∧
      ({ baseclkUnitV3 := 16843010 } : Config.Params).valid = false ∧
      ({ hl := { ccSdce := 1 } } : Config.Params).valid = false ∧ ({ regw := 64 } : Config.Params).valid = false ∧
      ({ hsCapSets := 0x100 } : Config.Params).valid = false ∧
      ({ sl := { capsBaseclkShift := 25 } } : Config.Params).valid = false ∧
      ({ sl := { capsBaseclkV3 := 0x1FFF, capsAdma2 := 0 } } : Config.Params).valid = false := by decide

/-! ## Text (rules R135, R136) -/

theorem test_text_send :
    Text.parse ("SEND op=8 resp=SHORT crc opchk arg=0x1AA ; probe".toList) = some (.send 8 .short true true 0x1AA none) := by
  decide +kernel

theorem test_text_lines :
    Text.parse ("RESET CMD+DAT".toList) = some (.reset 6) ∧ Text.parse ("RESET LINES".toList) = some .resetLines ∧
      Text.parse ("SETCLK 400000".toList) = some (.setclk 400000) ∧ Text.parse ("BRINGUP reset".toList) = some (.bringup true) ∧
      Text.parse ("SEND op=64 resp=NONE arg=0".toList) = none := by decide +kernel

/-- BRINGUP drops the rest after an ending other than `Success` (rule R136). -/
theorem test_text_bringup :
    Text.acts #v[0, 0, 0, 0] .resetLines = [.present 0x31] ∧
    Text.acts #v[0, 0, 0, 0] (.bringup true) =
      [.present 0x09, .skipUnlessSuccess 9, .present 0x00, .skipUnlessSuccess 7, .loadValue 1, .present 0x0B,
       .skipUnlessSuccess 4, .loadValue 400000, .present 0x0C, .skipUnlessSuccess 1, .present 0x08] := by decide

/-! ## One step (expected values from 95_test_vectors.md and the example rules) -/

/-- A record whose polls give up after two reads. -/
def cfg : Config.Params :=
  { Config.params with tInhibit := 50, tCmd := 50, tData := 50, tReset := 50, tClock := 50 }

/-- A configured SDHB that stands at `seq`, with these answers to come. -/
def at' (seq : Seq) (script : List Word) : State :=
  { State.reset with
    cfg := cfg
    ctx := { regbase := 0x1000, hostver := 2, hostcaps := 0x20, voltages := 0, fundclk := 96000000 }
    seq := seq
    configured := true
    started := true
    env := { script := script, draws := 0 } }

/-- The state a step answers. -/
def nextOf (o : Out) : Option State :=
  match o with
  | .next t => some t
  | _ => none

/-- The latest port event of a step's answer. -/
def eventOf (o : Out) : Option Event := (nextOf o).bind (·.hist.head?)

/-- Rule R151: bits 23:16. -/
theorem test_init0_version :
    (nextOf (execInit0 (at' .idle [0x12023456]))).map (fun t => (t.ctx.hostver, t.hist)) =
      some (2, [.regRead .version 0x10FC 0x12023456]) := by decide

/-- The capability word of the example of rule R157: base clock 96, ADMA2, high speed, 3.3 V. -/
theorem test_init0_caps :
    (nextOf (execInit0 (at' (.running (.init0 (.i0_3 0x01286000)) []) []))).map (·.ctx.hostcaps) = some 0x61 ∧
    Config.params.voltsFound 0x01286000 = 0x00300000 ∧ Config.params.clockFound 2 0x01286000 = 96000000 ∧
    Config.params.clockFound 1 0x01286000 = 32000000 ∧ Config.params.powerLevel 0x00360080 = some 0x0E00 ∧
    Config.params.powerLevel 0x00008000 = none := by decide +kernel

/-- Rule R161. -/
theorem test_init1_power :
    eventOf (execInit1 (at' (.running (.init1 (.i1_2 0x0E00)) []) [])) = some (.regWrite .hostctl 0x1028 0x0F00) := by decide

theorem test_init1_end :
    (nextOf (execInit1 (at' (.running (.init1 .i1_4) []) []))).map (fun t => (t.hist, t.seq, t.q.status)) =
      some ([.regWrite .intsig 0x1038 0], .idle, 0) := by decide

/-- Rule R176 (a). -/
theorem test_reset_write :
    eventOf (execReset 1 (at' (.running (.reset 1 (.rs_3 0x01000000 0x000E0005)) []) [])) =
      some (.regWrite .clkctl 0x102C 0x010E0005) := by decide

/-- The second failed poll with `T = 50` is the last (rules R9, R13). -/
theorem test_reset_timeout :
    (nextOf (execReset 6 { at' (.running (.reset 6 (.rs_4 0x06000000 .p2)) []) [] with elapsed := 50 })).map
      (fun t => (t.seq, t.q.status, t.elapsed, t.hist)) = some (.idle, 1, 100, [.stall 50]) := by decide

/-- The command write of the probe of rule R203 (a). -/
theorem test_send_command :
    eventOf (execSend { at' (.running (.send .sc_6) []) [] with desc := desc 8 .short true true .read 0 }) =
      some (.regWrite .cmd 0x100C 0x081A0000) := by decide

/-- Rule R191: the command-timeout bit wins over the error and completion bits. -/
theorem test_send_priority :
    (nextOf (execSend (at' (.running (.send (.sc_8 0x00018001)) []) []))).map (·.seq) =
      some (.running (.reset 2 .rs_1) [.send .sc_8r]) := by decide

/-- Rules R196, R197 by hand from one response. -/
theorem test_long_response :
    longResponse 0 0x00112233 0x44556677 0x8899AABB 0x00CCDDEE =
      #v[0x00CCDDEE, 0x8899AABB, 0x44556677, 0x00112233] ∧
    longResponse 0x80 0x00112233 0x44556677 0x8899AABB 0x00CCDDEE =
      #v[0xCCDDEE88, 0x99AABB44, 0x55667700, 0x11223300] := by decide

/-- Both width bits set read as 8 (rule R128). -/
theorem test_getbw_both :
    (nextOf (execGetbw (at' (.running (.getbw (.gb_2 0x0F22)) []) []))).map (fun t => (t.q.result, t.q.status)) =
      some (8, 0) := by decide

theorem test_getbw_four :
    (nextOf (execGetbw (at' (.running (.getbw (.gb_2 0x0F02)) []) []))).map (·.q.result) = some 4 := by decide

/-- Rule R234: from 8 bits to 4. -/
theorem test_setbw_four :
    eventOf (execSetbw { at' (.running (.setbw (.sb_2 0x0F20)) []) [] with q := { State.reset.q with value := 4 } }) =
      some (.regWrite .hostctl 0x1028 0x0F02) := by decide

/-- Rule R234 (b): the whole word is compared. -/
theorem test_setbw_bad :
    (nextOf (execSetbw { at' .idle [] with q := { State.reset.q with value := 0x104 } })).map
      (fun t => (t.q.status, t.hist)) = some (3, []) := by decide

theorem test_getclk : (nextOf (execGetclk (at' .idle []))).map (fun t => (t.q.status, t.seq)) = some (4, .idle) := by decide

/-- Rule R252: the output clock of the first row. -/
theorem test_setclk_output :
    eventOf (execSetclk (at' (.running (.setclk (.ck_5 0x000E0201)) []) [])) =
      some (.regWrite .clkctl 0x102C 0x000E0205) := by decide

theorem test_setclk_zero :
    (nextOf (execSetclk (at' .idle []))).map (fun t => (t.q.status, t.hist)) = some (3, []) := by decide

/-- A data phase of 8 bytes, called from SEND. -/
def fifoAt' (d : Dir) (l : FifoPos) (script : List Word) : State :=
  { at' (.running (.fifo d l) [.send (.sc_11r .success)]) script with
    desc := desc 51 .short true true d 8
    dbuf := some 12
    buf := Memory.ofBytes 0 [0x11, 0x22, 0x33, 0x44, 0x55, 0x66, 0x77, 0x88, 0x99] }

/-- Rule R86: the lowest byte is bits 7:0; the byte after the word stays. -/
theorem test_fifo_read_word :
    (nextOf (execFifoRead (fifoAt' .read (.ff_6w 8 0 8 1 0xDDCCBBAA) []))).map
      (fun t => (t.buf, t.hist, t.seq)) =
      some ([(0, 0x11), (1, 0x22), (2, 0x33), (3, 0x44), (4, 0xAA), (5, 0xBB), (6, 0xCC), (7, 0xDD), (8, 0x99)],
        [.bufWrite 1 0xDDCCBBAA], .running (.fifo .read (.ff_6k 8 0 8 2)) [.send (.sc_11r .success)]) := by decide

/-- A zero byte leaves no cell (canonical form). -/
theorem test_fifo_read_zero :
    (nextOf (execFifoRead (fifoAt' .read (.ff_6w 8 0 8 1 0x000000FF) []))).map (fun t => (t.buf, t.buf.wf)) =
      some ([(0, 0x11), (1, 0x22), (2, 0x33), (3, 0x44), (4, 0xFF), (8, 0x99)], true) := by decide

/-- Rule R213: the second word of the buffer. -/
theorem test_fifo_write_word :
    eventOf (execFifoWrite (fifoAt' .write (.ff_6k 8 0 8 1) [])) = some (.bufRead 1 0x88776655) := by decide

/-- Rule R221: only the trailing bits are written back. -/
theorem test_fifo_write_trailing :
    (nextOf (execFifoWrite (fifoAt' .write (.ff_7w 0x00008013) []))).map (fun t => (t.hist, t.seq)) =
      some ([.regWrite .intsts 0x1030 0x00000012], .running (.send (.sc_11r .success)) []) := by decide

/-- Outside the BUF space the access faults; no good state stands there (rule R216). -/
theorem test_buffer_fault :
    execFifoRead (fifoAt' .read (.ff_6w 8 0 8 2 0) []) = .fault .bufIndex := rfl

/-- Rules R2, R110: an internal operation cannot be asked for. -/
theorem test_internal_refused :
    execFifoRead (at' .idle []) = .refused .notRequestable ∧
      execFifoWrite (fifoAt' .read .ff_0 []) = .refused .notRequestable := ⟨rfl, rfl⟩

/-- `withFetchWord` puts a request where the next step takes it. -/
theorem test_fetch_word :
    (nextOf (step (State.reset.withFetchWord 8 0x02))).map (·.seq) = some (.running (.send .sc_1) []) := by decide

/-! ## Witnesses: for every statement with hypotheses, a concrete case that meets them all, at a boundary value where a
clause has a range -/

/-- Ready, with these answers to come. -/
def ready (script : List Word) : State := at' .idle script

/-- Ready, with this SEND descriptor loaded. -/
def readySend (d : Descriptor) (script : List Word) : State := { ready script with desc := d, dbuf := some 512 }

/-- Reset, with this act at the port. -/
def presents (m : ReqMsg) : State := { State.reset with inbox := [m] }

/-- What holds of two words holds of every word of the list of them, and of the list of the first. -/
theorem all_two {P : Word → Prop} {v w : Word} (hv : P v) (hw : P w) : (∀ x ∈ [v], P x) ∧ ∀ x ∈ [v, w], P x := by
  simp [hv, hw]

/-- A good state that runs an operation, from its parts. -/
theorem inv_running {s : State} {pos : Pos} {cs : List Pos} (h : s.seq = .running pos cs) (hb : s.buf.wf = true)
    (hv : s.cfg.valid = true) (ha : s.baseOk) (he : s.elapsed < 2 ^ s.cfg.elapsedW) (hc : s.configured = true)
    (hs : s.started = true) (hk : StackOk s pos cs) : s.Inv where
  buf := hb
  cfg _ := ⟨hv, ha⟩
  loaded _ := hc
  elapsed := he
  seq pos' cs' h' := by
    rw [h] at h'
    cases h'
    exact ⟨hs, hk⟩

theorem ready_inv : (ready []).Inv where
  buf := rfl
  cfg _ := ⟨by decide, by decide, by decide⟩
  loaded _ := rfl
  elapsed := by decide
  seq _ _ h := by cases h

/-- FIFO_READ between the two accesses of its last word. -/
theorem fifo_inv : (fifoAt' .read (.ff_6w 8 0 8 1 0xAA) []).Inv :=
  inv_running rfl (by decide) (by decide) ⟨by decide, by decide⟩ (by decide) rfl rfl
    ⟨⟨by decide, by decide⟩, by decide, rfl, ⟨by unfold Moved; decide, by decide, by decide⟩, by decide⟩

/-- RESET called from the data mover. -/
def nested (l : ResetPos) (script : List Word) : State :=
  { fifoAt' .read .ff_0 script with
    seq := .running (.reset 4 l) [.fifo .read (.ff_4 8 0 8 0x100000), .send (.sc_11r .success)] }

theorem nested_inv (p : PollPos) : (nested (.rs_4 0x04000000 p) []).Inv := by
  cases p <;>
    exact inv_running rfl (by decide) (by decide) ⟨by decide, by decide⟩ (by decide) rfl rfl
      ⟨rfl, by simp [PosOk, PollOk, nested, fifoAt', at', State.reset], ⟨by decide, by decide⟩, by decide, rfl,
        by unfold Moved; decide, by decide, by decide⟩

theorem wit_HeaderDecodingIsTotal :
    (0x39 : Byte) &&& 0xC7 = 0x01 ∧ (0x05 : Byte) &&& 0xC7 ≠ 0x01 ∧
      (0x05 : Byte) ∉ ([0x00, 0x08, 0x02, 0x03, 0x0B, 0x04, 0x0C] : List Byte) ∧
      (0x41 : Byte) &&& 0xC7 ≠ 0x01 ∧ (0x41 : Byte) ∉ ([0x00, 0x08, 0x02, 0x03, 0x0B, 0x04, 0x0C] : List Byte) := by
  decide

theorem wit_DecodeOfEncode : (Instr.reset 7).wellFormed = true ∧ Instr.setclk.wellFormed = true := by decide

/-- One reserved header for each kind of rule R112. -/
theorem wit_ReservedRequestIsInvalidParameter :
    (∀ req, State.ready { ready [] with inbox := [.present req] }) ∧
    ∀ req ∈ ([0x05, 0x40, 0x10, 0x0A, 0x13, 0x14] : List Byte),
      (let sel := (req.extractLsb' 0 3).toNat
       let md := (req.extractLsb' 3 3).toNat
       5 ≤ sel ∨ req.extractLsb' 6 2 ≠ 0 ∨ (sel = 0 ∧ 2 ≤ md) ∨ (sel = 2 ∧ md ≠ 0) ∨ ((sel = 3 ∨ sel = 4) ∧ 2 ≤ md)) :=
  ⟨fun _ => ⟨rfl, rfl⟩, by decide⟩

/-- For CommandWordIsSumOfParts, CommandWordAutoAndDma and CommandWordFields. -/
theorem wit_CommandWords : cfg.valid = true := by decide

/-- The largest multi-block transfer and the largest single block. -/
theorem wit_BlockWordFields :
    (desc 18 .short true true .read 0x01FFFE00).preconditions cfg (some 0x01FFFE00) = true ∧
      (desc 17 .short true true .read 512).preconditions cfg (some 512) = true ∧ cfg.valid = true := by decide

theorem wit_WidthReadsBack : cfg.valid = true ∧ cfg.hl.hcBw4 ≠ 0 ∧ cfg.hl.hcBw8 ≠ 0 := by decide

theorem wit_ClockWordFields : cfg.valid = true ∧ (2046 : Word).toNat ≤ 2046 := by decide

theorem wit_ContextZeroUntilConfigured :
    (∃ t, step (presents (.loadValue 5)) = .next t ∧ t.configured = false) ∧
      ∃ t, step (presents (.config ⟨0x1000, none, none, none⟩)) = .next t ∧ t.configured = true :=
  ⟨⟨_, rfl, rfl⟩, _, rfl, rfl⟩

/-- The last base of rule R82. -/
theorem wit_ConfigurationLoads :
    let s := presents (.config ⟨0xFFFFFF00, some 0x80, none, some 1⟩)
    s.seq = .idle ∧ s.started = false ∧ s.cfg.valid = true ∧ 0xFFFFFF00 % 4 = 0 ∧ 0xFFFFFF00 + 0x100 ≤ 2 ^ s.cfg.addrW := by
  decide

theorem wit_ConfigurationRefused :
    (presents (.config ⟨2, none, none, none⟩)).seq = .idle ∧ (ready []).started = true ∧ (ready []).seq = .idle ∧
      (presents (.present 5)).configured = false ∧ Config.Params.valid { blk := 0 } = false ∧ 2 % 4 ≠ 0 ∧
      2 ^ State.reset.cfg.addrW < 0xFFFFFF04 + 0x100 := by decide

/-- One act of each kind at the port of an `IDLE` SDHB. -/
theorem wit_OperandLoads :
    ∀ m ∈ ([.loadValue 7, .loadDesc (desc 8 .short true true .read 0),
        .loadWords (desc 8 .short true true .read 0).pack, .attach none, .attach (some [1, 0, 2]),
        .skipUnlessSuccess 1] : List ReqMsg),
      (presents m).seq = .idle ∧ (presents m).inbox = [m] ∧ (presents m).q.status = 0 ∧
        ({ presents m with q := { State.reset.q with status := 1 } } : State).q.status ≠ 0 :=
  fun _ _ => ⟨rfl, rfl, rfl, by simp⟩

theorem wit_StepRunsDecodedOperation :
    (presents (.present 0x31)).seq = .idle ∧ decode [0x31] = .ok (.reset 6, []) ∧
      (nested .rs_5 []).seq = .running (.reset 4 .rs_5) [.fifo .read (.ff_4 8 0 8 0x100000), .send (.sc_11r .success)] := by
  decide

theorem wit_RequestPort :
    (∃ t, step (nested .rs_5 []) = .next t) ∧ (nested .rs_5 []).busy = true ∧ (Pos.reset 4 .rs_5).op ≠ .send ∧
      Instr.send.wellFormed = true ∧ (∀ req rest, (presents (.loadValue 1)).inbox ≠ .present req :: rest) ∧
      ∃ t, step (presents (.loadValue 1)) = .next t :=
  ⟨⟨_, rfl⟩, rfl, by decide, rfl, (fun _ _ h => by cases h), _, rfl⟩

/-- INIT0 at the step that adds capability bits to others, with a voltage mask and a base clock; and an `IDLE` step. -/
theorem wit_ContextWriters :
    let s := { at' (.running (.init0 (.i0_3 0x00080000)) []) [] with
      ctx := { regbase := 0, hostver := 0, hostcaps := 0x80, voltages := 1, fundclk := 1 } }
    (∃ t, exec .init0 s = .next t) ∧ s.cfg.valid = true ∧ s.ctx.voltages ≠ 0 ∧ s.ctx.fundclk ≠ 0 ∧ (∃ t, exec .getclk (ready []) = .next t) ∧
      ∃ t, step (presents (.loadValue 1)) = .next t :=
  ⟨⟨_, rfl⟩, by decide, by decide, by decide, ⟨_, rfl⟩, _, rfl⟩

theorem wit_DescriptorFrame :
    (∃ t, exec .getclk (ready []) = .next t) ∧
      (∃ t, exec .send (at' (.running (.send (.sc_10 1)) []) [9]) = .next t) ∧
      ∃ t, exec .send (at' (.running (.send .sc_11) []) []) = .next t := ⟨⟨_, rfl⟩, ⟨_, rfl⟩, _, rfl⟩

theorem wit_RegisterFrame :
    (∃ t, exec (.reset 5) (ready []) = .next t ∧ t.q.flags ≠ (ready []).q.flags) ∧
      (∃ t, exec .getclk (ready []) = .next t ∧ t.q.status ≠ (ready []).q.status) ∧ (ready []).busy = false ∧
      (∃ t, exec (.reset 4) (nested .rs_5 []) = .next t) ∧ (nested .rs_5 []).busy = true :=
  ⟨⟨_, rfl, by decide⟩, ⟨_, rfl, by decide⟩, rfl, ⟨_, rfl⟩, rfl⟩

theorem wit_BufferFrame :
    (fifoAt' .read (.ff_6w 8 0 8 1 0xAA) []).buf.wf = true ∧
      (∃ t, exec .fifoRead (fifoAt' .read (.ff_6w 8 0 8 1 0xAA) []) = .next t) ∧
      ∃ t, exec .fifoWrite (fifoAt' .write (.ff_6k 8 0 8 1) []) = .next t := ⟨by decide, ⟨_, rfl⟩, _, rfl⟩

/-- For ElapsedCounter, StepKeepsInvariant, GoodStateNeverFaults and RegisterAddressesAligned. -/
theorem wit_GoodSteps :
    (fifoAt' .read (.ff_6w 8 0 8 1 0xAA) []).Inv ∧
      (∃ t, step (fifoAt' .read (.ff_6w 8 0 8 1 0xAA) []) = .next t) ∧
      (∀ p, (nested (.rs_4 0x04000000 p) []).Inv ∧ (nested (.rs_4 0x04000000 p) []).polling = some p ∧
        ∃ t, step (nested (.rs_4 0x04000000 p) []) = .next t) ∧ (ready []).Inv ∧ (∃ t, step (ready []) = .next t) ∧
      (ready []).configured = true :=
  ⟨fifo_inv, ⟨_, rfl⟩, fun p => ⟨nested_inv p, rfl, by cases p <;> exact ⟨_, rfl⟩⟩, ready_inv, ⟨_, rfl⟩, rfl⟩

/-- A step of each of the five event kinds, and one without an event: for OneAccessPerStep and AccessTable. -/
theorem wit_AccessTable :
    eventOf (exec .getbw (ready [0x22])) = some (.regRead .hostctl 0x1028 0x22) ∧
      eventOf (exec .init1 (at' (.running (.init1 .i1_4) []) [])) = some (.regWrite .intsig 0x1038 0) ∧
      eventOf (exec .fifoWrite (fifoAt' .write (.ff_6k 8 0 8 1) [])) = some (.bufRead 1 0x88776655) ∧
      eventOf (exec .fifoRead (fifoAt' .read (.ff_6w 8 0 8 1 7) [])) = some (.bufWrite 1 7) ∧
      eventOf (exec (.reset 4) (nested (.rs_4 0 .p2) [])) = some (.stall 50) ∧
      eventOf (exec .getclk (ready [])) = none := by decide

theorem wit_InterruptMaskWrites :
    eventOf (step (nested .rs_5 [])) = some (.regWrite .inten 0x1034 0) ∧
      eventOf (step (nested .rs_6 [])) = some (.regWrite .inten 0x1034 0x007F8033) ∧
      eventOf (step (at' (.running (.init1 .i1_4) []) [])) = some (.regWrite .intsig 0x1038 0) := by decide

/-- SEND at its last label, which ends at the outermost level. -/
theorem send_end_inv : (at' (.running (.send .sc_12) []) []).Inv :=
  inv_running rfl rfl (by decide) ⟨by decide, by decide⟩ (by decide) rfl rfl ⟨rfl, by decide, by decide⟩

/-- The data mover where it ends to SEND. -/
theorem fifo_end_inv : (fifoAt' .write (.ff_7w 0) []).Inv :=
  inv_running rfl (by decide) (by decide) ⟨by decide, by decide⟩ (by decide) rfl rfl
    ⟨⟨by decide, by decide⟩, by decide, rfl, trivial⟩

theorem wit_EndingStatuses :
    ((at' (.running (.send .sc_12) []) []).Inv ∧
      ∃ t, exec .send (at' (.running (.send .sc_12) []) []) = .next t ∧ t.seq = .idle) ∧
    ((ready []).Inv ∧ (ready []).busy = false ∧ ∃ t, exec .getclk (ready []) = .next t ∧ t.seq = .idle) ∧
    ((fifoAt' .write (.ff_7w 0) []).Inv ∧ .fifoWrite = (Pos.fifo .write (.ff_7w 0)).op ∧
      ∃ t, exec .fifoWrite (fifoAt' .write (.ff_7w 0) []) = .next t ∧
        t.seq = .running (.send (.sc_11r .success)) []) ∧
    decodeHeader 0x05 = .error .selector ∧ ∃ t, step { ready [] with inbox := [.present 0x05] } = .next t :=
  ⟨⟨send_end_inv, _, rfl, rfl⟩, ⟨ready_inv, rfl, _, rfl, rfl⟩, ⟨fifo_end_inv, rfl, _, rfl, rfl⟩, by decide, _, rfl⟩

/-- The four call situations of EndingAnOperation. -/
theorem wit_EndingAnOperation :
    (at' (.running (.send .sc_12) []) []).seq = .running (.send .sc_12) [] ∧
      (fifoAt' .read .ff_7 []).seq = .running (.fifo .read .ff_7) [.send (.sc_11r .success)] ∧
      (at' (.running (.reset 2 .rs_6) [.send .sc_8r]) []).seq = .running (.reset 2 .rs_6) [.send .sc_8r] ∧
      (nested .rs_6 []).seq = .running (.reset 4 .rs_6) [.fifo .read (.ff_4 8 0 8 0x100000), .send (.sc_11r .success)] := by
  decide

theorem wit_Init0Succeeds :
    let s := ready [0x00020000, 0x01286000]
    s.ready ∧ s.cfg.powerLevel (s.cfg.voltsFound ((s.afterRead .version).peek .caps)) = some 0x0E00 ∧
      s.ctx.voltages = 0 ∧ s.ctx.fundclk ≠ 0 := ⟨⟨rfl, rfl⟩, by decide, rfl, by decide⟩

/-- The three failures: no level advertised, a mask without a level, a zero clock field. -/
theorem wit_Init0Fails :
    (let s := ready [0, 0]
     s.ready ∧ s.ctx.voltages = 0 ∧ s.cfg.voltsFound ((s.afterRead .version).peek .caps) = 0) ∧
    (let s := { ready [0, 0] with ctx := { (ready []).ctx with voltages := 0x8000 } }
     s.ready ∧ s.ctx.voltages ≠ 0 ∧ s.cfg.powerLevel s.ctx.voltages = none) ∧
    (let s := { ready [0, 0x01000000] with ctx := { (ready []).ctx with voltages := 0x80, fundclk := 0 } }
     s.ready ∧ s.cfg.powerLevel s.ctx.voltages = some 0x0A00 ∧ s.ctx.fundclk = 0 ∧
       s.cfg.clockFound 0 ((s.afterRead .version).peek .caps) = 0) :=
  ⟨⟨⟨rfl, rfl⟩, rfl, by decide⟩, ⟨⟨rfl, rfl⟩, by decide, by decide⟩, ⟨rfl, rfl⟩, by decide, rfl, by decide⟩

/-- For Init1Completes, GetbwCompletes and GetclkUnsupported. -/
theorem wit_Ready : (ready [0x0E00]).ready := ⟨rfl, rfl⟩

/-- The last poll that may pass, and one more failed poll (`NPOLL` is 2). -/
theorem wit_ResetCompletes :
    ((∀ v ∈ [(0x01000000 : Word)], v &&& cfg.resetBits 1 ≠ 0) ∧
      ∀ v ∈ [(0x01000000 : Word), 0x01000000], v &&& cfg.resetBits 1 ≠ 0) ∧
    (ready [7, 0x01000000, 0]).ready ∧ cfg.valid = true ∧ (0 : Word) &&& cfg.resetBits 1 = 0 ∧ [(0x01000000 : Word)].length < cfg.npoll cfg.tReset ∧
      [(0x01000000 : Word), 0x01000000].length = cfg.npoll cfg.tReset ∧
      cfg.resetBits 1 = (if (1 : BitVec 3) &&& 1 ≠ 0 then cfg.hl.ccRstAll else 0) := ⟨all_two (by decide) (by decide), ⟨rfl, rfl⟩, by decide +kernel⟩

theorem wit_ResetTerminates : (ready []).ready ∧ (ready []).cfg.valid = true := ⟨⟨rfl, rfl⟩, by decide +kernel⟩

theorem wit_SendInvalidDescriptor :
    (readySend (desc 8 .none true false .read 0) []).ready ∧
      (desc 8 .none true false .read 0).preconditions cfg (some 512) = true ∧
      (desc 8 .none true false .read 0).crc = true ∧
      ({ desc 8 .short true true .read 4 with reserved := 1 } : Descriptor).preconditions cfg (some 512) = true ∧
      ({ desc 8 .short true true .read 4 with reserved := 1 } : Descriptor).reserved ≠ 0 ∧
      (desc 8 .none false false .read 0).preconditions cfg (some 512) = true ∧
      (desc 8 .none false false .read 0).reserved = 0 := ⟨⟨rfl, rfl⟩, by decide +kernel⟩

/-- Both sides of the equivalence at the bound of one block. -/
theorem wit_SendPreconditions :
    (readySend (desc 17 .short true true .read 516) []).ready ∧
      exec .send (readySend (desc 17 .short true true .read 516) []) = .refused .sendPrecondition ∧
      ∃ t, exec .send (readySend (desc 17 .short true true .read 512) []) = .next t :=
  ⟨⟨rfl, rfl⟩, rfl, _, rfl⟩

/-- For InhibitMask, SendProgramming, SendLongCapture, SendShortCapture, OutcomePriority, SendCommandTimeout and
SendDataPhase: SEND at the label each starts from, with each of the status words they tell apart. -/
theorem wit_SendLabels :
    (at' (.running (.send .sc_1) []) []).seq = .running (.send .sc_1) [] ∧
      (at' (.running (.send (.sc_2 3 .p1)) []) [0]).seq = .running (.send (.sc_2 3 .p1)) [] ∧
      (at' (.running (.send .sc_3) []) []).seq = .running (.send .sc_3) [] ∧
      (at' (.running (.send .sc_8r) []) []).seq = .running (.send .sc_8r) [] ∧
      (at' (.running (.send .sc_11) []) []).desc.bufsize = 0 ∧ (fifoAt' .read .ff_0 []).desc.bufsize ≠ 0 ∧
      (at' (.running (.send (.sc_11r .success)) []) []).seq = .running (.send (.sc_11r .success)) [] ∧
      (at' (.running (.send (.sc_11r .timeout)) []) []).seq = .running (.send (.sc_11r .timeout)) [] ∧
      Status.timeout ≠ Status.success ∧ cfg.valid = true ∧
      (0x00018001 : Word) &&& cfg.sl.isCmdTimeout ≠ 0 ∧ (0x00008001 : Word) &&& cfg.sl.isCmdTimeout = 0 ∧
      (0x00008001 : Word) &&& cfg.sl.isError ≠ 0 ∧ (0x00000001 : Word) &&& cfg.sl.isError = 0 ∧
      (0x00000001 : Word) &&& cfg.sl.isCmdComplete ≠ 0 ∧ (0x00000020 : Word) &&& cfg.sl.isCmdComplete = 0 ∧
      (desc 2 .long true false .read 0).rclass = .long ∧
      (at' (.running (.send (.sc_10 1)) []) [1, 2, 3, 4]).env.script = [1, 2, 3, 4] := by decide

/-- One failed read before the good one, and two failed ones (`NPOLL` is 2). -/
theorem wit_SendInhibitPoll :
    let d := desc 8 .short true true .read 0
    ((∀ v ∈ [(1 : Word)], v &&& cfg.inhibitMask d ≠ 0) ∧ ∀ v ∈ [(1 : Word), 2], v &&& cfg.inhibitMask d ≠ 0) ∧
      (readySend d [1, 0]).ready ∧ d.preconditions cfg (some 512) = true ∧ d.invalid = false ∧ cfg.valid = true ∧
      (0 : Word) &&& cfg.inhibitMask d = 0 ∧
      [(1 : Word)].length < cfg.npoll cfg.tInhibit ∧ [(1 : Word), 2].length = cfg.npoll cfg.tInhibit :=
  ⟨all_two (by decide) (by decide), ⟨rfl, rfl⟩, by decide +kernel⟩

theorem wit_SendShortCompletes :
    let d := desc 8 .short true true .read 0
    let e := desc 17 .long true false .read 512
    ((∀ v ∈ [(1 : Word)], v &&& cfg.inhibitMask d ≠ 0) ∧ ∀ v ∈ [(1 : Word), 1], v &&& cfg.inhibitMask e ≠ 0) ∧
      (readySend d ([1] ++ 0 :: (List.replicate 1 0 ++ 1 :: 0x1AA :: []))).ready ∧ cfg.valid = true ∧
      d.preconditions cfg (some 512) = true ∧ d.invalid = false ∧ d.bufsize = 0 ∧ d.rclass = .short ∧
      e.preconditions cfg (some 512) = true ∧ e.invalid = false ∧ e.bufsize ≠ 0 ∧
      (readySend e ([1] ++ 0 :: (List.replicate (cfg.npoll cfg.tCmd) 0 ++ []))).env.script = [1, 0, 0, 0] ∧
      (0 : Word) &&& cfg.inhibitMask d = 0 ∧ (0 : Word) &&& cfg.inhibitMask e = 0 ∧
      [(1 : Word)].length < cfg.npoll cfg.tInhibit ∧ 1 < cfg.npoll cfg.tCmd ∧ (1 : Word) &&& cfg.sl.isCmdTimeout = 0 ∧
      (1 : Word) &&& cfg.sl.isError = 0 ∧ (1 : Word) &&& cfg.sl.isCmdComplete ≠ 0 :=
  ⟨all_two (by decide) (by decide), ⟨rfl, rfl⟩, by decide +kernel⟩

theorem wit_SendWithoutDataTerminates :
    let s := readySend (desc 0 .none false false .read 0) []
    s.ready ∧ s.cfg.valid = true ∧ s.desc.preconditions s.cfg s.dbuf = true ∧ s.desc.bufsize = 0 :=
  ⟨⟨rfl, rfl⟩, by decide +kernel⟩

/-- Two chunks: a whole block of two words and a rest of one word. -/
def smallBlocks : Config.Params := { cfg with blk := 8 }

theorem smallBlocks_serves (d : Dir) (v : Word) (h : v = 0x31) (w0 w1 w2 : Word) :
    Serves smallBlocks d 12 [(v, [w0, w1]), (v, [w2])] := by
  subst h
  cases d <;>
    exact ⟨by decide, by decide, by decide, by decide, by simp [smallBlocks], by decide, by decide, by decide, by decide,
      by simp [smallBlocks], by simp [Serves, smallBlocks]⟩

theorem wit_FifoReadTransfers :
    let s := { fifoAt' .read .ff_0 [0x31, 1, 2, 0x31, 3, 2] with
      cfg := smallBlocks, desc := desc 18 .short true true .read 12 }
    s.seq = .running (.fifo .read .ff_0) [.send (.sc_11r .success)] ∧ s.cfg.valid = true ∧ s.buf.wf = true ∧
      s.desc.bufsize ≠ 0 ∧ s.desc.bufsize.toNat % 4 = 0 ∧
      Serves s.cfg .read s.desc.bufsize.toNat [(0x31, [1, 2]), (0x31, [3])] ∧
      s.env.script = [((0x31 : Word), [(1 : Word), 2]), (0x31, [3])].flatMap (fun c => c.1 :: c.2) ++ 2 :: [] :=
  ⟨rfl, by decide, by decide, by decide, by decide, smallBlocks_serves _ _ rfl _ _ _, rfl⟩

theorem wit_FifoWriteTransfers :
    let s := { fifoAt' .write .ff_0 [0x31, 0x31, 0] with
      cfg := smallBlocks, desc := desc 25 .short true true .write 12 }
    let chunks : List (Word × List Word) := [(0x31, [0x44332211, 0x88776655]), (0x31, [0x00000099])]
    s.seq = .running (.fifo .write .ff_0) [.send (.sc_11r .success)] ∧ s.cfg.valid = true ∧ s.desc.bufsize ≠ 0 ∧
      s.desc.bufsize.toNat % 4 = 0 ∧ Serves s.cfg .write s.desc.bufsize.toNat chunks ∧
      s.env.script = chunks.map (·.1) ++ 0 :: [] ∧
      ∀ (i : Nat) (h : i < (chunks.flatMap (·.2)).length), (chunks.flatMap (·.2))[i] = s.buf.readWord i :=
  ⟨rfl, by decide, by decide, by decide, smallBlocks_serves _ _ rfl _ _ _, rfl, by decide⟩

/-- The data mover at the labels FifoClassifies starts from, with each kind of status word. -/
theorem wit_FifoClassifies :
    (fifoAt' .read (.ff_3 8 0 8 0x100000) []).seq =
        .running (.fifo .read (.ff_3 8 0 8 0x100000)) [.send (.sc_11r .success)] ∧
      (fifoAt' .write (.ff_4 8 0 8 0x8000) []).seq =
        .running (.fifo .write (.ff_4 8 0 8 0x8000)) [.send (.sc_11r .success)] ∧
      (0x100000 : Word) &&& cfg.sl.isDataErr ≠ 0 ∧ (0x8000 : Word) &&& cfg.sl.isDataErr = 0 ∧
      (0x8000 : Word) &&& cfg.sl.isError ≠ 0 ∧ (0x10 : Word) &&& cfg.sl.isError = 0 ∧
      (0x10 : Word) &&& cfg.sl.isBufRdReady = 0 ∧ (0x10 : Word) &&& cfg.sl.isBufWrReady ≠ 0 := by decide

theorem wit_FifoPollTimeout :
    let s := fifoAt' .read (.ff_2 8 0 8 .start) [0, 0, 1]
    s.seq = .running (.fifo .read (.ff_2 8 0 8 .start)) [.send (.sc_11r .success)] ∧ s.cfg.valid = true ∧
      s.env.script = List.replicate (s.cfg.npoll s.cfg.tData) 0 ++ [1] := by decide

theorem wit_SetbwCompletes :
    (ready [0]).ready ∧ ((8 : Word) = 1 ∨ (8 : Word) = 4 ∨ (8 : Word) = 8) ∧
      ¬((2 : Word) = 1 ∨ (2 : Word) = 4 ∨ (2 : Word) = 8) := ⟨⟨rfl, rfl⟩, by decide +kernel⟩

theorem wit_SetclkOperandCheck :
    (ready []).ready ∧ (ready []).q.value = 0 ∧ (ready []).ctx.fundclk ≠ 0 ∧ (1 : Word) ≠ 0 := ⟨⟨rfl, rfl⟩, by decide +kernel⟩

/-- For DivisorBeforeV3 and DivisorFromV3: the last version before 3, the first from 3 on, a base clock that meets the
speed exactly and one that does not. -/
theorem wit_Divisors :
    cfg.valid = true ∧ (1 : BitVec 8) < cfg.hostverV3 ∧ cfg.hostverV3 ≤ (2 : BitVec 8) ∧
      (400000 : Word) ≤ 400000 ∧ (400000 : Word) < 400001 := by decide

theorem wit_SetclkCompletes :
    let s := { ready [1, 3] with q := { State.reset.q with value := 400000 } }
    ((∀ v ∈ [(1 : Word)], v &&& s.cfg.hl.ccStable = 0) ∧ ∀ v ∈ [(1 : Word), 1], v &&& s.cfg.hl.ccStable = 0) ∧
      s.ready ∧ s.cfg.valid = true ∧ s.q.value ≠ 0 ∧ s.ctx.fundclk ≠ 0 ∧ s.env.script = [1] ++ 3 :: [] ∧
      (3 : Word) &&& s.cfg.hl.ccStable ≠ 0 ∧ [(1 : Word)].length < s.cfg.npoll s.cfg.tClock ∧
      [(1 : Word), 1].length = s.cfg.npoll s.cfg.tClock :=
  ⟨all_two (by decide) (by decide), ⟨rfl, rfl⟩, by decide +kernel⟩

end Sys2Proof.Tests
end

section
/-! SUPPORT. What one step can be, said once (rules R12, R40, R41): the labels of all operations under one name, the
cases of `exec` and of `step`, and the one effect a label has on the ports and the elapsed counter. -/

namespace Sys2Proof.Machine

variable {s t : State}

/-! ## One label of any operation -/

/-- The label that stands at a position (rule R41), of whichever operation. -/
def labelAt : Pos → State → Out
  | .init0 l   => init0At l
  | .init1 l   => init1At l
  | .reset f l => resetAt f l
  | .send l    => sendAt l
  | .getbw l   => getbwAt l
  | .setbw l   => setbwAt l
  | .getclk    => fun s => .next (s.finish .unsupported)
  | .setclk l  => setclkAt l
  | .fifo d l  => fifoAt d l

/-- The operation of a position of the data mover is the data phase of its direction (rule R200). -/
@[simp] theorem op_fifo (d : Dir) (l : FifoPos) : (Pos.fifo d l).op = dataPhase d := by cases d <;> rfl

/-- The running operation runs its next label. -/
theorem exec_op {pos : Pos} {cs : List Pos} (h : s.seq = .running pos cs) : exec pos.op s = labelAt pos s := by
  cases pos with
  | init0 l => exact execInit0_at h
  | init1 l => exact execInit1_at h
  | reset f l => exact execReset_at h
  | send l => exact execSend_at h
  | getbw l => exact execGetbw_at h
  | setbw l => exact execSetbw_at h
  | getclk => simp [Pos.op, exec, execGetclk, h, labelAt]
  | setclk l => exact execSetclk_at h
  | fifo d l =>
    cases d with
    | read => exact execFifoRead_at h
    | write => exact execFifoWrite_at h

/-- While `IDLE` a requestable operation begins with its first label (rule R40). -/
theorem exec_idle {i : Instr} (hs : s.seq = .idle) (hi : i.wellFormed = true) :
    exec i s = begin i s (labelAt i.start) := by
  cases i with
  | fifoRead | fifoWrite => cases hi
  | init0 => simp [exec, execInit0, hs, labelAt, Instr.start]
  | init1 => simp [exec, execInit1, hs, labelAt, Instr.start]
  | reset f => simp [exec, execReset, hs, labelAt, Instr.start]
  | send => simp [exec, execSend, hs, labelAt, Instr.start]
  | getbw => simp [exec, execGetbw, hs, labelAt, Instr.start]
  | setbw => simp [exec, execSetbw, hs, labelAt, Instr.start]
  | getclk => simp [exec, execGetclk, hs, labelAt, Instr.start]
  | setclk => simp [exec, execSetclk, hs, labelAt, Instr.start]

/-- A requestable operation is held while another one runs (rule R40; log entry 15). -/
theorem exec_held {i : Instr} {pos : Pos} {cs : List Pos} (hs : s.seq = .running pos cs) (hop : pos.op ≠ i)
    (hi : i.wellFormed = true) : exec i s = .next s := by
  cases i with
  | fifoRead | fifoWrite => cases hi
  | init0 => cases pos <;> simp_all [exec, execInit0, Pos.op]
  | init1 => cases pos <;> simp_all [exec, execInit1, Pos.op]
  | reset f => cases pos <;> simp_all [exec, execReset, Pos.op]
  | send => cases pos <;> simp_all [exec, execSend, Pos.op]
  | getbw => cases pos <;> simp_all [exec, execGetbw, Pos.op]
  | setbw => cases pos <;> simp_all [exec, execSetbw, Pos.op]
  | getclk => cases pos <;> simp_all [exec, execGetclk, Pos.op]
  | setclk => cases pos <;> simp_all [exec, execSetclk, Pos.op]

/-- An internal sub-operation that is not the one running is refused (rule R2; log entry 15). -/
theorem exec_internal {i : Instr} (hi : i.wellFormed = false) (hs : ∀ pos cs, s.seq = .running pos cs → pos.op ≠ i) :
    exec i s = .refused .notRequestable := by
  cases i with
  | init0 | init1 | reset | send | getbw | setbw | getclk | setclk => cases hi
  | fifoRead =>
    simp only [exec, execFifoRead]
    split
    · exact absurd rfl (hs _ _ ‹_›)
    · rfl
  | fifoWrite =>
    simp only [exec, execFifoWrite]
    split
    · exact absurd rfl (hs _ _ ‹_›)
    · rfl

/-- What `exec i` does where it goes on. -/
inductive ExecCase (i : Instr) (s t : State) : Prop where
  /-- `IDLE`: the request is accepted and its first label runs. -/
  | accepted (hs : s.seq = .idle) (hi : i.wellFormed = true) (hc : s.configured = true)
      (h : labelAt i.start (s.accept i) = .next t)
  /-- The operation runs: its next label. -/
  | label (pos : Pos) (cs : List Pos) (hs : s.seq = .running pos cs) (hop : pos.op = i) (h : labelAt pos s = .next t)
  /-- Another operation runs: nothing. -/
  | held (pos : Pos) (cs : List Pos) (hs : s.seq = .running pos cs) (hop : pos.op ≠ i) (ht : t = s)

theorem exec_next {i : Instr} (h : exec i s = .next t) : ExecCase i s t := by
  cases hs : s.seq with
  | idle =>
    cases hi : i.wellFormed with
    | true =>
      rw [exec_idle hs hi] at h
      obtain ⟨hc, h⟩ := begin_next h
      exact .accepted hs hi hc h
    | false =>
      rw [exec_internal hi (by simp [hs])] at h
      cases h
  | running pos cs =>
    by_cases hop : pos.op = i
    · subst hop
      exact .label pos cs hs rfl (exec_op hs ▸ h)
    · cases hi : i.wellFormed with
      | true =>
        rw [exec_held hs hop hi] at h
        cases h
        exact .held pos cs hs hop rfl
      | false =>
        rw [exec_internal hi (by simp [hs, hop])] at h
        cases h

/-! ## One step -/

/-- The decoder gives requestable operations only (rules R2, R110). -/
theorem wellFormed_of_decodeHeader {req : Byte} {i : Instr} (h : decodeHeader req = .ok i) : i.wellFormed = true := by
  have hpick : ∀ {m zero one why}, pick m zero one why = .ok i → i = zero ∨ i = one := by
    intro m zero one why h
    unfold pick at h
    split_ifs at h <;> cases h <;> simp
  unfold decodeHeader at h
  split at h
  · cases h
  split at h
  · rcases hpick h with rfl | rfl <;> rfl
  · cases h; rfl
  · split_ifs at h; cases h; rfl
  · rcases hpick h with rfl | rfl <;> rfl
  · rcases hpick h with rfl | rfl <;> rfl
  · cases h

section port
variable {rest : List ReqMsg} {req : Byte} (hs : s.seq = .idle)
include hs

/-- While `IDLE`, a header that decodes runs its operation (rules R40, R110). -/
theorem step_request {i : Instr} (hi : s.inbox = .present req :: rest) (hd : decodeHeader req = .ok i) :
    step s = exec i s := by
  simp [step, fetch, hs, hi, hd]

/-- While `IDLE`, a header that does not decode is a reserved request (rule R112). -/
theorem step_reserved {why : DecodeReject} (hi : s.inbox = .present req :: rest) (hd : decodeHeader req = .error why) :
    step s = reservedRequest s := by
  simp [step, fetch, hs, hi, hd]

/-- While `IDLE`, an act that is no request is taken off the port. -/
theorem step_act {m : ReqMsg} (hi : s.inbox = m :: rest) (hm : ∀ req, m ≠ .present req) :
    step s = requesterAct m { s with inbox := rest } := by
  cases m with
  | present req => exact absurd rfl (hm req)
  | config | loadValue | loadDesc | loadWords | attach | skipUnlessSuccess => simp [step, fetch, hs, hi]

/-- While `IDLE`, nothing at the port changes nothing (log entry 26). -/
theorem step_wait (hi : s.inbox = []) : step s = .next s := by
  simp [step, fetch, hs, hi]

end port

/-- What a step does where it goes on. -/
inductive StepCase (s t : State) : Prop where
  /-- An operation runs: its next label. -/
  | label (pos : Pos) (cs : List Pos) (hs : s.seq = .running pos cs) (h : labelAt pos s = .next t)
  /-- A request is accepted and its first label runs. -/
  | request (i : Instr) (hs : s.seq = .idle) (hi : i.wellFormed = true) (hc : s.configured = true)
      (h : labelAt i.start (s.accept i) = .next t)
  /-- A reserved request ends at once. -/
  | reserved (hs : s.seq = .idle) (h : reservedRequest s = .next t)
  /-- Another act of the requester. -/
  | act (m : ReqMsg) (rest : List ReqMsg) (hs : s.seq = .idle) (hi : s.inbox = m :: rest)
      (h : requesterAct m { s with inbox := rest } = .next t)
  /-- Nothing waits at the port. -/
  | wait (hs : s.seq = .idle) (ht : t = s)

theorem step_next (h : step s = .next t) : StepCase s t := by
  cases hs : s.seq with
  | running pos cs => exact .label pos cs hs (exec_op hs ▸ step_running hs ▸ h)
  | idle =>
    cases hi : s.inbox with
    | nil =>
      rw [step_wait hs hi] at h
      cases h
      exact .wait hs rfl
    | cons m rest =>
      by_cases hm : ∃ req, m = .present req
      · obtain ⟨req, rfl⟩ := hm
        cases hd : decodeHeader req with
        | error why => exact .reserved hs (step_reserved hs hi hd ▸ h)
        | ok i =>
          have hw := wellFormed_of_decodeHeader hd
          rw [step_request hs hi hd, exec_idle hs hw] at h
          obtain ⟨hc, h⟩ := begin_next h
          exact .request i hs hw hc h
      · exact .act m rest hs hi (step_act hs hi (fun req hr => hm ⟨req, hr⟩) ▸ h)

/-! ## The effect of one label on the ports and on the elapsed counter -/

/-- What a label of operation `i` does to the event history, the environment and the elapsed counter, by where it stands
in a poll (rules R12, R13): at most one access, of a register or a buffer word of the operation's own (rules R50, R83). -/
inductive Effect (i : Instr) (s t : State) : Option PollPos → Prop where
  | silent (hh : t.hist = s.hist) (hv : t.env = s.env) (he : t.elapsed = s.elapsed) : Effect i s t none
  | read (r : Reg) (hr : r ∈ i.readsOf) (hh : t.hist = s.readOf r (s.peek r) :: s.hist) (hv : t.env = s.env.next)
      (he : t.elapsed = s.elapsed) : Effect i s t none
  | write (r : Reg) (v : Word) (hr : r ∈ i.writesOf) (hh : t.hist = s.writeOf r v :: s.hist) (hv : t.env = s.env)
      (he : t.elapsed = s.elapsed) : Effect i s t none
  | bufRead (n : Nat) (v : Word) (hi : i = .fifoWrite) (hn : s.bufIndexOk n = true)
      (hh : t.hist = .bufRead n v :: s.hist) (hv : t.env = s.env) (he : t.elapsed = s.elapsed) : Effect i s t none
  | bufWrite (n : Nat) (v : Word) (hi : i = .fifoRead) (hn : s.bufIndexOk n = true)
      (hh : t.hist = .bufWrite n v :: s.hist) (hv : t.env = s.env) (he : t.elapsed = s.elapsed) : Effect i s t none
  | pollStart (hh : t.hist = s.hist) (hv : t.env = s.env) (he : t.elapsed = 0) : Effect i s t (some .start)
  | pollRead (r : Reg) (hr : r ∈ i.readsOf) (hh : t.hist = s.readOf r (s.peek r) :: s.hist) (hv : t.env = s.env.next)
      (he : t.elapsed = s.elapsed) : Effect i s t (some .p1)
  | pollStall (hh : t.hist = .stall s.cfg.tStep :: s.hist) (hv : t.env = s.env)
      (he : t.elapsed = (s.elapsed + s.cfg.tStep) % 2 ^ s.cfg.elapsedW) : Effect i s t (some .p2)

/-- The effect of a poll's step (rule R13). -/
theorem pollUntil_effect {i : Instr} {r : Reg} {pred : Word → Bool} {T : Nat} {here : PollPos → Pos} {done : Word → Pos}
    {p : PollPos} (hr : r ∈ i.readsOf) (h : pollUntil r pred T here done p s = .next t) : Effect i s t (some p) := by
  rcases pollUntil_next h with ⟨rfl, rfl⟩ | ⟨rfl, -, rfl⟩ | ⟨rfl, -, rfl⟩ | ⟨rfl, -, rfl⟩ | ⟨rfl, -, rfl⟩
  · exact .pollStart rfl rfl rfl
  · exact .pollRead r hr rfl rfl rfl
  · exact .pollRead r hr rfl rfl rfl
  · exact .pollStall rfl rfl rfl
  · exact .pollStall rfl rfl rfl

/-- I0_4 ends with `DeviceError` or goes on, by the voltage mask it leaves in `C.VOLTAGES` (rules R153, R156). -/
theorem init0At_i0_4_next {caps : Word} (h : init0At (.i0_4 caps) s = .next t) :
    ∃ volts, volts = (if s.ctx.voltages = 0 then s.cfg.voltsFound caps else s.ctx.voltages) ∧
      t = if volts = 0 then State.finish .deviceError { s with ctx := { s.ctx with voltages := volts } }
          else State.goto (.init0 (.i0_5 caps)) { s with ctx := { s.ctx with voltages := volts } } := by
  refine ⟨_, rfl, ?_⟩
  simp only [init0At] at h
  generalize (if s.ctx.voltages = 0 then s.cfg.voltsFound caps else s.ctx.voltages) = volts at h ⊢
  split at h <;> cases h
  · rw [if_pos ‹_›]
  · rw [if_neg ‹_›]

theorem init0At_effect {l : Init0Pos} (h : init0At l s = .next t) : Effect .init0 s t none := by
  cases l with
  | i0_1 => cases h; exact .read .version (by decide) rfl rfl rfl
  | i0_2 => cases h; exact .read .caps (by decide) rfl rfl rfl
  | i0_3 caps => cases h; exact .silent rfl rfl rfl
  | i0_4 caps =>
    obtain ⟨volts, -, rfl⟩ := init0At_i0_4_next h
    split <;> exact .silent rfl rfl rfl
  | i0_5 caps =>
    simp only [init0At] at h
    split at h
    · cases h; exact .silent rfl rfl rfl
    · cases h; exact .write .hostctl _ (by decide) rfl rfl rfl
  | i0_6 caps => cases h; exact .silent rfl rfl rfl

theorem init1At_effect {l : Init1Pos} (h : init1At l s = .next t) : Effect .init1 s t none := by
  cases l with
  | i1_1 => cases h; exact .read .hostctl (by decide) rfl rfl rfl
  | i1_2 v => cases h; exact .write .hostctl _ (by decide) rfl rfl rfl
  | i1_3 => cases h; exact .write .inten _ (by decide) rfl rfl rfl
  | i1_4 => cases h; exact .write .intsig _ (by decide) rfl rfl rfl

theorem resetAt_effect {f : BitVec 3} {l : ResetPos} (h : resetAt f l s = .next t) :
    Effect (.reset f) s t (Pos.reset f l).poll := by
  cases l with
  | rs_1 => cases h; exact .silent rfl rfl rfl
  | rs_2 bits => cases h; exact .read .clkctl (.head _) rfl rfl rfl
  | rs_3 bits v => cases h; exact .write .clkctl _ (.head _) rfl rfl rfl
  | rs_4 bits p => unfold resetAt at h; exact pollUntil_effect (.head _) h
  | rs_5 => cases h; exact .write .inten _ (.tail _ (.head _)) rfl rfl rfl
  | rs_6 => cases h; exact .write .inten _ (.tail _ (.head _)) rfl rfl rfl

/-- SC_10 reads the first response register or nothing (rules R194 to R196). -/
theorem captureAt_effect {v : Word} (h : captureAt v s = .next t) : Effect .send s t none := by
  unfold captureAt at h
  split at h
  · split at h <;> cases h
    · exact .silent rfl rfl rfl
    · exact .read .rsp0 (by decide) rfl rfl rfl
    · exact .read .rsp0 (by decide) rfl rfl rfl
    · exact .read .rsp0 (by decide) rfl rfl rfl
  · cases h; exact .silent rfl rfl rfl

theorem sendAt_effect {l : SendPos} (h : sendAt l s = .next t) : Effect .send s t (Pos.send l).poll := by
  cases l with
  | sc_0 =>
    simp only [sendAt] at h
    split at h
    · cases h; split <;> exact .silent rfl rfl rfl
    · cases h
  | sc_1 => cases h; exact .silent rfl rfl rfl
  | sc_2 mask p => unfold sendAt at h; exact pollUntil_effect (by decide) h
  | sc_3 => cases h; exact .write .intsts _ (by decide) rfl rfl rfl
  | sc_4 =>
    cases h
    split
    · exact .write .blkszcnt _ (by decide) rfl rfl rfl
    · exact .silent rfl rfl rfl
  | sc_5 => cases h; exact .write .arg _ (by decide) rfl rfl rfl
  | sc_6 => cases h; exact .write .cmd _ (by decide) rfl rfl rfl
  | sc_7 p => unfold sendAt at h; exact pollUntil_effect (by decide) h
  | sc_8 v => cases h; split <;> exact .silent rfl rfl rfl
  | sc_8r => cases h; exact .silent rfl rfl rfl
  | sc_9 v => cases h; split <;> exact .silent rfl rfl rfl
  | sc_10 v => exact captureAt_effect h
  | sc_10b r0 => cases h; exact .read .rsp1 (by decide) rfl rfl rfl
  | sc_10c r0 r1 => cases h; exact .read .rsp2 (by decide) rfl rfl rfl
  | sc_10d r0 r1 r2 => cases h; exact .read .rsp3 (by decide) rfl rfl rfl
  | sc_11 => cases h; split <;> exact .silent rfl rfl rfl
  | sc_11r st => cases h; split <;> exact .silent rfl rfl rfl
  | sc_12 => cases h; exact .silent rfl rfl rfl

theorem getbwAt_effect {l : GetbwPos} (h : getbwAt l s = .next t) : Effect .getbw s t none := by
  cases l with
  | gb_1 => cases h; exact .read .hostctl (by decide) rfl rfl rfl
  | gb_2 v => cases h; exact .silent rfl rfl rfl

theorem setbwAt_effect {l : SetbwPos} (h : setbwAt l s = .next t) : Effect .setbw s t none := by
  cases l with
  | sb_0 => cases h; split <;> exact .silent rfl rfl rfl
  | sb_1 => cases h; exact .read .hostctl (by decide) rfl rfl rfl
  | sb_2 v => cases h; exact .write .hostctl _ (by decide) rfl rfl rfl

theorem setclkAt_effect {l : SetclkPos} (h : setclkAt l s = .next t) : Effect .setclk s t (Pos.setclk l).poll := by
  cases l with
  | ck_0 => cases h; split <;> exact .silent rfl rfl rfl
  | ck_1 => cases h; exact .silent rfl rfl rfl
  | ck_2 d => cases h; exact .silent rfl rfl rfl
  | ck_3 clk => cases h; exact .write .clkctl _ (by decide) rfl rfl rfl
  | ck_4 clk p => unfold setclkAt at h; exact pollUntil_effect (by decide) h
  | ck_5 clk => cases h; exact .write .clkctl _ (by decide) rfl rfl rfl

theorem fifoAt_effect {d : Dir} {l : FifoPos} (h : fifoAt d l s = .next t) :
    Effect (dataPhase d) s t (Pos.fifo d l).poll := by
  have hread : Reg.intsts ∈ (dataPhase d).readsOf := by cases d <;> decide
  have hwrite : Reg.intsts ∈ (dataPhase d).writesOf := by cases d <;> decide
  cases l with
  | ff_0 => cases h; exact .silent rfl rfl rfl
  | ff_1 rem idx => cases h; exact .silent rfl rfl rfl
  | ff_2 rem idx n p => unfold fifoAt at h; exact pollUntil_effect hread h
  | ff_3 rem idx n v => cases h; split <;> exact .silent rfl rfl rfl
  | ff_4 rem idx n v => cases h; split <;> exact .silent rfl rfl rfl
  | ff_5 rem idx n v => cases h; exact .silent rfl rfl rfl
  | ff_6 rem idx n v => cases h; exact .write .intsts v hwrite rfl rfl rfl
  | ff_6k rem idx n k =>
    simp only [fifoAt] at h
    split at h
    · rcases wordFetch_next h with ⟨rfl, h⟩ | ⟨rfl, hn, h⟩ <;> cases h
      · exact .read .data (by decide) rfl rfl rfl
      · exact .bufRead _ _ rfl hn rfl rfl rfl
    · cases h; exact .silent rfl rfl rfl
  | ff_6w rem idx n k w =>
    rcases wordStore_next h with ⟨rfl, hn, h⟩ | ⟨rfl, h⟩ <;> cases h
    · exact .bufWrite _ _ rfl hn rfl rfl rfl
    · exact .write .data w (by decide) rfl rfl rfl
  | ff_7 => cases h; exact .read .intsts hread rfl rfl rfl
  | ff_7w v =>
    cases h
    split
    · exact .write .intsts _ hwrite rfl rfl rfl
    · exact .silent rfl rfl rfl

/-- A label has one effect on the ports and the counter, by where it stands in a poll. -/
theorem labelAt_effect {pos : Pos} (h : labelAt pos s = .next t) : Effect pos.op s t pos.poll := by
  cases pos with
  | init0 l => exact init0At_effect h
  | init1 l => exact init1At_effect h
  | reset f l => exact resetAt_effect h
  | send l => exact sendAt_effect h
  | getbw l => exact getbwAt_effect h
  | setbw l => exact setbwAt_effect h
  | getclk => cases h; exact .silent rfl rfl rfl
  | setclk l => exact setclkAt_effect h
  | fifo d l => exact op_fifo d l ▸ fifoAt_effect h

/-- No operation begins inside a poll. -/
theorem start_poll (i : Instr) : i.start.poll = none := by cases i <;> rfl

/-- The first label belongs to its operation (rule R41). -/
theorem start_op (i : Instr) : i.start.op = i := by cases i <;> rfl

/-- Accepting a request has no effect of its own: a label's effect after it is one before it. -/
theorem Effect.of_accept {i j : Instr} {p : Option PollPos} (h : Effect i (s.accept j) t p) : Effect i s t p := by
  cases h with
  | silent hh hv he => exact .silent hh hv he
  | read r hr hh hv he => exact .read r hr hh hv he
  | write r v hr hh hv he => exact .write r v hr hh hv he
  | bufRead n v hi hn hh hv he => exact .bufRead n v hi hn hh hv he
  | bufWrite n v hi hn hh hv he => exact .bufWrite n v hi hn hh hv he
  | pollStart hh hv he => exact .pollStart hh hv he
  | pollRead r hr hh hv he => exact .pollRead r hr hh hv he
  | pollStall hh hv he => exact .pollStall hh hv he

/-- The first label of an accepted request has an effect outside any poll. -/
theorem accepted_effect {i : Instr} (h : labelAt i.start (s.accept i) = .next t) : Effect i s t none := by
  have h := (labelAt_effect h).of_accept
  rwa [start_op, start_poll] at h

/-- One step of an operation has one effect on the ports and the counter, at some position of a poll or none. -/
theorem exec_effect {i : Instr} (h : exec i s = .next t) : ∃ p, Effect i s t p := by
  cases exec_next h with
  | accepted hs hi hc h => exact ⟨_, accepted_effect h⟩
  | label pos cs hs hop h => exact ⟨_, hop ▸ labelAt_effect h⟩
  | held pos cs hs hop ht => exact ⟨none, by subst ht; exact .silent rfl rfl rfl⟩

end Sys2Proof.Machine
end

section
/-! SUPPORT. The invariant under one step (rules R41, R42, R182, R214, R216): what it asks of the callers apart from the
position, that it looks at few fields only, how it passes through a jump, a call and an ending, and then each label. -/

namespace Sys2Proof.Machine

variable {s t u : State}

/-! ## Two states alike in what the invariant looks at -/

/-- `t` differs from `s` only in fields the invariant does not look at, in the position, or in the elapsed counter; the
buffer stays canonical and the counter within its width. -/
structure Alike (s t : State) : Prop where
  cfg : t.cfg = s.cfg
  regbase : t.ctx.regbase = s.ctx.regbase
  desc : t.desc = { s.desc with resp := t.desc.resp }
  dbuf : t.dbuf = s.dbuf
  configured : t.configured = s.configured
  started : s.started = true → t.started = true
  elapsed : s.elapsed < 2 ^ s.cfg.elapsedW → t.elapsed < 2 ^ s.cfg.elapsedW
  buf : s.buf.wf = true → t.buf.wf = true

namespace Alike

theorem refl (s : State) : Alike s s := ⟨rfl, rfl, rfl, rfl, rfl, id, id, id⟩

theorem afterRead (s : State) (r : Reg) : Alike s (s.afterRead r) := ⟨rfl, rfl, rfl, rfl, rfl, id, id, id⟩

theorem regWrite (s : State) (r : Reg) (v : Word) : Alike s (s.regWrite r v) := ⟨rfl, rfl, rfl, rfl, rfl, id, id, id⟩

theorem goto (a : Alike s u) (pos : Pos) : Alike s (u.goto pos) := { a with }

theorem call (a : Alike s u) (callee ret : Pos) : Alike s (u.call callee ret) := { a with }

theorem finish (a : Alike s u) (st : Status) : Alike s (u.finish st) := { a with }

/-- A new context with the same base (rule R20). -/
theorem withCtx (a : Alike s u) {c : Context} (hc : c.regbase = u.ctx.regbase) : Alike s { u with ctx := c } :=
  { a with regbase := hc.trans a.regbase }

/-- New response words (rule R31). -/
theorem withResp (a : Alike s u) (resp : Vector Word 4) : Alike s { u with desc := { u.desc with resp := resp } } :=
  { a with desc := by rw [a.desc] }

/-- New operand and result registers (rule R33). -/
theorem withQ (a : Alike s u) (q : OperandRegs) : Alike s { u with q := q } := { a with }

/-- A new event (rule R12). -/
theorem withHist (a : Alike s u) (hist : List Event) : Alike s { u with hist := hist } := { a with }

/-- A word stored in the buffer (rule R86). -/
theorem withWord (a : Alike s u) (i : Nat) (w : Word) : Alike s { u with buf := u.buf.writeWord i w } :=
  { a with buf := fun h => Memory.wf_writeWord (a.buf h) }

theorem accept (s : State) (i : Instr) : Alike s (s.accept i) := ⟨rfl, rfl, rfl, rfl, rfl, fun _ => rfl, id, id⟩

/-- The start of a poll (rule R13). -/
theorem pollStart (s : State) : Alike s { s with elapsed := 0 } :=
  ⟨rfl, rfl, rfl, rfl, rfl, id, fun _ => Nat.two_pow_pos _, id⟩

/-- The stall of a poll (rule R13). -/
theorem stall_tick (s : State) : Alike s s.stall.tick :=
  ⟨rfl, rfl, rfl, rfl, rfl, id, fun _ => Nat.mod_lt _ (Nat.two_pow_pos _), id⟩

variable (a : Alike s t)
include a

theorem sendOk : t.sendOk ↔ s.sendOk := by
  unfold State.sendOk
  rw [a.cfg, a.dbuf, a.desc]
  rfl

theorem bufsize : t.desc.bufsize = s.desc.bufsize := by rw [a.desc]

theorem hasData : t.desc.hasData = s.desc.hasData := by rw [a.desc]; rfl

theorem dir : t.desc.dir = s.desc.dir := by rw [a.desc]

theorem moved {rem idx : Word} : Moved t rem idx ↔ Moved s rem idx := by rw [Moved, Moved, a.bufsize]

theorem inChunk {rem idx n : Word} : InChunk t rem idx n ↔ InChunk s rem idx n := by
  rw [InChunk, InChunk, a.moved, a.cfg]

/-- Where the counter agrees too, the same positions are good. -/
theorem posOk (he : t.elapsed = s.elapsed) (pos : Pos) : PosOk t pos ↔ PosOk s pos := by
  have hpoll : ∀ T p, PollOk T t p ↔ PollOk T s p := by
    intro T p
    cases p <;> simp [PollOk, he]
  have hfifo : ∀ l, FifoOk t l ↔ FifoOk s l := by
    intro l
    cases l <;> simp [FifoOk, a.moved, a.inChunk, a.cfg, hpoll]
  cases pos with
  | init0 | init1 | getbw | setbw | getclk => rfl
  | reset f l => cases l <;> simp [PosOk, a.cfg, hpoll]
  | send l => cases l <;> simp [PosOk, a.cfg, a.sendOk, hpoll]
  | setclk l => cases l <;> simp [PosOk, a.cfg, hpoll]
  | fifo d l => simp [PosOk, a.sendOk, a.hasData, a.dir, hfifo]

end Alike

/-! ## The callers apart from the position -/

/-- The call structure of rule R41 without the position itself: who called operation `i`, and what the caller needs when
it goes on. -/
inductive CallersOk (s : State) (i : Instr) : List Pos → Prop where
  | outermost (hi : i.wellFormed = true) : CallersOk s i []
  | resetFromSend (hi : i = .reset commandLine) (hsend : s.sendOk) : CallersOk s i [.send .sc_8r]
  | fifoFromSend (d : Dir) (st : Status) (hi : i = dataPhase d) (hsend : s.sendOk) : CallersOk s i [.send (.sc_11r st)]
  | resetFromFifo (d : Dir) (rem idx n v : Word) (st : Status) (hi : i = .reset dataLine) (hsend : s.sendOk)
      (hdata : s.desc.hasData = true) (hdir : d = s.desc.dir) (hchunk : InChunk s rem idx n) :
      CallersOk s i [.fifo d (.ff_4 rem idx n v), .send (.sc_11r st)]

theorem op_eq_reset {pos : Pos} {f : BitVec 3} (h : pos.op = .reset f) : ∃ l, pos = .reset f l := by
  cases pos with
  | reset f' l => cases h; exact ⟨l, rfl⟩
  | fifo d l => cases d <;> cases h
  | init0 | init1 | send | getbw | setbw | getclk | setclk => cases h

theorem op_eq_dataPhase {pos : Pos} {d : Dir} (h : pos.op = dataPhase d) : ∃ l, pos = .fifo d l := by
  cases pos with
  | fifo d' l => cases d <;> cases d' <;> cases h <;> exact ⟨l, rfl⟩
  | init0 | init1 | reset | send | getbw | setbw | getclk | setclk => cases d <;> cases h

/-- The call structure is the position and, apart from it, the callers. -/
theorem stackOk_iff {pos : Pos} {cs : List Pos} : StackOk s pos cs ↔ PosOk s pos ∧ CallersOk s pos.op cs := by
  constructor
  · intro h
    unfold StackOk at h
    split at h
    · exact ⟨h.2, .outermost h.1⟩
    · obtain ⟨rfl, hpos, hsend⟩ := h
      exact ⟨hpos, .resetFromSend rfl hsend⟩
    · exact ⟨h, .fifoFromSend _ _ (op_fifo _ _) h.1⟩
    · obtain ⟨rfl, hpos, hsend, hdata, hdir, hchunk⟩ := h
      exact ⟨hpos, .resetFromFifo _ _ _ _ _ _ rfl hsend hdata hdir hchunk⟩
    · exact h.elim
  · rintro ⟨hpos, hcs⟩
    cases hcs with
    | outermost hi => simpa only [StackOk] using ⟨hi, hpos⟩
    | resetFromSend hi hsend =>
      obtain ⟨l, rfl⟩ := op_eq_reset hi
      exact ⟨rfl, hpos, hsend⟩
    | fifoFromSend d st hi hsend =>
      obtain ⟨l, rfl⟩ := op_eq_dataPhase hi
      exact hpos
    | resetFromFifo d rem idx n v st hi hsend hdata hdir hchunk =>
      obtain ⟨l, rfl⟩ := op_eq_reset hi
      exact ⟨rfl, hpos, hsend, hdata, hdir, hchunk⟩

/-- The callers do not look at the counter. -/
theorem CallersOk.of_alike {i : Instr} {cs : List Pos} (h : CallersOk s i cs) (a : Alike s t) : CallersOk t i cs := by
  cases h with
  | outermost hi => exact .outermost hi
  | resetFromSend hi hsend => exact .resetFromSend hi (a.sendOk.2 hsend)
  | fifoFromSend d st hi hsend => exact .fifoFromSend d st hi (a.sendOk.2 hsend)
  | resetFromFifo d rem idx n v st hi hsend hdata hdir hchunk =>
    exact .resetFromFifo d rem idx n v st hi (a.sendOk.2 hsend) (a.hasData ▸ hdata) (hdir.trans a.dir.symm)
      (a.inChunk.2 hchunk)

/-- SEND is never called by another operation. -/
theorem CallersOk.send_eq_nil {cs : List Pos} (h : CallersOk s .send cs) : cs = [] := by
  cases h with
  | outermost => rfl
  | resetFromSend hi => cases hi
  | fifoFromSend d st hi => cases d <;> cases hi
  | resetFromFifo d rem idx n v st hi => cases hi

/-- The data mover is called from SC_11. -/
theorem CallersOk.fifo_eq {d : Dir} {cs : List Pos} (h : CallersOk s (dataPhase d) cs) :
    ∃ st, cs = [.send (.sc_11r st)] := by
  cases h with
  | outermost hi => cases d <;> cases hi
  | resetFromSend hi => cases d <;> cases hi
  | fifoFromSend d' st hi => exact ⟨st, rfl⟩
  | resetFromFifo d' rem idx n v st hi => cases d <;> cases hi

/-- The caller goes on with the status of the ended operation at a good position (rule R281). -/
theorem CallersOk.resume {i : Instr} {c : Pos} {cs : List Pos} {st : Status} (h : CallersOk s i (c :: cs))
    (hst : st ∈ i.endings) : StackOk s (c.resume st) cs := by
  cases h with
  | resetFromSend hi hsend => exact ⟨rfl, hsend⟩
  | fifoFromSend d st' hi hsend =>
    subst hi
    refine ⟨rfl, hsend, ?_⟩
    cases d <;> exact hst
  | resetFromFifo d rem idx n v st' hi hsend hdata hdir hchunk => exact ⟨hsend, hdata, hdir, hchunk⟩

/-! ## The invariant through a jump, a call and an ending -/

namespace State.Inv

/-- The parts of the invariant apart from the call structure pass to a state that is alike. -/
theorem of_alike (h : s.Inv) (hc : s.configured = true) (a : Alike s t)
    (hseq : ∀ pos cs, t.seq = .running pos cs → t.started = true ∧ StackOk t pos cs) : t.Inv where
  buf := a.buf h.buf
  cfg _ := by
    rw [baseOk, a.cfg, a.regbase]
    exact h.cfg hc
  loaded _ := a.configured.trans hc
  elapsed := by
    rw [a.cfg]
    exact a.elapsed h.elapsed
  seq := hseq

/-- An `IDLE` state with the loaded flags, the record and the counter of a good one is good where its buffer and its
loaded base are. -/
theorem of_idle (h : s.Inv) (hseq : t.seq = .idle) (hcfg : t.cfg = s.cfg) (he : t.elapsed = s.elapsed)
    (hbuf : t.buf.wf = true) (hload : t.configured = true → t.cfg.valid = true ∧ t.baseOk)
    (hstart : t.started = true → t.configured = true) : t.Inv where
  buf := hbuf
  cfg := hload
  loaded := hstart
  elapsed := by
    rw [he, hcfg]
    exact h.elapsed
  seq pos cs hr := by
    rw [hseq] at hr
    cases hr

section running
variable {pos : Pos} {cs : List Pos} (h : s.Inv) (hs : s.seq = .running pos cs)
include h hs

theorem configured_of_running : s.configured = true := h.loaded (h.seq pos cs hs).1

theorem valid_of_running : s.cfg.valid = true := (h.cfg (h.configured_of_running hs)).1

theorem posOk : PosOk s pos := (stackOk_iff.1 (h.seq pos cs hs).2).1

theorem callersOk : CallersOk s pos.op cs := (stackOk_iff.1 (h.seq pos cs hs).2).2

/-- A jump within the operation, with the counter as it may be, keeps the invariant (rule R11). -/
theorem jump {pos' : Pos} (a : Alike s u) (hu : u.seq = s.seq) (hop : pos'.op = pos.op) (hpos : PosOk u pos') :
    (u.goto pos').Inv := by
  refine h.of_alike (h.configured_of_running hs) (a.goto pos') fun p c hr => ?_
  rw [goto_seq, hu, hs] at hr
  cases hr
  refine ⟨a.started (h.seq pos cs hs).1, stackOk_iff.2 ⟨?_, hop ▸ (h.callersOk hs).of_alike (a.goto _)⟩⟩
  exact (((Alike.refl u).goto pos').posOk rfl pos').2 hpos

/-- A jump within the operation that leaves the counter alone keeps the invariant (rule R11). -/
theorem goto {pos' : Pos} (a : Alike s u) (hu : u.seq = s.seq) (he : u.elapsed = s.elapsed) (hop : pos'.op = pos.op)
    (hpos : PosOk s pos') : (u.goto pos').Inv :=
  h.jump hs a hu hop ((a.posOk he pos').2 hpos)

/-- A call keeps the invariant where the called operation may be called (rules R41, R281). -/
theorem call {callee ret : Pos} (hpos : PosOk s callee) (hcs : CallersOk s callee.op (ret :: cs)) :
    (s.call callee ret).Inv := by
  have a := (Alike.refl s).call callee ret
  refine h.of_alike (h.configured_of_running hs) a fun p c hr => ?_
  rw [call_seq, hs] at hr
  cases hr
  exact ⟨(h.seq pos cs hs).1, stackOk_iff.2 ⟨(a.posOk rfl _).2 hpos, hcs.of_alike a⟩⟩

/-- An ending of the operation keeps the invariant (rules R280, R281). -/
theorem finish {st : Status} (a : Alike s u) (hu : u.seq = s.seq) (hst : st ∈ pos.op.endings) : (u.finish st).Inv := by
  refine h.of_alike (h.configured_of_running hs) (a.finish st) fun p c hr => ?_
  refine ⟨a.started (h.seq pos cs hs).1, ?_⟩
  have hcs := (h.callersOk hs).of_alike (a.finish st)
  have hcallers : u.seq.callers = cs := by rw [hu, hs]; rfl
  cases cs with
  | nil =>
    rw [finish_outermost u st hcallers] at hr
    cases hr
  | cons c' cs' =>
    have hseq : (u.finish st).seq = .running (c'.resume st) cs' := by rw [finish_nested u st c' cs' hcallers]
    rw [hseq] at hr
    cases hr
    exact hcs.resume hst

/-- A poll's step keeps the invariant, where its position is good whenever the counter has not passed the timeout, and
the position after it is good (rule R13). -/
theorem poll {r : Reg} {pred : Word → Bool} {T : Nat} {here : PollPos → Pos} {done : Word → Pos} {p : PollPos}
    (ht : pollUntil r pred T here done p s = .next t) (hop : ∀ q, (here q).op = pos.op)
    (hdone : ∀ v, (done v).op = pos.op) (hin : PollOk T s p)
    (hhere : ∀ u q, Alike s u → PollOk T u q → PosOk u (here q)) (hpass : ∀ v, PosOk s (done v))
    (hst : .timeout ∈ pos.op.endings) : t.Inv := by
  rcases pollUntil_next ht with ⟨rfl, rfl⟩ | ⟨rfl, -, rfl⟩ | ⟨rfl, -, rfl⟩ | ⟨rfl, hT, rfl⟩ | ⟨rfl, -, rfl⟩
  · exact h.jump hs (.pollStart s) rfl (hop _) (hhere _ _ (.pollStart s) (Nat.zero_le T))
  · exact h.goto hs (.afterRead s r) rfl rfl (hdone _) (hpass _)
  · exact h.jump hs (.afterRead s r) rfl (hop _) (hhere _ _ (.afterRead s r) hin)
  · exact h.jump hs (.stall_tick s) rfl (hop _) (hhere _ _ (.stall_tick s) hT)
  · exact h.finish hs (.stall_tick s) rfl hst

end running
end State.Inv

/-! ## The words of a transfer (rules R182, R214, R216) -/

/-- A valid record's block is a positive multiple of 4 (rule R8). -/
theorem blk_of_valid {p : Config.Params} (h : p.valid = true) : p.blk.toNat % 4 = 0 ∧ 4 ≤ p.blk.toNat := by
  simp only [Config.Params.valid, Config.Params.valuesOk, Bool.and_eq_true, beq_iff_eq, decide_eq_true_eq] at h
  omega

theorem bufsize_of_sendOk (h : s.sendOk) : s.desc.bufsize.toNat % 4 = 0 := by
  have h := h.1
  simp only [Descriptor.preconditions, Bool.and_eq_true, beq_iff_eq] at h
  exact h.1

/-- A chunk is at most what is left, and whole words (rule R214). -/
theorem chunk_words {rem idx n : Word} (hv : s.cfg.valid = true) (hsend : s.sendOk) (h : InChunk s rem idx n) :
    n.toNat ≤ rem.toNat ∧ n.toNat % 4 = 0 := by
  obtain ⟨hmoved, -, rfl⟩ := h
  have hblk := (blk_of_valid hv).1
  have hsize := bufsize_of_sendOk hsend
  have hrem : rem.toNat % 4 = 0 := by unfold Moved at hmoved; omega
  unfold chunk
  split
  · exact ⟨le_rfl, hrem⟩
  · rename_i hlt
    exact ⟨Nat.le_of_lt (not_le.1 hlt), hblk⟩

/-- A chunk moved keeps the transfer whole (rules R214, R216). -/
theorem moved_next {rem idx n : Word} (hv : s.cfg.valid = true) (hsend : s.sendOk) (h : InChunk s rem idx n) :
    Moved s (rem - n) (idx + n / 4) := by
  obtain ⟨hle, hn⟩ := chunk_words hv hsend h
  have hmoved := h.1
  unfold Moved at hmoved ⊢
  have hrem : (rem - n).toNat = rem.toNat - n.toNat := BitVec.toNat_sub_of_le hle
  have hdiv : (n / 4).toNat = n.toNat / 4 := BitVec.toNat_udiv
  have hsize := s.desc.bufsize.isLt
  have hidx : (idx + n / 4).toNat = idx.toNat + n.toNat / 4 := by
    rw [BitVec.toNat_add, hdiv]
    exact Nat.mod_eq_of_lt (by omega)
  omega

/-! ## Each label -/

section labels
variable {cs : List Pos} (h : s.Inv)
include h

theorem init0At_inv {l : Init0Pos} (hs : s.seq = .running (.init0 l) cs) (ht : init0At l s = .next t) : t.Inv := by
  cases l with
  | i0_1 => cases ht; exact h.goto hs ((Alike.afterRead s _).withCtx rfl) rfl rfl rfl trivial
  | i0_2 => cases ht; exact h.goto hs (.afterRead s _) rfl rfl rfl trivial
  | i0_3 caps => cases ht; exact h.goto hs ((Alike.refl s).withCtx rfl) rfl rfl rfl trivial
  | i0_4 caps =>
    obtain ⟨volts, -, rfl⟩ := init0At_i0_4_next ht
    split
    · exact h.finish hs ((Alike.refl s).withCtx rfl) rfl (by simp [Pos.op, Instr.endings])
    · exact h.goto hs ((Alike.refl s).withCtx rfl) rfl rfl rfl trivial
  | i0_5 caps =>
    simp only [init0At] at ht
    split at ht <;> cases ht
    · exact h.finish hs (.refl s) rfl (by simp [Pos.op, Instr.endings])
    · exact h.goto hs (.regWrite s _ _) rfl rfl rfl trivial
  | i0_6 caps =>
    cases ht
    refine h.finish hs ((Alike.refl s).withCtx rfl) rfl ?_
    split_ifs <;> simp [Pos.op, Instr.endings]

theorem init1At_inv {l : Init1Pos} (hs : s.seq = .running (.init1 l) cs) (ht : init1At l s = .next t) : t.Inv := by
  cases l with
  | i1_1 => cases ht; exact h.goto hs (.afterRead s _) rfl rfl rfl trivial
  | i1_2 v => cases ht; exact h.goto hs (.regWrite s _ _) rfl rfl rfl trivial
  | i1_3 => cases ht; exact h.goto hs (.regWrite s _ _) rfl rfl rfl trivial
  | i1_4 => cases ht; exact h.finish hs (.regWrite s _ _) rfl (by simp [Pos.op, Instr.endings])

theorem resetAt_inv {f : BitVec 3} {l : ResetPos} (hs : s.seq = .running (.reset f l) cs)
    (ht : resetAt f l s = .next t) : t.Inv := by
  cases l with
  | rs_1 => cases ht; exact h.goto hs (.refl s) rfl rfl rfl trivial
  | rs_2 bits => cases ht; exact h.goto hs (.afterRead s _) rfl rfl rfl trivial
  | rs_3 bits v => cases ht; exact h.goto hs (.regWrite s _ _) rfl rfl rfl trivial
  | rs_4 bits p =>
    unfold resetAt at ht
    exact h.poll hs ht (fun _ => rfl) (fun _ => rfl) (h.posOk hs)
      (fun u q a hq => show PollOk u.cfg.tReset u q from a.cfg ▸ hq) (fun _ => trivial) (by simp [Pos.op, Instr.endings])
  | rs_5 => cases ht; exact h.goto hs (.regWrite s _ _) rfl rfl rfl trivial
  | rs_6 => cases ht; exact h.finish hs (.regWrite s _ _) rfl (by simp [Pos.op, Instr.endings])

theorem getbwAt_inv {l : GetbwPos} (hs : s.seq = .running (.getbw l) cs) (ht : getbwAt l s = .next t) : t.Inv := by
  cases l with
  | gb_1 => cases ht; exact h.goto hs (.afterRead s _) rfl rfl rfl trivial
  | gb_2 v => cases ht; exact h.finish hs ((Alike.refl s).withQ _) rfl (by simp [Pos.op, Instr.endings])

theorem setbwAt_inv {l : SetbwPos} (hs : s.seq = .running (.setbw l) cs) (ht : setbwAt l s = .next t) : t.Inv := by
  cases l with
  | sb_0 =>
    cases ht
    split
    · exact h.goto hs (.refl s) rfl rfl rfl trivial
    · exact h.finish hs (.refl s) rfl (by simp [Pos.op, Instr.endings])
  | sb_1 => cases ht; exact h.goto hs (.afterRead s _) rfl rfl rfl trivial
  | sb_2 v => cases ht; exact h.finish hs (.regWrite s _ _) rfl (by simp [Pos.op, Instr.endings])

theorem setclkAt_inv {l : SetclkPos} (hs : s.seq = .running (.setclk l) cs) (ht : setclkAt l s = .next t) : t.Inv := by
  cases l with
  | ck_0 =>
    cases ht
    split
    · exact h.finish hs (.refl s) rfl (by simp [Pos.op, Instr.endings])
    · exact h.goto hs (.refl s) rfl rfl rfl trivial
  | ck_1 => cases ht; exact h.goto hs (.refl s) rfl rfl rfl trivial
  | ck_2 d => cases ht; exact h.goto hs (.refl s) rfl rfl rfl trivial
  | ck_3 clk => cases ht; exact h.goto hs (.regWrite s _ _) rfl rfl rfl trivial
  | ck_4 clk p =>
    unfold setclkAt at ht
    exact h.poll hs ht (fun _ => rfl) (fun _ => rfl) (h.posOk hs)
      (fun u q a hq => show PollOk u.cfg.tClock u q from a.cfg ▸ hq) (fun _ => trivial) (by simp [Pos.op, Instr.endings])
  | ck_5 clk => cases ht; exact h.finish hs (.regWrite s _ _) rfl (by simp [Pos.op, Instr.endings])

/-- SC_10 changes at most the first response word (rules R194 to R196). -/
theorem captureAt_inv {v : Word} (hs : s.seq = .running (.send (.sc_10 v)) cs) (ht : captureAt v s = .next t) : t.Inv := by
  have hsend : s.sendOk := h.posOk hs
  have hplain : (s.goto (.send .sc_11)).Inv := h.goto hs (.refl s) rfl rfl rfl hsend
  unfold captureAt at ht
  split at ht
  · split at ht <;> cases ht
    · exact hplain
    · exact h.goto hs ((Alike.afterRead s _).withResp _) rfl rfl rfl hsend
    · exact h.goto hs ((Alike.afterRead s _).withResp _) rfl rfl rfl hsend
    · exact h.goto hs (.afterRead s _) rfl rfl rfl hsend
  · cases ht; exact hplain

/-- SEND stays past its checks from SC_1 on, and calls RESET and the data mover as rule R41 has it. -/
theorem sendAt_inv {l : SendPos} (hs : s.seq = .running (.send l) cs) (ht : sendAt l s = .next t) : t.Inv := by
  have hpos := h.posOk hs
  have hcs : cs = [] := (h.callersOk hs).send_eq_nil
  cases l with
  | sc_0 =>
    simp only [sendAt] at ht
    split at ht <;> cases ht
    rename_i hpre
    split
    · exact h.finish hs (.refl s) rfl (by simp [Pos.op, Instr.endings])
    · exact h.goto hs (.refl s) rfl rfl rfl ⟨hpre, by simpa using ‹¬ s.desc.invalid = true›⟩
  | sc_1 => cases ht; exact h.goto hs (.refl s) rfl rfl rfl ⟨hpos, trivial⟩
  | sc_2 mask p =>
    unfold sendAt at ht
    exact h.poll hs ht (fun _ => rfl) (fun _ => rfl) hpos.2 (fun u q a hq => ⟨a.sendOk.2 hpos.1, a.cfg ▸ hq⟩)
      (fun _ => hpos.1) (by simp [Pos.op, Instr.endings])
  | sc_3 => cases ht; exact h.goto hs (.regWrite s _ _) rfl rfl rfl hpos
  | sc_4 =>
    cases ht
    split
    · exact h.goto hs (.regWrite s _ _) rfl rfl rfl hpos
    · exact h.goto hs (.refl s) rfl rfl rfl hpos
  | sc_5 => cases ht; exact h.goto hs (.regWrite s _ _) rfl rfl rfl hpos
  | sc_6 => cases ht; exact h.goto hs (.regWrite s _ _) rfl rfl rfl ⟨hpos, trivial⟩
  | sc_7 p =>
    unfold sendAt at ht
    exact h.poll hs ht (fun _ => rfl) (fun _ => rfl) hpos.2 (fun u q a hq => ⟨a.sendOk.2 hpos.1, a.cfg ▸ hq⟩)
      (fun _ => hpos.1) (by simp [Pos.op, Instr.endings])
  | sc_8 v =>
    cases ht
    split
    · subst hcs; exact h.call hs trivial (.resetFromSend rfl hpos)
    · exact h.goto hs (.refl s) rfl rfl rfl hpos
  | sc_8r => cases ht; exact h.finish hs (.refl s) rfl (by simp [Pos.op, Instr.endings])
  | sc_9 v =>
    cases ht
    split
    · exact h.finish hs (.refl s) rfl (by simp [Pos.op, Instr.endings])
    · exact h.goto hs (.refl s) rfl rfl rfl hpos
  | sc_10 v => exact captureAt_inv h hs ht
  | sc_10b r0 => cases ht; exact h.goto hs (.afterRead s _) rfl rfl rfl hpos
  | sc_10c r0 r1 => cases ht; exact h.goto hs (.afterRead s _) rfl rfl rfl hpos
  | sc_10d r0 r1 r2 => cases ht; exact h.goto hs ((Alike.afterRead s _).withResp _) rfl rfl rfl hpos
  | sc_11 =>
    cases ht
    split
    · rename_i hdata
      subst hcs
      have hstart : (dataPhase s.desc.dir).start = .fifo s.desc.dir .ff_0 := by cases s.desc.dir <;> rfl
      rw [hstart]
      exact h.call hs ⟨hpos, hdata, rfl, trivial⟩ (.fifoFromSend s.desc.dir _ (op_fifo _ _) hpos)
    · exact h.goto hs (.refl s) rfl rfl rfl hpos
  | sc_11r st =>
    obtain ⟨hsend, hst⟩ := hpos
    cases ht
    split
    · exact h.goto hs (.refl s) rfl rfl rfl hsend
    · refine h.finish hs (.refl s) rfl ?_
      revert hst
      cases st <;> simp [Pos.op, Instr.endings]
  | sc_12 => cases ht; exact h.finish hs (.refl s) rfl (by simp [Pos.op, Instr.endings])

/-- The data mover keeps its bytes moved and left together the transfer (rules R214, R216). -/
theorem fifoAt_inv {d : Dir} {l : FifoPos} (hs : s.seq = .running (.fifo d l) cs) (ht : fifoAt d l s = .next t) :
    t.Inv := by
  obtain ⟨hsend, hdata, hdir, hl⟩ := h.posOk hs
  have hcs := h.callersOk hs
  have hvalid := h.valid_of_running hs
  have hop : ∀ l', (Pos.fifo d l').op = (Pos.fifo d l).op := fun l' => by simp
  have hend : ∀ st ∈ Instr.fifoRead.endings, st ∈ (Pos.fifo d l).op.endings := fun st hst => by cases d <;> exact hst
  have hat : ∀ {l'}, FifoOk s l' → PosOk s (.fifo d l') := fun hl' => ⟨hsend, hdata, hdir, hl'⟩
  cases l with
  | ff_0 => cases ht; exact h.goto hs (.refl s) rfl rfl (hop _) (hat (by simp [FifoOk, Moved]))
  | ff_1 rem idx =>
    cases ht
    split
    · exact h.goto hs (.refl s) rfl rfl (hop _) (hat trivial)
    · rename_i hrem
      exact h.goto hs (.refl s) rfl rfl (hop _) (hat ⟨⟨hl, hrem, rfl⟩, trivial⟩)
  | ff_2 rem idx n p =>
    unfold fifoAt at ht
    refine h.poll hs ht (fun _ => hop _) (fun _ => hop _) hl.2 (fun u q a hq => ?_) (fun _ => hat hl.1)
      (hend _ (by decide))
    exact ⟨a.sendOk.2 hsend, a.hasData ▸ hdata, hdir.trans a.dir.symm, a.inChunk.2 hl.1, a.cfg ▸ hq⟩
  | ff_3 rem idx n v =>
    cases ht
    split
    · obtain ⟨st, rfl⟩ := (op_fifo d _ ▸ hcs).fifo_eq
      exact h.call hs trivial (.resetFromFifo d rem idx n v st rfl hsend hdata hdir hl)
    · exact h.goto hs (.refl s) rfl rfl (hop _) (hat hl)
  | ff_4 rem idx n v =>
    cases ht
    split
    · exact h.finish hs (.refl s) rfl (hend _ (by decide))
    · exact h.goto hs (.refl s) rfl rfl (hop _) (hat hl)
  | ff_5 rem idx n v =>
    cases ht
    split
    · exact h.goto hs (.refl s) rfl rfl (hop _) (hat hl)
    · exact h.goto hs (.refl s) rfl rfl (hop _) (hat hl.1)
  | ff_6 rem idx n v => cases ht; exact h.goto hs (.regWrite s _ _) rfl rfl (hop _) (hat ⟨hl, Nat.zero_le _⟩)
  | ff_6k rem idx n k =>
    simp only [fifoAt] at ht
    split at ht
    · rename_i hk
      have hnext : FifoOk s (.ff_6w rem idx n k 0) := ⟨hl.1, by simpa using BitVec.lt_def.1 hk⟩
      rcases wordFetch_next ht with ⟨-, ht⟩ | ⟨-, -, ht⟩ <;> cases ht
      · exact h.goto hs (.afterRead s _) rfl rfl (hop _) (hat hnext)
      · exact h.goto hs ((Alike.refl s).withHist _) rfl rfl (hop _) (hat hnext)
    · cases ht
      exact h.goto hs (.refl s) rfl rfl (hop _) (hat (moved_next hvalid hsend hl.1))
  | ff_6w rem idx n k w =>
    have hnext : FifoOk s (.ff_6k rem idx n (k + 1)) := by
      obtain ⟨hchunk, hk⟩ := hl
      refine ⟨hchunk, ?_⟩
      rw [BitVec.toNat_add]
      exact (Nat.mod_le _ _).trans hk
    rcases wordStore_next ht with ⟨-, -, ht⟩ | ⟨-, ht⟩ <;> cases ht
    · exact h.goto hs (((Alike.refl s).withWord _ _).withHist _) rfl rfl (hop _) (hat hnext)
    · exact h.goto hs (.regWrite s _ _) rfl rfl (hop _) (hat hnext)
  | ff_7 => cases ht; exact h.goto hs (.afterRead s _) rfl rfl (hop _) (hat trivial)
  | ff_7w v =>
    cases ht
    split
    · exact h.finish hs (.regWrite s _ _) rfl (hend _ (by decide))
    · exact h.finish hs (.refl s) rfl (hend _ (by decide))

/-- Every label keeps the invariant. -/
theorem labelAt_inv {pos : Pos} (hs : s.seq = .running pos cs) (ht : labelAt pos s = .next t) : t.Inv := by
  cases pos with
  | init0 l => exact init0At_inv h hs ht
  | init1 l => exact init1At_inv h hs ht
  | reset f l => exact resetAt_inv h hs ht
  | send l => exact sendAt_inv h hs ht
  | getbw l => exact getbwAt_inv h hs ht
  | setbw l => exact setbwAt_inv h hs ht
  | getclk => cases ht; exact h.finish hs (.refl s) rfl (by simp [Pos.op, Instr.endings])
  | setclk l => exact setclkAt_inv h hs ht
  | fifo d l => exact fifoAt_inv h hs ht

end labels

/-! ## The request port -/

/-- No first label asks anything of the state. -/
theorem posOk_start {i : Instr} (hi : i.wellFormed = true) (s : State) : PosOk s i.start := by
  cases i with
  | fifoRead | fifoWrite => cases hi
  | init0 | init1 | reset | send | getbw | setbw | getclk | setclk => trivial

/-- Accepting a request keeps the invariant (rules R40, R302). -/
theorem State.Inv.accept {i : Instr} (h : s.Inv) (hc : s.configured = true) (hi : i.wellFormed = true) :
    (s.accept i).Inv := by
  refine h.of_alike hc (.accept s i) fun pos cs hr => ?_
  cases hr
  exact ⟨rfl, stackOk_iff.2 ⟨posOk_start hi _, .outermost (by rwa [start_op])⟩⟩

/-- A configuration load that is taken, with what it checked (rules R8, R24, R82). -/
theorem configLoad_next {c : ConfigLoad} (h : configLoad c s = .next t) :
    s.cfg.valid = true ∧ c.regbase % 4 = 0 ∧ c.regbase + 0x100 ≤ 2 ^ s.cfg.addrW ∧
      t = { s with
        configured := true
        ctx := { s.ctx with
          regbase := c.regbase
          hostcaps := c.hostcaps.getD s.ctx.hostcaps
          voltages := c.voltages.getD s.ctx.voltages
          fundclk := c.fundclk.getD s.ctx.fundclk } } := by
  unfold configLoad at h
  split at h
  · cases h
  split at h
  · cases h
  split at h
  · cases h
  rename_i hv hb
  cases h
  exact ⟨by simpa using hv, by omega, by omega, rfl⟩

/-- Every act of the requester keeps the invariant. -/
theorem requesterAct_inv {m : ReqMsg} (h : s.Inv) (hs : s.seq = .idle) (ht : requesterAct m s = .next t) : t.Inv := by
  cases m with
  | config c =>
    obtain ⟨hv, ha, hb, rfl⟩ := configLoad_next ht
    exact h.of_idle hs rfl rfl h.buf (fun _ => ⟨hv, ha, hb⟩) fun _ => rfl
  | loadValue v => cases ht; exact h.of_idle hs rfl rfl h.buf h.cfg h.loaded
  | loadDesc d => cases ht; exact h.of_idle hs rfl rfl h.buf h.cfg h.loaded
  | loadWords w => cases ht; exact h.of_idle hs rfl rfl h.buf h.cfg h.loaded
  | attach b =>
    cases b with
    | none => cases ht; exact h.of_idle hs rfl rfl rfl h.cfg h.loaded
    | some bytes => cases ht; exact h.of_idle hs rfl rfl (Memory.wf_ofBytes 0 bytes) h.cfg h.loaded
  | present req => cases ht; exact h
  | skipUnlessSuccess n =>
    cases ht
    split
    · exact h
    · exact h.of_idle hs rfl rfl h.buf h.cfg h.loaded

/-- A reserved request that is accepted, and all it does (rule R112). -/
theorem reservedRequest_next (h : reservedRequest s = .next t) :
    s.configured = true ∧
      t = { s with
        started := true, inbox := s.inbox.tail, q := { s.q with status := Status.invalidParameter.code } } := by
  unfold reservedRequest at h
  split at h <;> cases h
  exact ⟨‹_›, rfl⟩

/-! ## The statement -/

/-- Settles O28: a label keeps the invariant wherever it stands, a request is accepted into a good state, and every other
act leaves SDHB `IDLE`. -/
theorem stepKeepsInvariant : Obligations.StepKeepsInvariant := by
  intro s t h ht
  cases step_next ht with
  | label pos cs hs ht => exact labelAt_inv h hs ht
  | request i hs hi hc ht => exact labelAt_inv (h.accept hc hi) rfl ht
  | reserved hs ht =>
    obtain ⟨hc, rfl⟩ := reservedRequest_next ht
    exact h.of_idle hs rfl rfl h.buf h.cfg fun _ => hc
  | act m rest hs hi ht =>
    exact requesterAct_inv (h.of_idle (t := { s with inbox := rest }) hs rfl rfl h.buf h.cfg h.loaded) hs ht
  | wait hs ht => exact ht ▸ h

end Sys2Proof.Machine
end

section
/-! SUPPORT. What the request port refuses (rules R8, R24, R82, R302), one access per step (rules R12, R88, R90) and the
elapsed counter (rules R13, R42). -/

namespace Sys2Proof.Machine

variable {s t : State}

/-! ## Refusals -/

/-- Before the configuration load no operation begins (rule R302). -/
theorem begin_unconfigured {i : Instr} {first : State → Out} (h : s.configured = false) :
    begin i s first = .refused .notConfigured := by
  simp [begin, h]

/-- Before the configuration load no reserved request is accepted either (rule R302). -/
theorem reservedRequest_unconfigured (h : s.configured = false) : reservedRequest s = .refused .notConfigured := by
  simp [reservedRequest, h]

section load
variable {c : ConfigLoad}

/-- A load after the first request (rule R24). -/
theorem configLoad_late (h : s.started = true) : configLoad c s = .refused .lateConfig := by
  simp [configLoad, h]

/-- A record that breaks a constraint (rule R8). -/
theorem configLoad_invalid (h : s.started = false) (hv : s.cfg.valid = false) :
    configLoad c s = .refused .badParameters := by
  simp [configLoad, h, hv]

/-- A base that is misaligned or wraps (rule R82). -/
theorem configLoad_badBase (h : s.started = false) (hv : s.cfg.valid = true)
    (hb : c.regbase % 4 ≠ 0 ∨ 2 ^ s.cfg.addrW < c.regbase + 0x100) : configLoad c s = .refused .badRegbase := by
  unfold configLoad
  rw [h, hv, if_pos hb]
  rfl

end load

/-- Settles O15: a load goes through `configLoad`, whose checks come in this order; a request that decodes is refused where
it would begin, a reserved one where it would be accepted. -/
theorem configurationRefused : Obligations.ConfigurationRefused := by
  intro s rest hs
  refine ⟨fun c hi => ?_, fun req hi hc => ?_⟩
  · have hstep : step s = configLoad c { s with inbox := rest } := step_act hs hi (by simp)
    rw [hstep]
    exact ⟨fun h => configLoad_late h, fun h hv => configLoad_invalid h hv, fun h hv hb => configLoad_badBase h hv hb⟩
  · cases hd : decodeHeader req with
    | error why => rw [step_reserved hs hi hd, reservedRequest_unconfigured hc]
    | ok i => rw [step_request hs hi hd, exec_idle hs (wellFormed_of_decodeHeader hd), begin_unconfigured hc]

/-! ## One access -/

/-- Settles O24: each effect of a label is one of the three. -/
theorem oneAccessPerStep : Obligations.OneAccessPerStep := by
  intro i s t h
  obtain ⟨p, he⟩ := exec_effect h
  cases he with
  | silent hh hv => exact .inl ⟨hh, hv⟩
  | pollStart hh hv => exact .inl ⟨hh, hv⟩
  | read r hr hh hv => exact .inr (.inl ⟨r, _, _, hh, rfl, rfl, hv⟩)
  | pollRead r hr hh hv => exact .inr (.inl ⟨r, _, _, hh, rfl, rfl, hv⟩)
  | write r v hr hh hv => exact .inr (.inr ⟨_, hh, by simp [State.writeOf], hv⟩)
  | bufRead n v hi hn hh hv => exact .inr (.inr ⟨_, hh, by simp, hv⟩)
  | bufWrite n v hi hn hh hv => exact .inr (.inr ⟨_, hh, by simp, hv⟩)
  | pollStall hh hv => exact .inr (.inr ⟨_, hh, by simp, hv⟩)

/-! ## The elapsed counter -/

/-- Outside a poll a label neither stalls nor changes the counter. -/
theorem Effect.no_stall {i : Instr} (h : Effect i s t none) :
    (∀ us, t.hist ≠ .stall us :: s.hist) ∧ t.elapsed = s.elapsed := by
  cases h with
  | silent hh hv he => exact ⟨by simp [hh], he⟩
  | read r hr hh hv he => exact ⟨by simp [hh, State.readOf], he⟩
  | write r v hr hh hv he => exact ⟨by simp [hh, State.writeOf], he⟩
  | bufRead n v hi hn hh hv he => exact ⟨by simp [hh], he⟩
  | bufWrite n v hi hn hh hv he => exact ⟨by simp [hh], he⟩

/-- No act of the requester makes a port event or changes the counter (rule R40). -/
theorem requesterAct_quiet {m : ReqMsg} (h : requesterAct m s = .next t) :
    t.hist = s.hist ∧ t.env = s.env ∧ t.elapsed = s.elapsed := by
  cases m with
  | config c =>
    obtain ⟨-, -, -, rfl⟩ := configLoad_next h
    exact ⟨rfl, rfl, rfl⟩
  | loadValue | loadDesc | loadWords | present => cases h; exact ⟨rfl, rfl, rfl⟩
  | attach b => cases b <;> cases h <;> exact ⟨rfl, rfl, rfl⟩
  | skipUnlessSuccess n => cases h; split <;> exact ⟨rfl, rfl, rfl⟩

/-- In a valid record the counter holds one step more than each timeout (rule R42; log entry 7). -/
theorem timeout_fits {p : Config.Params} (h : p.valid = true) {T : Nat}
    (hT : T ∈ [p.tInhibit, p.tCmd, p.tData, p.tReset, p.tClock]) : T + p.tStep < 2 ^ p.elapsedW := by
  simp only [Config.Params.valid, Bool.and_eq_true] at h
  exact of_decide_eq_true (List.all_eq_true.1 h.2 T hT)

/-- After the read of a poll the counter has not passed its timeout, one of the five (rules R13, R42). -/
theorem elapsed_le_timeout {pos : Pos} (hp : pos.poll = some .p2) (h : PosOk s pos) :
    ∃ T ∈ [s.cfg.tInhibit, s.cfg.tCmd, s.cfg.tData, s.cfg.tReset, s.cfg.tClock], s.elapsed ≤ T := by
  unfold Pos.poll at hp
  split at hp <;> cases hp
  · exact ⟨s.cfg.tReset, by simp, h⟩
  · exact ⟨s.cfg.tInhibit, by simp, h.2⟩
  · exact ⟨s.cfg.tCmd, by simp, h.2⟩
  · exact ⟨s.cfg.tClock, by simp, h⟩
  · exact ⟨s.cfg.tData, by simp, h.2.2.2.2⟩

/-- A step has one effect on the ports and the counter, by where SDHB stands in a poll; the requester's acts and the
reserved requests have none. -/
theorem step_effect (h : step s = .next t) : ∃ i, Effect i s t s.polling := by
  cases step_next h with
  | label pos cs hs h =>
    rw [polling_running hs]
    exact ⟨pos.op, labelAt_effect h⟩
  | request i hs hi hc h =>
    rw [polling_idle hs]
    exact ⟨i, accepted_effect h⟩
  | reserved hs h =>
    rw [polling_idle hs]
    obtain ⟨-, rfl⟩ := reservedRequest_next h
    exact ⟨.getclk, .silent rfl rfl rfl⟩
  | act m rest hs hi h =>
    rw [polling_idle hs]
    obtain ⟨hh, hv, he⟩ := requesterAct_quiet h
    exact ⟨.getclk, .silent hh hv he⟩
  | wait hs ht =>
    rw [polling_idle hs]
    subst ht
    exact ⟨.getclk, .silent rfl rfl rfl⟩

/-- In a good state the stall of a poll does not overflow the counter (rule R42; log entry 7). -/
theorem State.Inv.stall_fits (h : s.Inv) (hp : s.polling = some .p2) :
    s.elapsed + s.cfg.tStep < 2 ^ s.cfg.elapsedW := by
  cases hs : s.seq with
  | idle =>
    rw [polling_idle hs] at hp
    cases hp
  | running pos cs =>
    rw [polling_running hs] at hp
    obtain ⟨T, hT, hle⟩ := elapsed_le_timeout hp (h.posOk hs)
    have hfits := timeout_fits (h.valid_of_running hs) hT
    omega

/-- Settles O23: the effect of the step says it by the position in the poll, and the invariant bounds the counter at the
stall. -/
theorem elapsedCounter : Obligations.ElapsedCounter := by
  intro s t h ht
  obtain ⟨i, heff⟩ := step_effect ht
  cases hp : s.polling with
  | none => exact (hp ▸ heff).no_stall
  | some p =>
    rw [hp] at heff
    cases heff with
    | pollStart hh hv he => exact ⟨hh, he⟩
    | pollRead r hr hh hv he => exact ⟨by simp [hh, State.readOf], he⟩
    | pollStall hh hv he =>
      have hlt := h.stall_fits hp
      rw [Nat.mod_eq_of_lt hlt] at he
      exact ⟨hh, he, he ▸ hlt⟩

end Sys2Proof.Machine
end

section
/-! SUPPORT. What one label leaves of the registers (rules R20, R30, R31, R33), said once: each label first assigns at most
one register of its own operation, then moves the sequencer; and the statements on who writes what. -/

namespace Sys2Proof.Machine

variable {s t u : State}

/-! ## The assignments and the move of one label -/

/-- `u` differs from `s` in no register and not in the sequencer: only the elapsed counter, the buffer, the environment and
the history may have gone on. -/
def Kept (s u : State) : Prop := u = { s with elapsed := u.elapsed, buf := u.buf, env := u.env, hist := u.hist }

/-- What INIT0 may make of the context (rules R21, R22, R151 to R155): never another base, never another voltage mask or
base clock where one was known, and no capability but what the capability word adds. -/
structure Discovers (s : State) (c : Context) : Prop where
  regbase : c.regbase = s.ctx.regbase
  voltages : s.ctx.voltages ≠ 0 → c.voltages = s.ctx.voltages
  fundclk : s.ctx.fundclk ≠ 0 → c.fundclk = s.ctx.fundclk
  hostcaps : c.hostcaps = s.ctx.hostcaps ∨ ∃ caps, c.hostcaps = s.ctx.hostcaps ||| s.cfg.capsFound caps

/-- The registers a label at `pos` assigns: the context in INIT0, response words at SC_10 and at the last read of a long
capture, `Q.RESULT` in GETBW, and nothing else anywhere. -/
inductive Assigns (s : State) : Pos → State → Prop where
  | nothing {pos : Pos} {u : State} (k : Kept s u) : Assigns s pos u
  | context {l : Init0Pos} {c : Context} {u : State} (hc : Discovers s c) (k : Kept { s with ctx := c } u) :
      Assigns s (.init0 l) u
  | firstWord {v r : Word} {u : State} (hr : s.desc.rclass ≠ .none)
      (k : Kept { s with desc := { s.desc with resp := s.desc.resp.set 0 r } } u) : Assigns s (.send (.sc_10 v)) u
  | allWords {r0 r1 r2 : Word} {resp : Vector Word 4} {u : State}
      (k : Kept { s with desc := { s.desc with resp := resp } } u) : Assigns s (.send (.sc_10d r0 r1 r2)) u
  | result {l : GetbwPos} {r : Word} {u : State} (k : Kept { s with q := { s.q with result := r } } u) :
      Assigns s (.getbw l) u

/-- How a label moves the sequencer (rules R11, R280, R281). -/
inductive Moves (u : State) : State → Prop where
  | goto (pos : Pos) : Moves u (u.goto pos)
  | call (callee ret : Pos) : Moves u (u.call callee ret)
  | finish (st : Status) : Moves u (u.finish st)

/-- A poll assigns no register (rule R13). -/
theorem pollUntil_moves {r : Reg} {pred : Word → Bool} {T : Nat} {here : PollPos → Pos} {done : Word → Pos}
    {p : PollPos} (h : pollUntil r pred T here done p s = .next t) : ∃ u, Moves u t ∧ Kept s u := by
  rcases pollUntil_next h with ⟨-, rfl⟩ | ⟨-, -, rfl⟩ | ⟨-, -, rfl⟩ | ⟨-, -, rfl⟩ | ⟨-, -, rfl⟩
  · exact ⟨_, .goto _, rfl⟩
  · exact ⟨_, .goto _, rfl⟩
  · exact ⟨_, .goto _, rfl⟩
  · exact ⟨_, .goto _, rfl⟩
  · exact ⟨_, .finish _, rfl⟩

/-- A label that polls assigns no register (rule R13). -/
theorem pollUntil_assigns {pos : Pos} {r : Reg} {pred : Word → Bool} {T : Nat} {here : PollPos → Pos} {done : Word → Pos}
    {p : PollPos} (h : pollUntil r pred T here done p s = .next t) : ∃ u, Moves u t ∧ Assigns s pos u := by
  obtain ⟨u, hm, hk⟩ := pollUntil_moves h
  exact ⟨u, hm, .nothing hk⟩

theorem init0At_assigns {l : Init0Pos} (h : init0At l s = .next t) : ∃ u, Moves u t ∧ Assigns s (.init0 l) u := by
  cases l with
  | i0_1 =>
    cases h
    have hc : Discovers s { s.ctx with hostver := s.cfg.versionCode (s.peek .version) } :=
      ⟨rfl, fun _ => rfl, fun _ => rfl, .inl rfl⟩
    exact ⟨_, .goto _, .context hc rfl⟩
  | i0_2 => cases h; exact ⟨_, .goto _, .nothing rfl⟩
  | i0_3 caps =>
    cases h
    have hc : Discovers s { s.ctx with hostcaps := s.ctx.hostcaps ||| s.cfg.capsFound caps } :=
      ⟨rfl, fun _ => rfl, fun _ => rfl, .inr ⟨caps, rfl⟩⟩
    exact ⟨_, .goto _, .context hc rfl⟩
  | i0_4 caps =>
    obtain ⟨volts, hvolts, rfl⟩ := init0At_i0_4_next h
    have hc : Discovers s { s.ctx with voltages := volts } :=
      ⟨rfl, fun hv => hvolts.trans (if_neg hv), fun _ => rfl, .inl rfl⟩
    split
    · exact ⟨_, .finish _, .context hc rfl⟩
    · exact ⟨_, .goto _, .context hc rfl⟩
  | i0_5 caps =>
    simp only [init0At] at h
    split at h <;> cases h
    · exact ⟨_, .finish _, .nothing rfl⟩
    · exact ⟨_, .goto _, .nothing rfl⟩
  | i0_6 caps =>
    cases h
    have hc : Discovers s { s.ctx with
        fundclk := if s.ctx.fundclk = 0 then s.cfg.clockFound s.ctx.hostver caps else s.ctx.fundclk } :=
      ⟨rfl, fun _ => rfl, fun hclk => if_neg hclk, .inl rfl⟩
    exact ⟨_, .finish _, .context hc rfl⟩

theorem init1At_assigns {l : Init1Pos} (h : init1At l s = .next t) : ∃ u, Moves u t ∧ Assigns s (.init1 l) u := by
  cases l with
  | i1_1 | i1_2 | i1_3 => cases h; exact ⟨_, .goto _, .nothing rfl⟩
  | i1_4 => cases h; exact ⟨_, .finish _, .nothing rfl⟩

theorem resetAt_assigns {f : BitVec 3} {l : ResetPos} (h : resetAt f l s = .next t) :
    ∃ u, Moves u t ∧ Assigns s (.reset f l) u := by
  cases l with
  | rs_1 | rs_2 | rs_3 | rs_5 => cases h; exact ⟨_, .goto _, .nothing rfl⟩
  | rs_4 bits p => unfold resetAt at h; exact pollUntil_assigns h
  | rs_6 => cases h; exact ⟨_, .finish _, .nothing rfl⟩

/-- SC_10 stores at most the first response word, and none for class NONE (rules R194 to R196). -/
theorem captureAt_assigns {v : Word} (h : captureAt v s = .next t) : ∃ u, Moves u t ∧ Assigns s (.send (.sc_10 v)) u := by
  unfold captureAt at h
  split at h
  · split at h <;> cases h
    · exact ⟨_, .goto _, .nothing rfl⟩
    · exact ⟨_, .goto _, .firstWord (r := s.peek .rsp0) (by simp [*]) rfl⟩
    · exact ⟨_, .goto _, .firstWord (r := s.peek .rsp0) (by simp [*]) rfl⟩
    · exact ⟨_, .goto _, .nothing rfl⟩
  · cases h; exact ⟨_, .goto _, .nothing rfl⟩

theorem sendAt_assigns {l : SendPos} (h : sendAt l s = .next t) : ∃ u, Moves u t ∧ Assigns s (.send l) u := by
  cases l with
  | sc_0 =>
    simp only [sendAt] at h
    split at h <;> cases h
    split
    · exact ⟨_, .finish _, .nothing rfl⟩
    · exact ⟨_, .goto _, .nothing rfl⟩
  | sc_1 | sc_3 | sc_5 | sc_6 | sc_10b | sc_10c => cases h; exact ⟨_, .goto _, .nothing rfl⟩
  | sc_2 mask p => unfold sendAt at h; exact pollUntil_assigns h
  | sc_4 => cases h; split <;> exact ⟨_, .goto _, .nothing rfl⟩
  | sc_7 p => unfold sendAt at h; exact pollUntil_assigns h
  | sc_8 v =>
    cases h
    split
    · exact ⟨_, .call _ _, .nothing rfl⟩
    · exact ⟨_, .goto _, .nothing rfl⟩
  | sc_8r | sc_12 => cases h; exact ⟨_, .finish _, .nothing rfl⟩
  | sc_9 v =>
    cases h
    split
    · exact ⟨_, .finish _, .nothing rfl⟩
    · exact ⟨_, .goto _, .nothing rfl⟩
  | sc_10 v => exact captureAt_assigns h
  | sc_10d r0 r1 r2 =>
    cases h
    exact ⟨_, .goto _, .allWords (resp := longResponse s.ctx.hostcaps r0 r1 r2 (s.peek .rsp3)) rfl⟩
  | sc_11 =>
    cases h
    split
    · exact ⟨_, .call _ _, .nothing rfl⟩
    · exact ⟨_, .goto _, .nothing rfl⟩
  | sc_11r st =>
    cases h
    split
    · exact ⟨_, .goto _, .nothing rfl⟩
    · exact ⟨_, .finish _, .nothing rfl⟩

theorem getbwAt_assigns {l : GetbwPos} (h : getbwAt l s = .next t) : ∃ u, Moves u t ∧ Assigns s (.getbw l) u := by
  cases l with
  | gb_1 => cases h; exact ⟨_, .goto _, .nothing rfl⟩
  | gb_2 v => cases h; exact ⟨_, .finish _, .result (r := s.cfg.widthOf v) rfl⟩

theorem setbwAt_assigns {l : SetbwPos} (h : setbwAt l s = .next t) : ∃ u, Moves u t ∧ Assigns s (.setbw l) u := by
  cases l with
  | sb_0 =>
    cases h
    split
    · exact ⟨_, .goto _, .nothing rfl⟩
    · exact ⟨_, .finish _, .nothing rfl⟩
  | sb_1 => cases h; exact ⟨_, .goto _, .nothing rfl⟩
  | sb_2 v => cases h; exact ⟨_, .finish _, .nothing rfl⟩

theorem setclkAt_assigns {l : SetclkPos} (h : setclkAt l s = .next t) : ∃ u, Moves u t ∧ Assigns s (.setclk l) u := by
  cases l with
  | ck_0 =>
    cases h
    split
    · exact ⟨_, .finish _, .nothing rfl⟩
    · exact ⟨_, .goto _, .nothing rfl⟩
  | ck_1 | ck_2 | ck_3 => cases h; exact ⟨_, .goto _, .nothing rfl⟩
  | ck_4 clk p => unfold setclkAt at h; exact pollUntil_assigns h
  | ck_5 clk => cases h; exact ⟨_, .finish _, .nothing rfl⟩

theorem fifoAt_assigns {d : Dir} {l : FifoPos} (h : fifoAt d l s = .next t) : ∃ u, Moves u t ∧ Assigns s (.fifo d l) u := by
  cases l with
  | ff_0 | ff_1 | ff_5 | ff_6 | ff_7 => cases h; exact ⟨_, .goto _, .nothing rfl⟩
  | ff_2 rem idx n p => unfold fifoAt at h; exact pollUntil_assigns h
  | ff_3 rem idx n v =>
    cases h
    split
    · exact ⟨_, .call _ _, .nothing rfl⟩
    · exact ⟨_, .goto _, .nothing rfl⟩
  | ff_4 rem idx n v =>
    cases h
    split
    · exact ⟨_, .finish _, .nothing rfl⟩
    · exact ⟨_, .goto _, .nothing rfl⟩
  | ff_6k rem idx n k =>
    simp only [fifoAt] at h
    split at h
    · rcases wordFetch_next h with ⟨-, h⟩ | ⟨-, -, h⟩ <;> cases h <;> exact ⟨_, .goto _, .nothing rfl⟩
    · cases h; exact ⟨_, .goto _, .nothing rfl⟩
  | ff_6w rem idx n k w =>
    rcases wordStore_next h with ⟨-, -, h⟩ | ⟨-, h⟩ <;> cases h <;> exact ⟨_, .goto _, .nothing rfl⟩
  | ff_7w v => cases h; split <;> exact ⟨_, .finish _, .nothing rfl⟩

/-- All a label can do to the registers and the sequencer. -/
theorem labelAt_assigns {pos : Pos} (h : labelAt pos s = .next t) : ∃ u, Moves u t ∧ Assigns s pos u := by
  cases pos with
  | init0 l => exact init0At_assigns h
  | init1 l => exact init1At_assigns h
  | reset f l => exact resetAt_assigns h
  | send l => exact sendAt_assigns h
  | getbw l => exact getbwAt_assigns h
  | setbw l => exact setbwAt_assigns h
  | getclk => cases h; exact ⟨_, .finish _, .nothing rfl⟩
  | setclk l => exact setclkAt_assigns h
  | fifo d l => exact fifoAt_assigns h

/-! ## What stays over a label -/

/-- The four fields a register-keeping step may change, as values of their own. -/
theorem Kept.eq (k : Kept s u) : ∃ e b v hs, u = { s with elapsed := e, buf := b, env := v, hist := hs } :=
  ⟨_, _, _, _, k⟩

/-- `t` has the registers of `s` that no label assigns: the record, the buffer handle, the loaded and started flags, the
request port and the operands (rules R7, R30, R33, R40). -/
structure Untouched (s t : State) : Prop where
  cfg : t.cfg = s.cfg
  dbuf : t.dbuf = s.dbuf
  configured : t.configured = s.configured
  started : t.started = s.started
  inbox : t.inbox = s.inbox
  flags : t.q.flags = s.q.flags
  value : t.q.value = s.q.value

theorem Kept.untouched (k : Kept s u) : Untouched s u := by
  obtain ⟨e, b, v, hs, rfl⟩ := k.eq
  exact ⟨rfl, rfl, rfl, rfl, rfl, rfl, rfl⟩

theorem Assigns.untouched {pos : Pos} (a : Assigns s pos u) : Untouched s u := by
  cases a with
  | nothing k => exact k.untouched
  | context hc k | firstWord hr k | allWords k | result k => exact { k.untouched with }

theorem Assigns.status {pos : Pos} (a : Assigns s pos u) : u.q.status = s.q.status := by
  cases a with
  | nothing k | context hc k | firstWord hr k | allWords k | result k =>
    obtain ⟨e, b, v, hs, rfl⟩ := k.eq
    rfl

theorem Assigns.ctx {pos : Pos} (a : Assigns s pos u) : u.ctx = s.ctx ∨ (pos.op = .init0 ∧ Discovers s u.ctx) := by
  cases a with
  | context hc k =>
    obtain ⟨e, b, v, hs, rfl⟩ := k.eq
    exact .inr ⟨rfl, hc⟩
  | nothing k | firstWord hr k | allWords k | result k =>
    obtain ⟨e, b, v, hs, rfl⟩ := k.eq
    exact .inl rfl

theorem Assigns.result_eq {pos : Pos} (a : Assigns s pos u) (hop : pos.op ≠ .getbw) : u.q.result = s.q.result := by
  cases a with
  | result k => exact absurd rfl hop
  | nothing k | context hc k | firstWord hr k | allWords k =>
    obtain ⟨e, b, v, hs, rfl⟩ := k.eq
    rfl

/-- What the descriptor becomes, by the position of the label (rules R31, R194 to R196, R198). -/
inductive DescCase (s : State) (pos : Pos) (d : Descriptor) : Prop where
  | same (hd : d = s.desc)
  | firstWord (v r : Word) (hpos : pos = .send (.sc_10 v)) (hr : s.desc.rclass ≠ .none)
      (hd : d = { s.desc with resp := s.desc.resp.set 0 r })
  | allWords (r0 r1 r2 : Word) (resp : Vector Word 4) (hpos : pos = .send (.sc_10d r0 r1 r2))
      (hd : d = { s.desc with resp := resp })

theorem Assigns.desc {pos : Pos} (a : Assigns s pos u) : DescCase s pos u.desc := by
  cases a with
  | firstWord hr k =>
    obtain ⟨e, b, v, hs, rfl⟩ := k.eq
    exact .firstWord _ _ rfl hr rfl
  | allWords k =>
    obtain ⟨e, b, v, hs, rfl⟩ := k.eq
    exact .allWords _ _ _ _ rfl rfl
  | nothing k | context hc k | result k =>
    obtain ⟨e, b, v, hs, rfl⟩ := k.eq
    exact .same rfl

theorem Moves.untouched (m : Moves u t) : Untouched u t := by
  cases m with
  | goto pos | call callee ret => exact ⟨rfl, rfl, rfl, rfl, rfl, rfl, rfl⟩
  | finish st => exact ⟨rfl, rfl, rfl, rfl, rfl, u.finish_flags st, u.finish_value st⟩

theorem Moves.ctx_desc_result (m : Moves u t) : t.ctx = u.ctx ∧ t.desc = u.desc ∧ t.q.result = u.q.result := by
  cases m with
  | goto pos | call callee ret => exact ⟨rfl, rfl, rfl⟩
  | finish st => exact ⟨rfl, rfl, u.finish_result st⟩

/-- A new status is delivered only at the outermost level (rule R280). -/
theorem Moves.idle_of_status (m : Moves u t) (h : t.q.status ≠ u.q.status) : t.seq = .idle := by
  cases m with
  | goto pos | call callee ret => exact absurd rfl h
  | finish st =>
    cases hcs : u.seq.callers with
    | nil => rw [u.finish_outermost st hcs]
    | cons c cs => exact absurd (by rw [u.finish_nested st c cs hcs]) h

theorem Untouched.trans (h : Untouched s u) (h' : Untouched u t) : Untouched s t where
  cfg := h'.cfg.trans h.cfg
  dbuf := h'.dbuf.trans h.dbuf
  configured := h'.configured.trans h.configured
  started := h'.started.trans h.started
  inbox := h'.inbox.trans h.inbox
  flags := h'.flags.trans h.flags
  value := h'.value.trans h.value

section label
variable {pos : Pos} (h : labelAt pos s = .next t)
include h

theorem labelAt_untouched : Untouched s t := by
  obtain ⟨u, hm, ha⟩ := labelAt_assigns h
  exact ha.untouched.trans hm.untouched

/-- Only INIT0 changes the context. -/
theorem labelAt_ctx : t.ctx = s.ctx ∨ (pos.op = .init0 ∧ Discovers s t.ctx) := by
  obtain ⟨u, hm, ha⟩ := labelAt_assigns h
  obtain ⟨hctx, -, -⟩ := hm.ctx_desc_result
  exact hctx ▸ ha.ctx

theorem labelAt_desc : DescCase s pos t.desc := by
  obtain ⟨u, hm, ha⟩ := labelAt_assigns h
  obtain ⟨-, hdesc, -⟩ := hm.ctx_desc_result
  exact hdesc ▸ ha.desc

/-- Only GETBW writes `Q.RESULT`. -/
theorem labelAt_result (hop : pos.op ≠ .getbw) : t.q.result = s.q.result := by
  obtain ⟨u, hm, ha⟩ := labelAt_assigns h
  obtain ⟨-, -, hresult⟩ := hm.ctx_desc_result
  exact hresult.trans (ha.result_eq hop)

/-- A status is delivered only where SDHB becomes `IDLE`. -/
theorem labelAt_idle_of_status (hst : t.q.status ≠ s.q.status) : t.seq = .idle := by
  obtain ⟨u, hm, ha⟩ := labelAt_assigns h
  exact hm.idle_of_status (ha.status.symm ▸ hst)

end label

/-! ## What stays over one step of an operation -/

/-- Accepting a request writes `Q.FLAGS` for RESET alone (rule R111; log entry 29). -/
theorem State.accept_flags (s : State) (i : Instr) :
    (s.accept i).q.flags = s.q.flags ∨ ∃ f, i = .reset f ∧ (s.accept i).q.flags = f := by
  cases i with
  | reset f => exact .inr ⟨f, rfl, rfl⟩
  | init0 | init1 | send | getbw | setbw | getclk | setclk | fifoRead | fifoWrite => exact .inl rfl

/-- While an operation runs, a step keeps every register no label assigns. -/
theorem exec_untouched {i : Instr} (hb : s.seq ≠ .idle) (h : exec i s = .next t) : Untouched s t := by
  cases exec_next h with
  | accepted hs hi hc h => exact absurd hs hb
  | label pos cs hs hop h => exact labelAt_untouched h
  | held pos cs hs hop ht => subst ht; exact ⟨rfl, rfl, rfl, rfl, rfl, rfl, rfl⟩

theorem exec_ctx {i : Instr} (h : exec i s = .next t) : t.ctx = s.ctx ∨ (i = .init0 ∧ Discovers s t.ctx) := by
  cases exec_next h with
  | accepted hs hi hc h =>
    rcases labelAt_ctx h with hctx | ⟨hop, hd⟩
    · exact .inl hctx
    · exact .inr ⟨start_op i ▸ hop, { hd with }⟩
  | label pos cs hs hop h => exact hop ▸ labelAt_ctx h
  | held pos cs hs hop ht => exact .inl (ht ▸ rfl)

/-- What one step makes of the descriptor: the same unless it runs a capturing label of SEND. -/
theorem exec_desc {i : Instr} (h : exec i s = .next t) :
    t.desc = s.desc ∨ ∃ pos cs, s.seq = .running pos cs ∧ pos.op = i ∧ DescCase s pos t.desc := by
  cases exec_next h with
  | accepted hs hi hc h =>
    cases labelAt_desc h with
    | same hd => exact .inl hd
    | firstWord v r hpos | allWords r0 r1 r2 resp hpos => cases i <;> cases hpos
  | label pos cs hs hop h => exact .inr ⟨pos, cs, hs, hop, labelAt_desc h⟩
  | held pos cs hs hop ht => exact .inl (ht ▸ rfl)

theorem exec_result {i : Instr} (h : exec i s = .next t) (hi : i ≠ .getbw) : t.q.result = s.q.result := by
  cases exec_next h with
  | accepted hs hw hc h =>
    have hres := labelAt_result h (by rwa [start_op])
    exact hres.trans (s.accept_result i)
  | label pos cs hs hop h => exact labelAt_result h (hop ▸ hi)
  | held pos cs hs hop ht => exact ht ▸ rfl

theorem exec_idle_of_status {i : Instr} (h : exec i s = .next t) (hst : t.q.status ≠ s.q.status) : t.seq = .idle := by
  cases exec_next h with
  | accepted hs hi hc h => exact labelAt_idle_of_status h (by rwa [s.accept_status i])
  | label pos cs hs hop h => exact labelAt_idle_of_status h hst
  | held pos cs hs hop ht => exact absurd (ht ▸ rfl) hst

/-! ## The statements on operations -/

/-- Settles O20: a label leaves the descriptor in one of three ways, and the two that change it are at SC_10 and at the
last read of a long capture. -/
theorem descriptorFrame : Obligations.DescriptorFrame := by
  intro i s t h
  rcases exec_desc h with hd | ⟨pos, cs, hs, rfl, hcase⟩
  · simp [hd]
  cases hcase with
  | same hd => simp [hd]
  | firstWord v r hpos hr hd =>
    subst hpos
    refine ⟨fun hi => absurd rfl hi, by rw [hd], fun _ => ⟨by simp [hd], by simp [hd], by simp [hd], ?_⟩⟩
    rintro (hno | hnone)
    · exact absurd hs (hno v cs)
    · exact absurd hnone hr
  | allWords r0 r1 r2 resp hpos hd =>
    subst hpos
    exact ⟨fun hi => absurd rfl hi, by rw [hd], fun hno => absurd hs (hno r0 r1 r2 cs)⟩

/-- While an operation runs, SDHB is busy (rule R40). -/
theorem busy_running {pos : Pos} {cs : List Pos} (hs : s.seq = .running pos cs) : s.busy = true := by
  simp [State.busy, hs]

theorem busy_idle (hs : s.seq = .idle) : s.busy = false := by simp [State.busy, hs]

/-- Settles O21: an accepted request moves the port and, for RESET, writes `Q.FLAGS`; a running operation keeps all
registers no label assigns. -/
theorem registerFrame : Obligations.RegisterFrame := by
  intro i s t h
  refine ⟨exec_result h, ?_⟩
  have hst := exec_idle_of_status h
  cases hs : s.seq with
  | idle =>
    cases exec_next h with
    | label pos cs hs' | held pos cs hs' => rw [hs] at hs'; cases hs'
    | accepted _ hi hc h =>
      have hu : Untouched (s.accept i) t := labelAt_untouched h
      refine ⟨hu.value.trans (s.accept_value i), fun hne => ?_, hst, hu.cfg, hu.dbuf, hu.configured,
        by simp [busy_idle hs], fun _ => ⟨hu.inbox, hu.started⟩⟩
      rcases s.accept_flags i with hsame | ⟨f, rfl, hf⟩
      · exact absurd (hu.flags.trans hsame) hne
      · exact ⟨f, rfl, rfl, hu.flags.trans hf⟩
  | running pos cs =>
    have hu := exec_untouched (by simp [hs]) h
    exact ⟨hu.value, fun hne => absurd hu.flags hne, hst, hu.cfg, hu.dbuf, hu.configured,
      fun _ => ⟨hu.inbox, hu.started⟩, by simp [busy_running hs]⟩

/-! ## The requester's acts -/

/-- An act of the requester leaves the sequencer and the delivered status. -/
theorem requesterAct_seq_status {m : ReqMsg} (h : requesterAct m s = .next t) :
    t.seq = s.seq ∧ t.q.status = s.q.status := by
  cases m with
  | config c =>
    obtain ⟨-, -, -, rfl⟩ := configLoad_next h
    exact ⟨rfl, rfl⟩
  | loadValue | loadDesc | loadWords | present => cases h; exact ⟨rfl, rfl⟩
  | attach b => cases b <;> cases h <;> exact ⟨rfl, rfl⟩
  | skipUnlessSuccess n => cases h; split <;> exact ⟨rfl, rfl⟩

/-- Only the configuration load changes the context, and it leaves `C.HOSTVER` (rules R20, R24). -/
theorem requesterAct_ctx {m : ReqMsg} (h : requesterAct m s = .next t) :
    t.ctx = s.ctx ∨ ((∃ c, m = .config c) ∧ t.configured = true ∧ t.ctx.hostver = s.ctx.hostver) := by
  cases m with
  | config c =>
    obtain ⟨-, -, -, rfl⟩ := configLoad_next h
    exact .inr ⟨⟨c, rfl⟩, rfl, rfl⟩
  | loadValue | loadDesc | loadWords | present => cases h; exact .inl rfl
  | attach b => cases b <;> cases h <;> exact .inl rfl
  | skipUnlessSuccess n => cases h; split <;> exact .inl rfl

/-- While `IDLE` without a request, a step takes the next act off the port or does nothing. -/
theorem step_unrequested (hs : s.seq = .idle) (hno : ∀ req rest, s.inbox ≠ .present req :: rest)
    (h : step s = .next t) :
    t = s ∨ ∃ m rest, s.inbox = m :: rest ∧ requesterAct m { s with inbox := rest } = .next t := by
  cases hi : s.inbox with
  | nil =>
    rw [step_wait hs hi] at h
    cases h
    exact .inl rfl
  | cons m rest =>
    have hm : ∀ req, m ≠ .present req := fun req hm => hno req rest (hm ▸ hi)
    exact .inr ⟨m, rest, rfl, step_act hs hi hm ▸ h⟩

/-- Settles O18: a running operation keeps the port, an operation that does not run is held, and an act of the requester
makes no event and delivers no status. -/
theorem requestPort : Obligations.RequestPort := by
  refine ⟨fun s t hb h => ?_, fun i s pos cs hs hi hop => exec_held hs hop hi, fun s t hs hno h => ?_⟩
  · cases hs : s.seq with
    | idle =>
      rw [busy_idle hs] at hb
      cases hb
    | running pos cs =>
      rw [step_running hs] at h
      have hu := exec_untouched (by simp [hs]) h
      exact ⟨hu.inbox, hu.started⟩
  · rcases step_unrequested hs hno h with rfl | ⟨m, rest, -, hact⟩
    · exact ⟨rfl, rfl, hs, rfl⟩
    · obtain ⟨hh, hv, -⟩ := requesterAct_quiet hact
      obtain ⟨hseq, hst⟩ := requesterAct_seq_status hact
      exact ⟨hh, hv, hseq.trans hs, hst⟩

/-! ## Who writes the context -/

/-- A capability found is bit 0, 1 or 6 of a valid record (rules R21, R152; log entry 34). -/
theorem capsFound_bits {p : Config.Params} (h : p.valid = true) (caps : Word) : p.capsFound caps &&& ~~~0x43 = 0 := by
  have hset : p.hsCapSets &&& ~~~3 = 0 := by
    simp only [Config.Params.valid, Config.Params.valuesOk, Bool.and_eq_true, beq_iff_eq] at h
    tauto
  have hsub : p.hsCapSets &&& ~~~0x43 = 0 := by
    calc p.hsCapSets &&& ~~~0x43 = p.hsCapSets &&& (~~~3 &&& ~~~0x43) := rfl
      _ = p.hsCapSets &&& ~~~3 &&& ~~~0x43 := (BitVec.and_assoc ..).symm
      _ = 0 := by rw [hset]; exact BitVec.zero_and
  have hadma : (if caps.hits p.sl.capsAdma2 then Config.capAdma2 else 0) &&& ~~~0x43 = 0 := by split <;> rfl
  have hspeed : (if caps.hits p.sl.capsHighSpeed then p.hsCapSets else 0) &&& ~~~0x43 = 0 := by
    split
    · exact hsub
    · rfl
  rw [Config.Params.capsFound, BitVec.and_or_distrib_right, hadma, hspeed]
  rfl

/-- What INIT0 finds clears no capability bit. -/
theorem Discovers.keeps_hostcaps {c : Context} (hc : Discovers s c) : s.ctx.hostcaps &&& ~~~c.hostcaps = 0 := by
  rcases hc.hostcaps with h | ⟨caps, h⟩ <;> rw [h]
  · exact BitVec.and_not_self _
  · rw [BitVec.not_or, ← BitVec.and_assoc, BitVec.and_not_self]
    exact BitVec.zero_and

/-- What INIT0 finds sets no capability bit but 0, 1 and 6. -/
theorem Discovers.other_hostcaps {c : Context} (hc : Discovers s c) (hv : s.cfg.valid = true) :
    c.hostcaps &&& ~~~0x43 = s.ctx.hostcaps &&& ~~~0x43 := by
  rcases hc.hostcaps with h | ⟨caps, h⟩ <;> rw [h]
  rw [BitVec.and_or_distrib_right, capsFound_bits hv]
  exact BitVec.or_zero

/-- Settles O19: an operation leaves the context or is INIT0 and discovers; an act of the requester leaves it or is the
configuration load. -/
theorem contextWriters : Obligations.ContextWriters := by
  refine ⟨fun i s t h => ?_, fun s t hs hno h => ?_⟩
  · rcases exec_ctx h with hctx | ⟨rfl, hc⟩
    · simp [hctx]
    · exact ⟨hc.regbase, fun hi => absurd rfl hi, hc.voltages, hc.fundclk, hc.keeps_hostcaps, hc.other_hostcaps⟩
  · rcases step_unrequested hs hno h with rfl | ⟨m, rest, hi, hact⟩
    · exact ⟨rfl, fun _ => rfl⟩
    rcases requesterAct_ctx hact with hctx | ⟨⟨c, rfl⟩, -, hver⟩
    · exact ⟨congrArg Context.hostver hctx, fun _ => hctx⟩
    · exact ⟨hver, fun hload => absurd hi (hload c rest)⟩

/-- Settles O12: before the configuration load no request is accepted, and an act of the requester that changes the
context is that load. -/
theorem contextZeroUntilConfigured : Obligations.ContextZeroUntilConfigured := by
  refine ⟨rfl, rfl, rfl, fun s t hs hc h => ?_⟩
  cases step_next h with
  | label pos cs hs' => rw [hs] at hs'; cases hs'
  | request i _ hi hc' => rw [hc] at hc'; cases hc'
  | reserved _ h =>
    rw [reservedRequest_unconfigured hc] at h
    cases h
  | wait _ ht => subst ht; exact ⟨hs, fun _ => rfl⟩
  | act m rest _ hi h =>
    refine ⟨(requesterAct_seq_status h).1.trans hs, fun hnot => ?_⟩
    rcases requesterAct_ctx h with hctx | ⟨-, hconf, -⟩
    · exact hctx
    · rw [hnot] at hconf; cases hconf

end Sys2Proof.Machine
end

section
/-! SUPPORT. Power-on reset, the acts at the request port (rules R24, R30, R82, R110, R111, R114, R136) and what a step
runs (rules R40, R41): the equations of a load that is taken, of the packed descriptor and of a fetched operation. -/

namespace Sys2Proof.Machine

variable {s : State}

/-- Settles O13: every field of the reset state is written out, and the empty buffer is canonical. -/
theorem resetMeetsInvariant : Obligations.ResetMeetsInvariant where
  left := rfl
  right := ⟨rfl, rfl, rfl, {
    buf := rfl
    cfg := fun h => by cases h
    loaded := fun h => by cases h
    elapsed := Nat.two_pow_pos _
    seq := fun pos cs h => by cases h }⟩

/-! ## Loads -/

/-- A load before the first request, with a valid record and a base of rule R82, is taken (rule R24). -/
theorem configLoad_taken {c : ConfigLoad} (hs : s.started = false) (hv : s.cfg.valid = true) (ha : c.regbase % 4 = 0)
    (hb : c.regbase + 0x100 ≤ 2 ^ s.cfg.addrW) :
    configLoad c s = .next { s with
      configured := true
      ctx := { s.ctx with
        regbase := c.regbase
        hostcaps := c.hostcaps.getD s.ctx.hostcaps
        voltages := c.voltages.getD s.ctx.voltages
        fundclk := c.fundclk.getD s.ctx.fundclk } } := by
  have hbase : ¬ (c.regbase % 4 ≠ 0 ∨ 2 ^ s.cfg.addrW < c.regbase + 0x100) := by omega
  simp [configLoad, hs, hv, hbase]

/-- Settles O14: the act at the port is the load, and every check of the load passes. -/
theorem configurationLoads : Obligations.ConfigurationLoads := by
  intro s c rest hs hi hstart hv ha hb
  rw [step_act hs hi (by simp)]
  exact configLoad_taken (s := { s with inbox := rest }) hstart hv ha hb

theorem RClass.ofBits_bits (c : RClass) : RClass.ofBits c.bits = c := by cases c <;> rfl

theorem Dir.ofBit_bit (d : Dir) : Dir.ofBit d.bit = d := by cases d <;> rfl

/-- The fields that a control word is put together from, each read back at its bits (rule R114). -/
theorem controlWord_fields (res : BitVec 21) (dir opchk crc : Bool) (cls : BitVec 2) (op : BitVec 6) :
    let w := res ++ BitVec.ofBool dir ++ BitVec.ofBool opchk ++ BitVec.ofBool crc ++ cls ++ op
    w.extractLsb' 0 6 = op ∧ w.extractLsb' 6 2 = cls ∧ w.getLsbD 8 = crc ∧ w.getLsbD 9 = opchk ∧ w.getLsbD 10 = dir ∧
      w.extractLsb' 11 21 = res := by
  simp (disch := decide) only [BitVec.extractLsb'_append_eq_of_le, BitVec.extractLsb'_append_eq_right,
    BitVec.getLsbD_append, BitVec.getLsbD_ofBool, BitVec.extractLsb'_eq_self, Nat.reduceSub, Nat.reduceLT, if_true,
    if_false, decide_true, Bool.true_and, and_self]

/-- Unpacking a packed descriptor gives it back (rule R114). -/
theorem unpack_pack (d : Descriptor) : d.pack.unpack = d := by
  obtain ⟨hop, hcls, hcrc, hopchk, hdir, hres⟩ :=
    controlWord_fields d.reserved d.dir.bit d.opchk d.crc d.rclass.bits d.opcode
  calc d.pack.unpack
      = { d with
          opcode := d.pack.dcw.extractLsb' 0 6, rclass := .ofBits (d.pack.dcw.extractLsb' 6 2)
          crc := d.pack.dcw.getLsbD 8, opchk := d.pack.dcw.getLsbD 9, dir := .ofBit (d.pack.dcw.getLsbD 10)
          reserved := d.pack.dcw.extractLsb' 11 21 } := rfl
    _ = { d with rclass := .ofBits d.rclass.bits, dir := .ofBit d.dir.bit } := by
      rw [Descriptor.pack, hop, hcls, hcrc, hopchk, hdir, hres]
    _ = d := by rw [RClass.ofBits_bits, Dir.ofBit_bit]

/-- Settles O16: each act at the port is taken by its own equation; a packed descriptor unpacks to itself, and an attached
buffer is built in canonical form from its bytes. -/
theorem operandLoads : Obligations.OperandLoads := by
  intro s rest hs
  refine ⟨fun v hi => step_act hs hi (by simp), fun d hi => step_act hs hi (by simp), fun d hi => ?_,
    fun hi => step_act hs hi (by simp), fun bs hi => ?_, fun n hi => ?_⟩
  · rw [step_act hs hi (by simp), requesterAct, unpack_pack]
  · refine ⟨_, step_act hs hi (by simp), rfl, Memory.wf_ofBytes 0 bs, fun i hlt => ?_, rfl⟩
    have hread := Memory.read_ofBytes 0 bs i
    rwa [Nat.zero_add, List.getElem?_eq_getElem hlt] at hread
  · have hstep : step s = requesterAct (.skipUnlessSuccess n) { s with inbox := rest } := step_act hs hi (by simp)
    have hcode : Status.success.code = 0 := rfl
    rw [hstep, requesterAct, hcode]
    exact ⟨fun h => by rw [if_pos h], fun h => by rw [if_neg h]⟩

/-! ## What a step runs -/

/-- One byte decodes to what its header selects (rule R110). -/
theorem decodeHeader_of_decode {req : Byte} {i : Instr} {rest rest' : List Byte}
    (h : decode (req :: rest) = .ok (i, rest')) : decodeHeader req = .ok i := by
  rw [decode] at h
  cases hd : decodeHeader req with
  | error why => rw [hd] at h; cases h
  | ok j => rw [hd] at h; cases h; rfl

/-- Settles O17: while `IDLE` the header is fetched and decoded, while an operation runs its own next label. -/
theorem stepRunsDecodedOperation : Obligations.StepRunsDecodedOperation :=
  ⟨fun _ _ _ _ hs hi hd => step_request hs hi (decodeHeader_of_decode hd), fun _ _ _ hs => step_running hs⟩

end Sys2Proof.Machine
end

section
/-! SUPPORT. What the port events of one step can be (rules R50, R60, R61, R83), the programming of a command (rules R52,
R186, R187), and what INIT0 makes of its two words with the default record (rules R63, R152 to R155). -/

namespace Sys2Proof.Machine

variable {s t u : State}

/-! ## The access table -/

/-- A new event is the one the effect adds. -/
theorem head_eq {e e' : Event} (hh : t.hist = e :: s.hist) (he : t.hist = e' :: s.hist) : e' = e :=
  (List.cons.inj (he.symm.trans hh)).1

/-- Where no event is added, none is the latest. -/
theorem hist_ne_cons {e : Event} (hh : t.hist = s.hist) : t.hist ≠ e :: s.hist := by simp [hh]

/-- Settles O25: each effect of a label adds one access of the table or none. -/
theorem accessTable : Obligations.AccessTable := by
  intro i s t e h he
  obtain ⟨p, heff⟩ := exec_effect h
  cases heff with
  | silent hh | pollStart hh => exact absurd he (hist_ne_cons hh)
  | read r hr hh | pollRead r hr hh => obtain rfl := head_eq hh he; exact ⟨hr, rfl⟩
  | write r v hr hh => obtain rfl := head_eq hh he; exact ⟨hr, rfl⟩
  | bufRead n v hi hn hh => obtain rfl := head_eq hh he; exact ⟨hi, of_decide_eq_true hn⟩
  | bufWrite n v hi hn hh => obtain rfl := head_eq hh he; exact ⟨hi, of_decide_eq_true hn⟩
  | pollStall hh => obtain rfl := head_eq hh he; rfl

/-! ## The interrupt masks -/

/-- No operation reads `INTEN` or `INTSIG` (rules R60, R61). -/
theorem masks_not_read (i : Instr) : .inten ∉ i.readsOf ∧ .intsig ∉ i.readsOf := by
  cases i <;> simp [Instr.readsOf]

/-- INIT1 and RESET alone write `INTEN` (rule R60). -/
theorem inten_writer {pos : Pos} (h : .inten ∈ pos.op.writesOf) :
    (∃ l, pos = .init1 l) ∨ ∃ f l, pos = .reset f l := by
  cases pos with
  | init1 l => exact .inl ⟨l, rfl⟩
  | reset f l => exact .inr ⟨f, l, rfl⟩
  | fifo d l => cases d <;> simp [Pos.op, Instr.writesOf] at h
  | init0 | send | getbw | setbw | getclk | setclk => simp [Pos.op, Instr.writesOf] at h

/-- INIT1 alone writes `INTSIG` (rule R61). -/
theorem intsig_writer {pos : Pos} (h : .intsig ∈ pos.op.writesOf) : ∃ l, pos = .init1 l := by
  cases pos with
  | init1 l => exact ⟨l, rfl⟩
  | fifo d l => cases d <;> simp [Pos.op, Instr.writesOf] at h
  | init0 | reset | send | getbw | setbw | getclk | setclk => simp [Pos.op, Instr.writesOf] at h

section effect
variable {i : Instr} {p : Option PollPos} {r : Reg} {a : Nat} {v : Word}

/-- A register that is read is one the operation reads (rule R50). -/
theorem Effect.mem_readsOf (h : Effect i s t p) (hh : t.hist = .regRead r a v :: s.hist) : r ∈ i.readsOf := by
  cases h with
  | silent he | pollStart he => exact absurd hh (hist_ne_cons he)
  | read r' hr he | pollRead r' hr he => cases head_eq he hh; exact hr
  | write r' v' hr he => cases head_eq he hh
  | bufRead n w hi hn he | bufWrite n w hi hn he => cases head_eq he hh
  | pollStall he => cases head_eq he hh

/-- A register that is written is one the operation writes (rule R50), and no poll writes. -/
theorem Effect.mem_writesOf (h : Effect i s t p) (hh : t.hist = .regWrite r a v :: s.hist) :
    r ∈ i.writesOf ∧ p = none := by
  cases h with
  | silent he | pollStart he => exact absurd hh (hist_ne_cons he)
  | write r' v' hr he => cases head_eq he hh; exact ⟨hr, rfl⟩
  | read r' hr he | pollRead r' hr he => cases head_eq he hh
  | bufRead n w hi hn he | bufWrite n w hi hn he => cases head_eq he hh
  | pollStall he => cases head_eq he hh

end effect

/-- The word of a register write that is the latest event. -/
theorem State.regWrite_word {r r' : Reg} {a : Nat} {v w : Word}
    (hh : (s.regWrite r w).hist = .regWrite r' a v :: s.hist) : v = w := by
  cases head_eq (s := s) hh rfl
  rfl

section label
variable {pos : Pos} {a : Nat} {v : Word} (h : labelAt pos s = .next t)
include h

/-- The words written to `INTEN` (rule R60): I1_3, RS_5 and RS_6 write it, no other label does. -/
theorem labelAt_writes_inten (hh : t.hist = .regWrite .inten a v :: s.hist) : v = 0 ∨ v = s.cfg.intEnDefault := by
  obtain ⟨hw, hpoll⟩ := (labelAt_effect h).mem_writesOf hh
  rcases inten_writer hw with ⟨l, rfl⟩ | ⟨f, l, rfl⟩
  · cases l with
    | i1_1 | i1_2 | i1_4 => cases h; simp at hh
    | i1_3 => cases h; exact .inr (State.regWrite_word hh)
  · cases l with
    | rs_1 | rs_2 | rs_3 => cases h; simp at hh
    | rs_4 bits p => cases hpoll
    | rs_5 => cases h; exact .inl (State.regWrite_word hh)
    | rs_6 => cases h; exact .inr (State.regWrite_word hh)

/-- The word written to `INTSIG` (rule R61): only I1_4 writes it. -/
theorem labelAt_writes_intsig (hh : t.hist = .regWrite .intsig a v :: s.hist) : v = 0 := by
  obtain ⟨l, rfl⟩ := intsig_writer ((labelAt_effect h).mem_writesOf hh).1
  cases l with
  | i1_1 | i1_2 | i1_3 => cases h; simp at hh
  | i1_4 => cases h; exact State.regWrite_word hh

end label

/-- Where a step adds a register write, a label of an operation does. -/
theorem step_write {r : Reg} {a : Nat} {v : Word} (h : step s = .next t) (hh : t.hist = .regWrite r a v :: s.hist) :
    ∃ pos u, labelAt pos u = .next t ∧ u.hist = s.hist ∧ u.cfg = s.cfg := by
  cases step_next h with
  | label pos cs hs h => exact ⟨pos, s, h, rfl, rfl⟩
  | request i hs hi hc h => exact ⟨i.start, s.accept i, h, rfl, rfl⟩
  | reserved hs h =>
    obtain ⟨-, rfl⟩ := reservedRequest_next h
    exact absurd hh (hist_ne_cons rfl)
  | act m rest hs hi h => exact absurd hh (hist_ne_cons (requesterAct_quiet h).1)
  | wait hs ht => subst ht; exact absurd hh (hist_ne_cons rfl)

/-- Settles O27: only labels of INIT1 and RESET write the two registers, with these words, and no operation reads them. -/
theorem interruptMaskWrites : Obligations.InterruptMaskWrites := by
  intro s t a v h
  obtain ⟨i, heff⟩ := step_effect h
  refine ⟨fun hh => ?_, fun hh => ?_, fun hh => (masks_not_read i).1 (heff.mem_readsOf hh),
    fun hh => (masks_not_read i).2 (heff.mem_readsOf hh)⟩
  · obtain ⟨pos, u, hl, hu, hcfg⟩ := step_write h hh
    exact hcfg ▸ labelAt_writes_inten hl (hu.symm ▸ hh)
  · obtain ⟨pos, u, hl, hu, -⟩ := step_write h hh
    exact labelAt_writes_intsig hl (hu.symm ▸ hh)

/-! ## Programming a command -/

/-- A run begins with the label that stands at the position of the running operation (rule R41). -/
theorem Runs.label {n : Nat} {pos : Pos} {cs : List Pos} (hs : s.seq = .running pos cs) (h : labelAt pos s = .next u)
    (hr : Runs n u t) : Runs (n + 1) s t :=
  .cons ((step_running hs).trans ((exec_op hs).trans h)) hr

/-- A transfer size that is not 0 is data (rule R30). -/
theorem hasData_iff (d : Descriptor) : d.hasData = true ↔ d.bufsize ≠ 0 := by simp [Descriptor.hasData]

/-- SC_4 writes the block word with data, and nothing without (rule R187). -/
theorem labelAt_sc_4 (s : State) :
    labelAt (.send .sc_4) s = .next (State.goto (.send .sc_5) { s with
      hist := (if s.desc.bufsize ≠ 0 then [s.writeOf .blkszcnt (s.cfg.blkszcntWord s.desc)] else []) ++ s.hist }) := by
  simp only [labelAt, sendAt, hasData_iff]
  split <;> rfl

/-- Settles O41: the four labels SC_3 to SC_6 each write at most one register and read none. -/
theorem sendProgramming : Obligations.SendProgramming := by
  intro s cs hs
  have hruns : Runs 4 s _ := .label hs rfl (.label rfl (labelAt_sc_4 _) (.label rfl rfl (.label rfl rfl (.zero _))))
  refine Completes.of_runs hs rfl (cast (congrArg _ ?_) hruns)
  simp only [State.goto, State.regWrite, hs, Seq.callers]
  split_ifs <;> rfl

/-! ## The words INIT0 reads, with the default record -/

/-- `hits` is the test of rule R10's `&` against 0. -/
theorem hits_iff (v m : Word) : v.hits m = true ↔ v &&& m ≠ 0 := by simp [Word.hits]

/-- A mask of `k` ones keeps the low `k` bits. -/
theorem toNat_and_ones (v : Word) {k : Nat} (hk : k ≤ 32) :
    (v &&& BitVec.ofNat 32 (2 ^ k - 1)).toNat = v.toNat % 2 ^ k := by
  have hlt : 2 ^ k - 1 < 2 ^ 32 :=
    lt_of_lt_of_le (Nat.sub_lt (Nat.two_pow_pos k) one_pos) (Nat.pow_le_pow_right two_pos hk)
  rw [BitVec.toNat_and, BitVec.toNat_ofNat, Nat.mod_eq_of_lt hlt, Nat.and_two_pow_sub_one_eq_mod]

/-- A base-clock field of at most 8 bits times 1000000 fits a word (rule R155). -/
theorem toNat_field_mul_million (v : Word) (sh : Nat) {k : Nat} (hk : k ≤ 8) :
    ((v >>> sh &&& BitVec.ofNat 32 (2 ^ k - 1)) * 1000000).toNat = (v.extractLsb' sh k).toNat * 1000000 := by
  have hfield : (v.extractLsb' sh k).toNat < 2 ^ 8 :=
    lt_of_lt_of_le (BitVec.isLt _) (Nat.pow_le_pow_right two_pos hk)
  have hunit : (1000000 : Word).toNat = 1000000 := rfl
  rw [BitVec.toNat_mul, toNat_and_ones _ (by omega), BitVec.toNat_ushiftRight, ← BitVec.extractLsb'_toNat, hunit]
  exact Nat.mod_eq_of_lt (by omega)

/-- Settles O34: the tests are masks written out, and the base clock is a field of 8 or 6 bits, too small for its product
to wrap. -/
theorem init0DefaultWords : Obligations.Init0DefaultWords := by
  intro v caps m ver
  refine ⟨rfl, ?_, ?_, ?_, ?_⟩
  · simp only [Config.Params.capsFound, hits_iff]
    rfl
  · simp only [Config.Params.voltsFound, hits_iff]
    rfl
  · simp only [Config.Params.powerLevel, hits_iff]
    rfl
  · have hver : Config.params.isV3 ver = true ↔ 2 ≤ ver.toNat := decide_eq_true_iff
    simp only [Config.Params.clockFound, hver]
    split
    · exact toNat_field_mul_million caps 8 (k := 8) (by decide)
    · exact toNat_field_mul_million caps 8 (k := 6) (by decide)

end Sys2Proof.Machine
end

section
/-! SUPPORT. The fields of an assembled register word (rules R51, R53, R66): a word that is the OR of values, each inside
its mask, the masks disjoint, holds each value at its mask and nothing outside them; then the command and block words. -/

namespace Sys2Proof.Machine

variable {p : Config.Params} {d : Descriptor}

/-! ## Words put together from fields -/

/-- The OR of words. -/
def orAll (ws : List Word) : Word := ws.foldr (· ||| ·) 0

@[simp] theorem orAll_nil : orAll [] = 0 := rfl
@[simp] theorem orAll_cons (w : Word) (ws : List Word) : orAll (w :: ws) = w ||| orAll ws := rfl

/-- Where each word has no bit in common with a mask, their OR has none. -/
theorem orAll_and_eq_zero {ws : List Word} {m : Word} (h : ∀ w ∈ ws, w &&& m = 0) : orAll ws &&& m = 0 := by
  induction ws with
  | nil => exact BitVec.zero_and
  | cons w ws ih =>
    obtain ⟨hw, hws⟩ := List.forall_mem_cons.1 h
    rw [orAll_cons, BitVec.and_or_distrib_right, hw, ih hws]
    exact BitVec.or_zero

/-- Every word is covered by the OR that it is part of. -/
theorem and_not_orAll {ws : List Word} {w : Word} (h : w ∈ ws) : w &&& ~~~orAll ws = 0 := by
  induction ws with
  | nil => cases h
  | cons w' ws ih =>
    rw [orAll_cons, BitVec.not_or]
    rcases List.mem_cons.1 h with rfl | h
    · rw [← BitVec.and_assoc, BitVec.and_not_self]
      exact BitVec.zero_and
    · rw [BitVec.and_comm (~~~w'), ← BitVec.and_assoc, ih h]
      exact BitVec.zero_and

theorem disjoint_cons {m : Word} {ms : List Word} :
    Config.disjoint (m :: ms) = true ↔ (∀ m' ∈ ms, m &&& m' = 0) ∧ Config.disjoint ms = true := by
  simp [Config.disjoint]

/-- Fields as pairs of a value and its mask: the masks are disjoint, each value is inside its mask (rule R66). -/
structure FieldsOk (fs : List (Word × Word)) : Prop where
  disjoint : Config.disjoint (fs.map (·.2)) = true
  inside : ∀ f ∈ fs, f.1 &&& f.2 = f.1

section fields
variable {fs : List (Word × Word)} {f : Word × Word}

/-- A word with nothing in a mask's bits has nothing inside that mask. -/
theorem and_eq_zero_of_inside {v m n : Word} (hv : v &&& m = v) (hmn : m &&& n = 0) : v &&& n = 0 := by
  rw [← hv, BitVec.and_assoc, hmn]
  exact BitVec.and_zero

/-- The OR of fields holds each value at its mask. -/
theorem FieldsOk.value (h : FieldsOk fs) (hf : f ∈ fs) : orAll (fs.map (·.1)) &&& f.2 = f.1 := by
  induction fs with
  | nil => cases hf
  | cons g fs ih =>
    obtain ⟨hdisj, hrest⟩ := disjoint_cons.1 h.disjoint
    obtain ⟨hg, hinside⟩ := List.forall_mem_cons.1 h.inside
    rw [List.map_cons, orAll_cons, BitVec.and_or_distrib_right]
    rcases List.mem_cons.1 hf with rfl | hf
    · have hothers : orAll (fs.map (·.1)) &&& f.2 = 0 := by
        refine orAll_and_eq_zero fun w hw => ?_
        obtain ⟨e, he, rfl⟩ := List.mem_map.1 hw
        have hef := hdisj e.2 (List.mem_map_of_mem he)
        exact and_eq_zero_of_inside (hinside e he) (BitVec.and_comm e.2 f.2 ▸ hef)
      rw [hg, hothers]
      exact BitVec.or_zero
    · have hgf : g.1 &&& f.2 = 0 := and_eq_zero_of_inside hg (hdisj f.2 (List.mem_map_of_mem hf))
      rw [hgf, ih ⟨hrest, hinside⟩ hf]
      exact BitVec.zero_or

/-- The OR of fields has no bit outside the masks. -/
theorem FieldsOk.outside (h : FieldsOk fs) : orAll (fs.map (·.1)) &&& ~~~orAll (fs.map (·.2)) = 0 := by
  refine orAll_and_eq_zero fun w hw => ?_
  obtain ⟨f, hf, rfl⟩ := List.mem_map.1 hw
  exact and_eq_zero_of_inside (h.inside f hf) (and_not_orAll (List.mem_map_of_mem hf))

end fields

/-- A value below `2^k` is inside `k` ones. -/
theorem and_ones {y : Word} {k : Nat} (hk : k ≤ 32) (hy : y.toNat < 2 ^ k) : y &&& BitVec.ofNat 32 (2 ^ k - 1) = y := by
  exact BitVec.eq_of_toNat_eq ((toNat_and_ones y hk).trans (Nat.mod_eq_of_lt hy))

/-- A value below `2^k`, shifted, is inside the field of `k` ones there. -/
theorem shift_inside {y : Word} {k : Nat} (sh : Nat) (hk : k ≤ 32) (hy : y.toNat < 2 ^ k) :
    (y <<< sh) &&& (BitVec.ofNat 32 (2 ^ k - 1) <<< sh) = y <<< sh := by
  rw [← BitVec.shiftLeft_and_distrib, and_ones hk hy]

/-- A word that holds `y` in the `k`-bit field at `sh` reads `y` there. -/
theorem extract_of_field {w y : Word} {sh k : Nat} (hk : sh + k ≤ 32)
    (h : w &&& (BitVec.ofNat 32 (2 ^ k - 1) <<< sh) = y <<< sh) : (w >>> sh).extractLsb' 0 k = y.setWidth k := by
  refine BitVec.eq_of_getLsbD_eq fun i hi => ?_
  have hbit := congrArg (BitVec.getLsbD · (sh + i)) h
  have hsh : sh + i < 32 := by omega
  have hi' : i < 32 := by omega
  have hone : (BitVec.ofNat 32 (2 ^ k - 1)).getLsbD i = true := by
    simp [BitVec.getLsbD_ofNat, Nat.testBit_two_pow_sub_one, hi, hi', -BitVec.getLsbD_eq_getElem]
  simp only [BitVec.getLsbD_and, BitVec.getLsbD_shiftLeft, Nat.add_sub_cancel_left, hone] at hbit
  simpa [hi, hi', hsh] using hbit

/-! ## The command word -/

theorem multi_iff : d.multi p = true ↔ d.opcode = p.opReadMulti ∨ d.opcode = p.opWriteMulti := by
  simp [Descriptor.multi]

/-- The fields of the command word, the DMA bit left out, in the order of `cmdFields` (rules R53, R122 to R126). -/
def commandFields (p : Config.Params) (d : Descriptor) (caps : Word) : List (Word × Word) :=
  let multiData := d.bufsize ≠ 0 ∧ (d.opcode = p.opReadMulti ∨ d.opcode = p.opWriteMulti)
  [(if multiData then p.cl.xBlkcntEn else 0, p.cl.xBlkcntEn),
   (if multiData then p.autoFlag caps else 0, p.cl.xAutoCmd12),
   (if d.bufsize ≠ 0 ∧ d.dir = .read then p.cl.xRead else 0, p.cl.xRead),
   (if multiData then p.cl.xMulti else 0, p.cl.xMulti),
   ((p.respCode d.rclass).setWidth 32 <<< p.cl.cmdRespShift, 3#32 <<< p.cl.cmdRespShift),
   (if d.crc = true then p.cl.cmdCrcChk else 0, p.cl.cmdCrcChk),
   (if d.opchk = true then p.cl.cmdIdxChk else 0, p.cl.cmdIdxChk),
   (if d.bufsize ≠ 0 then p.cl.cmdData else 0, p.cl.cmdData),
   (d.opcode.setWidth 32 <<< p.cl.cmdIndexShift, 0x3F#32 <<< p.cl.cmdIndexShift)]

/-- The command word is the OR of its fields (rule R122). -/
theorem commandWord_eq_orAll (caps : Word) : p.commandWord d caps = orAll ((commandFields p d caps).map (·.1)) := by
  simp only [Config.Params.commandWord, Config.Params.respFlags, Config.Params.dataFlags, commandFields, hasData_iff,
    multi_iff, List.map_cons, List.map_nil, orAll_cons, orAll_nil]
  by_cases hdata : d.bufsize = 0
  · simp only [hdata, ne_eq, not_true, false_and, if_false]
    ac_rfl
  · by_cases hmulti : d.opcode = p.opReadMulti ∨ d.opcode = p.opWriteMulti
    · simp only [hdata, hmulti, ne_eq, not_false_iff, true_and, if_true]
      ac_rfl
    · simp only [hdata, hmulti, ne_eq, not_false_iff, true_and, and_false, if_true, if_false]
      ac_rfl

/-- What a valid record says of the layout of `CMD` and `BLKSZCNT` (rules R8, R66). -/
theorem layout_of_valid (h : p.valid = true) :
    Config.disjoint p.blkszcntFields = true ∧ Config.disjoint p.cmdFields = true ∧ p.cl.blksizeShift + 12 ≤ 32 ∧
      p.cl.blkcountShift + 16 ≤ 32 ∧ p.cl.cmdRespShift + 2 ≤ 32 ∧ p.cl.cmdIndexShift + 6 ≤ 32 ∧
      p.blk.toNat ≤ 0xFFF := by
  simp only [Config.Params.valid, Config.Params.valuesOk, Config.Params.layoutOk, Bool.and_eq_true,
    decide_eq_true_eq] at h
  tauto

/-- A mask that is there or not is inside itself. -/
theorem ite_and_mask (c : Prop) [Decidable c] (m : Word) : (if c then m else 0) &&& m = if c then m else 0 := by
  split
  · exact BitVec.and_self
  · exact BitVec.zero_and

theorem autoFlag_inside (caps : Word) : p.autoFlag caps &&& p.cl.xAutoCmd12 = p.autoFlag caps := ite_and_mask _ _

/-- The fields of a valid record's command word are disjoint and hold their values (rules R53, R66). -/
theorem commandFields_ok (h : p.valid = true) (caps : Word) : FieldsOk (commandFields p d caps) where
  disjoint := by
    obtain ⟨-, hdisj, -⟩ := layout_of_valid h
    exact (disjoint_cons.1 hdisj).2
  inside := by
    have hwidth : ∀ {k : Nat} (x : BitVec k), k ≤ 32 → (x.setWidth 32).toNat < 2 ^ k := fun x hk => by
      rw [BitVec.toNat_setWidth_of_le hk]
      exact x.isLt
    simp only [commandFields, List.forall_mem_cons, ite_and_mask, true_and]
    refine ⟨?_, shift_inside (k := 2) _ (by decide) (hwidth _ (by decide)),
      shift_inside (k := 6) _ (by decide) (hwidth _ (by decide)), ?_⟩
    · split
      · exact autoFlag_inside caps
      · exact BitVec.zero_and
    · simp

/-- Settles O8: the command word is the OR of disjoint fields, so it holds each at its mask and nothing outside them. -/
theorem commandWordFields : Obligations.CommandWordFields := by
  refine ⟨by decide, fun p d caps hv => ?_⟩
  have hok := commandFields_ok (d := d) hv caps
  obtain ⟨-, -, -, -, hresp, hindex, -⟩ := layout_of_valid hv
  have hvalue : ∀ f ∈ commandFields p d caps, p.commandWord d caps &&& f.2 = f.1 := fun f hf =>
    commandWord_eq_orAll caps ▸ hok.value hf
  have houtside := commandWord_eq_orAll (p := p) (d := d) caps ▸ hok.outside
  simp only [commandFields, List.forall_mem_cons] at hvalue
  obtain ⟨hblkcnt, -, hread, hmulti, hrespField, hcrc, hopchk, hdata, hopcode, -⟩ := hvalue
  refine ⟨?_, ?_, hcrc, hopchk, hdata, hread, hmulti, hblkcnt, ?_⟩
  · exact (extract_of_field hindex hopcode).trans (by simp)
  · refine (extract_of_field hresp hrespField).trans ?_
    rw [BitVec.setWidth_setWidth_of_le _ (by decide), BitVec.setWidth_eq]
    cases d.rclass <;> rfl
  · rw [← houtside]
    congr 2
    simp only [commandFields, List.map_cons, List.map_nil, orAll_cons, orAll_nil]
    ac_rfl

/-! ## The block word -/

/-- The size and the count of the block word (rules R51, R124). -/
def blockFields (p : Config.Params) (d : Descriptor) : List (Word × Word) :=
  let multi := d.opcode = p.opReadMulti ∨ d.opcode = p.opWriteMulti
  [((if multi then p.blk else d.bufsize) <<< p.cl.blksizeShift, 0xFFF#32 <<< p.cl.blksizeShift),
   ((if multi then d.bufsize / p.blk else 0) <<< p.cl.blkcountShift, 0xFFFF#32 <<< p.cl.blkcountShift)]

theorem blkszcntWord_eq_orAll : p.blkszcntWord d = orAll ((blockFields p d).map (·.1)) := by
  simp only [Config.Params.blkszcntWord, blockFields, multi_iff, List.map_cons, List.map_nil, orAll_cons, orAll_nil]
  split
  · ac_rfl
  · simp

/-- Within rule R182 size and count fit their fields (rule R51). -/
theorem block_bounds {n : Option Nat} (hv : p.valid = true) (hpre : d.preconditions p n = true) (hdata : d.bufsize ≠ 0) :
    let multi := d.opcode = p.opReadMulti ∨ d.opcode = p.opWriteMulti
    (if multi then p.blk else d.bufsize).toNat < 2 ^ 12 ∧ (if multi then d.bufsize / p.blk else 0).toNat < 2 ^ 16 := by
  obtain ⟨-, -, -, -, -, -, hblk⟩ := layout_of_valid hv
  have hhas : d.hasData = true := (hasData_iff d).2 hdata
  simp only [Descriptor.preconditions, hhas, Bool.not_true, Bool.false_or, Bool.and_eq_true] at hpre
  obtain ⟨-, hsize, -⟩ := hpre
  simp only [← multi_iff]
  split at hsize
  · rename_i hmulti
    simp only [Bool.and_eq_true, decide_eq_true_eq] at hsize
    rw [if_pos hmulti, if_pos hmulti, BitVec.toNat_udiv]
    omega
  · rename_i hmulti
    rw [if_neg hmulti, if_neg hmulti]
    exact ⟨by have := of_decide_eq_true hsize; omega, by decide⟩

/-- Settles O9: the block word is the OR of two disjoint fields whose values fit. -/
theorem blockWordFields : Obligations.BlockWordFields := by
  intro p d n hv hpre hdata
  obtain ⟨hsize, hcount⟩ := block_bounds hv hpre hdata
  obtain ⟨hdisj, -, hsizeShift, hcountShift, -, -, -⟩ := layout_of_valid hv
  have hok : FieldsOk (blockFields p d) := {
    disjoint := hdisj
    inside := by
      simp only [blockFields, List.forall_mem_cons]
      exact ⟨shift_inside (k := 12) _ (by decide) hsize, shift_inside (k := 16) _ (by decide) hcount, by simp⟩ }
  have hvalue : ∀ f ∈ blockFields p d, p.blkszcntWord d &&& f.2 = f.1 := fun f hf =>
    blkszcntWord_eq_orAll ▸ hok.value hf
  have houtside := blkszcntWord_eq_orAll (p := p) (d := d) ▸ hok.outside
  simp only [blockFields, List.forall_mem_cons] at hvalue
  obtain ⟨hsizeField, hcountField, -⟩ := hvalue
  refine ⟨?_, ?_, ?_⟩
  · rw [extract_of_field hsizeShift hsizeField, BitVec.toNat_setWidth, Nat.mod_eq_of_lt hsize]
    split <;> rfl
  · rw [extract_of_field hcountShift hcountField, BitVec.toNat_setWidth, Nat.mod_eq_of_lt hcount]
    split
    · exact BitVec.toNat_udiv
    · rfl
  · simpa [blockFields] using houtside

end Sys2Proof.Machine
end

section
/-! SUPPORT. The buffer and the register addresses under one step (rules R81 to R83, R86, R216): what each label may answer,
said once for the buffer and for faults; that the word indices of a good state stay in range; and the statements. -/

namespace Sys2Proof.Machine

variable {s t : State}

/-! ## What one label answers -/

/-- What the label at a position may answer, as far as the buffer and faults go: only a data word on its way from or to the
buffer forms a buffer index (rules R212, R213, R216), every other answer keeps the buffer or refuses. -/
inductive Answers (s : State) : Pos → Out → Prop where
  | keeps {pos : Pos} {t : State} (hbuf : t.buf = s.buf) : Answers s pos (.next t)
  | refuses {pos : Pos} (why : Refusal) : Answers s pos (.refused why)
  | fetches {rem idx n k : Word} (hk : k < n / 4) :
      Answers s (.fifo .write (.ff_6k rem idx n k))
        (bufRead (idx + k).toNat s fun w u => .next (u.goto (.fifo .write (.ff_6w rem idx n k w))))
  | stores {rem idx n k w : Word} :
      Answers s (.fifo .read (.ff_6w rem idx n k w))
        (bufWrite (idx + k).toNat w s fun u => .next (u.goto (.fifo .read (.ff_6k rem idx n (k + 1)))))

/-- A poll keeps the buffer (rule R13). -/
theorem pollUntil_answers {pos : Pos} {r : Reg} {pred : Word → Bool} {T : Nat} {here : PollPos → Pos}
    {done : Word → Pos} (p : PollPos) (s : State) : Answers s pos (pollUntil r pred T here done p s) := by
  cases p with
  | start | p1 => exact .keeps rfl
  | p2 => rw [pollUntil_p2]; exact .keeps (by split <;> rfl)

theorem init0At_answers (l : Init0Pos) (s : State) : Answers s (.init0 l) (init0At l s) := by
  cases l with
  | i0_1 | i0_2 | i0_3 | i0_6 => exact .keeps rfl
  | i0_4 caps => dsimp only [init0At]; split_ifs <;> exact .keeps rfl
  | i0_5 caps => dsimp only [init0At]; split <;> exact .keeps rfl

theorem init1At_answers (l : Init1Pos) (s : State) : Answers s (.init1 l) (init1At l s) := by
  cases l with
  | i1_1 | i1_2 | i1_3 | i1_4 => exact .keeps rfl

theorem resetAt_answers (f : BitVec 3) (l : ResetPos) (s : State) : Answers s (.reset f l) (resetAt f l s) := by
  cases l with
  | rs_1 | rs_2 | rs_3 | rs_5 | rs_6 => exact .keeps rfl
  | rs_4 bits p => unfold resetAt; exact pollUntil_answers p s

/-- SC_10 keeps the buffer, whatever it captures (rules R194 to R196). -/
theorem captureAt_answers (v : Word) (s : State) : Answers s (.send (.sc_10 v)) (captureAt v s) := by
  unfold captureAt
  split
  · split <;> exact .keeps rfl
  · exact .keeps rfl

theorem sendAt_answers (l : SendPos) (s : State) : Answers s (.send l) (sendAt l s) := by
  cases l with
  | sc_0 =>
    dsimp only [sendAt]
    split
    · exact .keeps (by split <;> rfl)
    · exact .refuses _
  | sc_1 | sc_3 | sc_5 | sc_6 | sc_8r | sc_10b | sc_10c | sc_10d | sc_12 => exact .keeps rfl
  | sc_2 mask p => unfold sendAt; exact pollUntil_answers p s
  | sc_7 p => unfold sendAt; exact pollUntil_answers p s
  | sc_10 v => exact captureAt_answers v s
  | sc_4 | sc_8 v | sc_9 v | sc_11 | sc_11r st => exact .keeps (by split <;> rfl)

theorem getbwAt_answers (l : GetbwPos) (s : State) : Answers s (.getbw l) (getbwAt l s) := by
  cases l with
  | gb_1 | gb_2 => exact .keeps rfl

theorem setbwAt_answers (l : SetbwPos) (s : State) : Answers s (.setbw l) (setbwAt l s) := by
  cases l with
  | sb_0 => exact .keeps (by split <;> rfl)
  | sb_1 | sb_2 => exact .keeps rfl

theorem setclkAt_answers (l : SetclkPos) (s : State) : Answers s (.setclk l) (setclkAt l s) := by
  cases l with
  | ck_0 => exact .keeps (by split <;> rfl)
  | ck_1 | ck_2 | ck_3 | ck_5 => exact .keeps rfl
  | ck_4 clk p => unfold setclkAt; exact pollUntil_answers p s

/-- The data mover forms a buffer index at one of the two accesses of a word: the first on a write, the second on a read
(rules R212, R213). -/
theorem fifoAt_answers (d : Dir) (l : FifoPos) (s : State) : Answers s (.fifo d l) (fifoAt d l s) := by
  cases l with
  | ff_0 | ff_1 | ff_5 | ff_6 | ff_7 => exact .keeps rfl
  | ff_2 rem idx n p => unfold fifoAt; exact pollUntil_answers p s
  | ff_3 | ff_4 | ff_7w => exact .keeps (by split <;> rfl)
  | ff_6k rem idx n k =>
    dsimp only [fifoAt]
    split
    · rename_i hk
      cases d with
      | read => exact .keeps rfl
      | write => exact .fetches hk
    · exact .keeps rfl
  | ff_6w rem idx n k w =>
    cases d with
    | read => exact .stores
    | write => exact .keeps rfl

/-- Every label answers so. -/
theorem labelAt_answers (pos : Pos) (s : State) : Answers s pos (labelAt pos s) := by
  cases pos with
  | init0 l => exact init0At_answers l s
  | init1 l => exact init1At_answers l s
  | reset f l => exact resetAt_answers f l s
  | send l => exact sendAt_answers l s
  | getbw l => exact getbwAt_answers l s
  | setbw l => exact setbwAt_answers l s
  | getclk => exact .keeps rfl
  | setclk l => exact setclkAt_answers l s
  | fifo d l => exact fifoAt_answers d l s

/-! ## The bytes of the buffer (rules R83, R86) -/

/-- The buffer after an answer: kept, or one word stored at the second access of a word of FIFO_READ. -/
inductive BufCase (s : State) (pos : Pos) (buf : Memory) : Prop where
  | same (hbuf : buf = s.buf)
  | word (rem idx n k w : Word) (hpos : pos = .fifo .read (.ff_6w rem idx n k w))
      (hbuf : buf = s.buf.writeWord (idx + k).toNat w)

theorem Answers.buf {pos : Pos} {o : Out} (a : Answers s pos o) (ho : o = .next t) : BufCase s pos t.buf := by
  cases a with
  | keeps hbuf => cases ho; exact .same hbuf
  | refuses why => cases ho
  | fetches hk =>
    obtain ⟨-, ho⟩ := bufRead_next ho
    cases ho
    exact .same rfl
  | stores =>
    obtain ⟨-, ho⟩ := bufWrite_next ho
    cases ho
    exact .word _ _ _ _ _ rfl rfl

theorem labelAt_buf {pos : Pos} (h : labelAt pos s = .next t) : BufCase s pos t.buf := (labelAt_answers pos s).buf h

/-- Accepting a request and its first label keep the buffer. -/
theorem accepted_buf {i : Instr} (h : labelAt i.start (s.accept i) = .next t) : t.buf = s.buf := by
  cases labelAt_buf h with
  | same hbuf => exact hbuf
  | word rem idx n k w hpos => cases i <;> cases hpos

/-- One step of an operation keeps the buffer but where FIFO_READ stores a word. -/
theorem exec_buf {i : Instr} (h : exec i s = .next t)
    (hno : i = .fifoRead → ∀ rem idx n k w cs, s.seq ≠ .running (.fifo .read (.ff_6w rem idx n k w)) cs) :
    t.buf = s.buf := by
  cases exec_next h with
  | accepted hs hi hc h => exact accepted_buf h
  | held pos cs hs hop ht => rw [ht]
  | label pos cs hs hop h =>
    cases labelAt_buf h with
    | same hbuf => exact hbuf
    | word rem idx n k w hpos =>
      subst hpos
      exact absurd hs (hno hop.symm rem idx n k w cs)

/-- FIFO_READ's second access of a word stores it in the buffer (rule R212). -/
theorem exec_stores_word {rem idx n k w : Word} {cs : List Pos}
    (hs : s.seq = .running (.fifo .read (.ff_6w rem idx n k w)) cs) (h : exec .fifoRead s = .next t) :
    t.buf = s.buf.writeWord (idx + k).toNat w := by
  rw [execFifoRead_at hs, fifoAt] at h
  rcases wordStore_next h with ⟨-, -, h⟩ | ⟨hd, -⟩
  · cases h; rfl
  · cases hd

/-- Byte `j` of a stored word, little-endian (rule R86). -/
theorem Memory.read_writeWord_byte {i j : Nat} {v : Word} {m : Memory} (h : Memory.wf m = true) (hj : j < 4) :
    Memory.read (4 * i + j) (Memory.writeWord i v m) = v.extractLsb' (8 * j) 8 := by
  rw [Memory.read_writeWord h]
  interval_cases j <;> simp

/-- A stored word leaves the bytes outside its four alone (rule R86). -/
theorem Memory.read_writeWord_outside {i a : Nat} {v : Word} {m : Memory} (h : Memory.wf m = true)
    (ha : a < 4 * i ∨ 4 * i + 4 ≤ a) : Memory.read a (Memory.writeWord i v m) = Memory.read a m := by
  rw [Memory.read_writeWord h, if_neg (by omega), if_neg (by omega), if_neg (by omega), if_neg (by omega)]

/-- Settles O22: FIFO_READ's second access of a word is a word write, and every other step keeps the buffer as it is. -/
theorem bufferFrame : Obligations.BufferFrame := by
  intro i s t hwf h
  refine ⟨fun rem idx n k w cs hi hs => ?_, fun hno a => by rw [exec_buf h hno]⟩
  subst hi
  rw [exec_stores_word hs h]
  exact ⟨Memory.readWord_writeWord hwf, fun j hj => Memory.read_writeWord_byte hwf hj,
    fun a ha => Memory.read_writeWord_outside hwf ha⟩

/-! ## Register addresses (rules R8, R81, R82) -/

theorem mem_allRegs (r : Reg) : r ∈ Config.allRegs := by cases r <;> decide

/-- A valid record's offsets are aligned and within the 256 bytes of the register block (rule R8). -/
theorem off_of_valid {p : Config.Params} (h : p.valid = true) (r : Reg) : p.off r % 4 = 0 ∧ p.off r ≤ 0xFC := by
  simp only [Config.Params.valid, Config.Params.offsetsOk, Bool.and_eq_true, List.all_eq_true, List.mem_map, beq_iff_eq,
    decide_eq_true_eq] at h
  obtain ⟨⟨⟨-, hoff, -⟩, -⟩, -⟩ := h
  exact hoff _ ⟨r, mem_allRegs r, rfl⟩

/-- Above a base of rule R82 no offset of the register block wraps. -/
theorem State.regAddr_eq (hb : s.baseOk) {r : Reg} (hoff : s.cfg.off r ≤ 0xFC) :
    s.regAddr r = s.ctx.regbase + s.cfg.off r :=
  Nat.mod_eq_of_lt (by have := hb.2; omega)

/-- Settles O26: the invariant gives a valid record and a base of rule R82, whose sum with an offset neither wraps nor loses
its alignment. -/
theorem registerAddressesAligned : Obligations.RegisterAddressesAligned := by
  intro s r h hc
  obtain ⟨hvalid, hbase⟩ := h.cfg hc
  obtain ⟨halign, hle⟩ := off_of_valid hvalid r
  have haddr := State.regAddr_eq hbase hle
  exact ⟨haddr, by rw [haddr, Nat.add_mod, hbase.1, halign], hle⟩

/-! ## Faults (rules R83, R216) -/

/-- A word of the chunk under way has its index in the BUF space (rule R216). -/
theorem bufIndexOk_of_inChunk {rem idx n k : Word} (hv : s.cfg.valid = true) (hsend : s.sendOk)
    (h : InChunk s rem idx n) (hk : k.toNat < n.toNat / 4) : s.bufIndexOk (idx + k).toNat = true := by
  obtain ⟨hle, -⟩ := chunk_words hv hsend h
  have hmoved : 4 * idx.toNat + rem.toNat = s.desc.bufsize.toNat := h.1
  have hsum : (idx + k).toNat ≤ idx.toNat + k.toNat := by
    rw [BitVec.toNat_add]
    exact Nat.mod_le _ _
  exact decide_eq_true (by omega)

/-- Where the index is in the BUF space a buffer read goes on (rule R83). -/
theorem bufRead_ok {i : Nat} {k : Word → State → Out} (h : s.bufIndexOk i = true) :
    bufRead i s k = k (s.buf.readWord i) { s with hist := .bufRead i (s.buf.readWord i) :: s.hist } := if_pos h

/-- Where the index is in the BUF space a buffer write goes on (rule R83). -/
theorem bufWrite_ok {i : Nat} {v : Word} {k : State → Out} (h : s.bufIndexOk i = true) :
    bufWrite i v s k = k { s with buf := s.buf.writeWord i v, hist := .bufWrite i v :: s.hist } := if_pos h

/-- In a good state the label that runs next does not fault. -/
theorem labelAt_ne_fault {pos : Pos} {cs : List Pos} (h : s.Inv) (hs : s.seq = .running pos cs) (r : Fault) :
    labelAt pos s ≠ .fault r := by
  intro hr
  have hvalid := h.valid_of_running hs
  have hpos := h.posOk hs
  generalize ho : labelAt pos s = o at hr
  cases ho ▸ labelAt_answers pos s with
  | keeps | refuses => cases hr
  | @fetches rem idx n k hk =>
    obtain ⟨hsend, -, -, hchunk, -⟩ := hpos
    have hk : k.toNat < n.toNat / 4 := by simpa using BitVec.lt_def.1 hk
    rw [bufRead_ok (bufIndexOk_of_inChunk hvalid hsend hchunk hk)] at hr
    cases hr
  | stores =>
    obtain ⟨hsend, -, -, hchunk, hk⟩ := hpos
    rw [bufWrite_ok (bufIndexOk_of_inChunk hvalid hsend hchunk hk)] at hr
    cases hr

theorem configLoad_ne_fault (c : ConfigLoad) (s : State) (r : Fault) : configLoad c s ≠ .fault r := by
  unfold configLoad
  split_ifs <;> simp

theorem requesterAct_ne_fault (m : ReqMsg) (s : State) (r : Fault) : requesterAct m s ≠ .fault r := by
  cases m with
  | config c => exact configLoad_ne_fault c s r
  | attach b => cases b <;> simp [requesterAct]
  | loadValue | loadDesc | loadWords | present | skipUnlessSuccess => simp [requesterAct]

theorem reservedRequest_ne_fault (s : State) (r : Fault) : reservedRequest s ≠ .fault r := by
  unfold reservedRequest
  split_ifs <;> simp

/-- A step faults only where a label does: the next one of the running operation, or the first of an accepted request. -/
theorem step_fault {r : Fault} (h : step s = .fault r) :
    (∃ pos cs, s.seq = .running pos cs ∧ labelAt pos s = .fault r) ∨
    (∃ i : Instr, i.wellFormed = true ∧ s.configured = true ∧ labelAt i.start (s.accept i) = .fault r) := by
  cases hs : s.seq with
  | running pos cs => exact .inl ⟨pos, cs, rfl, by rw [← exec_op hs, ← step_running hs, h]⟩
  | idle =>
    cases hi : s.inbox with
    | nil => rw [step_wait hs hi] at h; cases h
    | cons m rest =>
      by_cases hm : ∃ req, m = .present req
      · obtain ⟨req, rfl⟩ := hm
        cases hd : decodeHeader req with
        | error why => exact absurd (step_reserved hs hi hd ▸ h) (reservedRequest_ne_fault s r)
        | ok i =>
          have hw := wellFormed_of_decodeHeader hd
          rw [step_request hs hi hd, exec_idle hs hw] at h
          cases hc : s.configured with
          | false => rw [begin_unconfigured hc] at h; cases h
          | true => exact .inr ⟨i, hw, rfl, by rw [← h, begin_configured hc]⟩
      · exact absurd (step_act hs hi (fun req hr => hm ⟨req, hr⟩) ▸ h) (requesterAct_ne_fault m _ r)

/-- Settles O29: a fault would be a label's, and no label faults in a good state, the first one of an accepted request
included. -/
theorem goodStateNeverFaults : Obligations.GoodStateNeverFaults := by
  intro s h r hr
  rcases step_fault hr with ⟨pos, cs, hs, hl⟩ | ⟨i, hw, hc, hl⟩
  · exact labelAt_ne_fault h hs r hl
  · exact labelAt_ne_fault (h.accept hc hw) rfl r hl

end Sys2Proof.Machine
end

section
/-! SUPPORT. The request header and the packed descriptor (rules R110 to R114): the fields of an assembled header, the
decoder as the inverse of the encoder, in both directions, and the control word put together again from its fields. -/

namespace Sys2Proof.Machine

variable {req : Byte} {i : Instr}

/-! ## The fields of a header (rule R110) -/

@[simp] theorem opsel_header (m sel : BitVec 3) : opsel (header m sel) = sel := BitVec.extractLsb'_append_eq_right

@[simp] theorem modField_header (m sel : BitVec 3) : modField (header m sel) = m := by
  rw [modField, header, BitVec.extractLsb'_append_eq_of_le (le_refl 3)]
  exact BitVec.extractLsb'_append_eq_right

@[simp] theorem header_high (m sel : BitVec 3) : (header m sel).extractLsb' 6 2 = 0 := by
  rw [header, BitVec.extractLsb'_append_eq_of_le (by decide)]
  exact BitVec.extractLsb'_append_eq_left

/-- Two fields next to one another in a word are one field. -/
theorem extract_append_extract {w : Nat} (v : BitVec w) (lo m n : Nat) :
    v.extractLsb' (lo + n) m ++ v.extractLsb' lo n = v.extractLsb' lo (m + n) :=
  BitVec.extractLsb'_append_extractLsb'_eq_extractLsb' rfl

/-- A byte with `REQ[7:6] = 0` is the header of its two fields. -/
theorem header_fields (h : req.extractLsb' 6 2 = 0) : header (modField req) (opsel req) = req :=
  calc header (modField req) (opsel req)
      = req.extractLsb' 6 2 ++ req.extractLsb' 3 3 ++ req.extractLsb' 0 3 := by rw [h]; rfl
    _ = req.extractLsb' 3 5 ++ req.extractLsb' 0 3 := congrArg (· ++ _) (extract_append_extract req 3 2 3)
    _ = req.extractLsb' 0 8 := extract_append_extract req 0 5 3
    _ = req := BitVec.extractLsb'_eq_self

/-! ## The decoder, selector by selector (rules R110, R112) -/

theorem decodeHeader_init (m : BitVec 3) : decodeHeader (header m 0) = pick m .init0 .init1 .initPhase := by
  simp [decodeHeader]

theorem decodeHeader_reset (f : BitVec 3) : decodeHeader (header f 1) = .ok (.reset f) := by simp [decodeHeader]

theorem decodeHeader_send (m : BitVec 3) :
    decodeHeader (header m 2) = if m = 0 then .ok .send else .error .sendModifier := by simp [decodeHeader]

theorem decodeHeader_width (m : BitVec 3) : decodeHeader (header m 3) = pick m .getbw .setbw .widthMode := by
  simp [decodeHeader]

theorem decodeHeader_clock (m : BitVec 3) : decodeHeader (header m 4) = pick m .getclk .setclk .clockMode := by
  simp [decodeHeader]

theorem decodeHeader_selector {m sel : BitVec 3} (h : 5 ≤ sel.toNat) :
    decodeHeader (header m sel) = .error .selector := by
  have hlt := sel.isLt
  have : sel.toNat = 5 ∨ sel.toNat = 6 ∨ sel.toNat = 7 := by omega
  rcases this with h | h | h <;> simp [decodeHeader, h]

/-- A modifier that is picked is 0 or 1. -/
theorem pick_eq_ok {m : BitVec 3} {zero one : Instr} {why : DecodeReject} (h : pick m zero one why = .ok i) :
    (m = 0 ∧ i = zero) ∨ (m = 1 ∧ i = one) := by
  unfold pick at h
  split_ifs at h with h0 h1
  · cases h; exact .inl ⟨h0, rfl⟩
  · cases h; exact .inr ⟨h1, rfl⟩

/-- Encoding an operation that was decoded gives the header back: each operation has one header (rule R113). -/
theorem encode_of_decodeHeader (h : decodeHeader req = .ok i) : encode i = [req] := by
  have hhigh : req.extractLsb' 6 2 = 0 := by
    by_contra hne
    rw [decodeHeader, if_pos hne] at h
    cases h
  obtain ⟨m, sel, rfl⟩ : ∃ m sel, header m sel = req := ⟨_, _, header_fields hhigh⟩
  have hsel : sel = 0 ∨ sel = 1 ∨ sel = 2 ∨ sel = 3 ∨ sel = 4 ∨ 5 ≤ sel.toNat := by bv_omega
  rcases hsel with rfl | rfl | rfl | rfl | rfl | hsel
  · rw [decodeHeader_init] at h
    rcases pick_eq_ok h with ⟨rfl, rfl⟩ | ⟨rfl, rfl⟩ <;> rfl
  · rw [decodeHeader_reset] at h
    cases h; rfl
  · rw [decodeHeader_send] at h
    split_ifs at h with hm
    cases h; rw [hm]; rfl
  · rw [decodeHeader_width] at h
    rcases pick_eq_ok h with ⟨rfl, rfl⟩ | ⟨rfl, rfl⟩ <;> rfl
  · rw [decodeHeader_clock] at h
    rcases pick_eq_ok h with ⟨rfl, rfl⟩ | ⟨rfl, rfl⟩ <;> rfl
  · rw [decodeHeader_selector hsel] at h
    cases h

/-- The header of a requestable operation decodes to it (rule R110). -/
theorem decodeHeader_of_encode (h : encode i = [req]) : decodeHeader req = .ok i := by
  cases i with
  | init0 | init1 => cases h; exact decodeHeader_init _
  | reset f => cases h; exact decodeHeader_reset f
  | send => cases h; exact decodeHeader_send _
  | getbw | setbw => cases h; exact decodeHeader_width _
  | getclk | setclk => cases h; exact decodeHeader_clock _
  | fifoRead | fifoWrite => cases h

/-- A requestable operation has one header byte (rule R110). -/
theorem encode_of_wellFormed (h : i.wellFormed = true) : ∃ req, encode i = [req] := by
  cases i with
  | init0 | init1 | reset | send | getbw | setbw | getclk | setclk => exact ⟨_, rfl⟩
  | fifoRead | fifoWrite => cases h

/-- Settles O3: a requestable operation has one header byte, and that byte decodes to it. -/
theorem decodeOfEncode : Obligations.DecodeOfEncode := by
  intro i rest hi
  obtain ⟨req, hreq⟩ := encode_of_wellFormed hi
  rw [hreq, List.singleton_append, decode, decodeHeader_of_encode hreq]
  rfl

/-- Settles O2: the bytes are the encodings of the eight operations. -/
theorem sampleHeadersDecode : Obligations.SampleHeadersDecode :=
  ⟨decodeOfEncode .init0 [] rfl, decodeOfEncode .init1 [] rfl, decodeOfEncode (.reset 0b110) [] rfl,
    decodeOfEncode .send [] rfl, decodeOfEncode .getbw [] rfl, decodeOfEncode .setbw [] rfl,
    decodeOfEncode .getclk [] rfl, decodeOfEncode .setclk [] rfl⟩

/-- What the mask of rule R113 keeps of a byte: all but the modifier. -/
theorem and_mask_fields (req : Byte) :
    (req &&& 0xC7).extractLsb' 6 2 = req.extractLsb' 6 2 ∧ modField (req &&& 0xC7) = 0 ∧
      opsel (req &&& 0xC7) = opsel req := by
  have hhigh : (0xC7 : Byte).extractLsb' 6 2 = BitVec.allOnes 2 := rfl
  have hmod : (0xC7 : Byte).extractLsb' 3 3 = 0 := rfl
  have hsel : (0xC7 : Byte).extractLsb' 0 3 = BitVec.allOnes 3 := rfl
  simp only [modField, opsel, BitVec.extractLsb'_and, hhigh, hmod, hsel]
  exact ⟨BitVec.and_allOnes, BitVec.and_zero, BitVec.and_allOnes⟩

/-- The match and mask of the RESET row of rule R113. -/
theorem and_mask_eq_iff : req &&& 0xC7 = 0x01 ↔ ∃ f, req = header f 1 := by
  obtain ⟨hhigh, hmod, hsel⟩ := and_mask_fields req
  constructor
  · intro h
    have hhigh : req.extractLsb' 6 2 = 0 := by rw [← hhigh, h]; rfl
    have hsel : opsel req = 1 := by rw [← hsel, h]; rfl
    exact ⟨modField req, by rw [← hsel, header_fields hhigh]⟩
  · rintro ⟨f, rfl⟩
    rw [header_high] at hhigh
    rw [← header_fields hhigh, hmod, hsel, opsel_header]
    rfl

/-- Settles O1: each byte of the list is the encoding of its operation, the masked row is RESET with its flags, and a byte
that decodes is the encoding of what it decodes to. -/
theorem headerDecodingIsTotal : Obligations.HeaderDecodingIsTotal := by
  intro req
  refine ⟨?_, ?_, ?_, ?_, ?_, ?_, ?_, fun hmask => ?_, fun hmask hother => ?_⟩
  case refine_8 =>
    obtain ⟨f, rfl⟩ := and_mask_eq_iff.1 hmask
    have hf : (header f 1).extractLsb' 3 3 = f := modField_header f 1
    rw [hf, decodeHeader_reset]
  case refine_9 =>
    cases hd : decodeHeader req with
    | error why => exact ⟨why, rfl⟩
    | ok i =>
      have henc := encode_of_decodeHeader hd
      cases i with
      | reset f => cases henc; exact absurd (and_mask_eq_iff.2 ⟨f, rfl⟩) hmask
      | init0 | init1 | send | getbw | setbw | getclk | setclk => cases henc; exact absurd (by decide) hother
      | fifoRead | fifoWrite => cases henc
  all_goals rintro rfl; exact decodeHeader_of_encode rfl

/-! ## Reserved requests (rule R112) -/

/-- The fields of a header that decodes: its high bits are 0, and its modifier is one that its selector knows. -/
theorem fields_of_decodeHeader (h : decodeHeader req = .ok i) :
    req.extractLsb' 6 2 = 0 ∧
      (opsel req = 1 ∨ (opsel req = 2 ∧ modField req = 0) ∨
        ((opsel req = 0 ∨ opsel req = 3 ∨ opsel req = 4) ∧ (modField req = 0 ∨ modField req = 1))) := by
  have henc := encode_of_decodeHeader h
  cases i with
  | fifoRead | fifoWrite => cases henc
  | init0 | init1 | reset | send | getbw | setbw | getclk | setclk => cases henc; simp

/-- Settles O5: the fields of the header are not those of a header that decodes, so that the request is a reserved one. -/
theorem reservedRequestIsInvalidParameter : Obligations.ReservedRequestIsInvalidParameter := by
  rintro req rest s ⟨hidle, hconf⟩ hi hres
  cases hd : decodeHeader req with
  | error why =>
    rw [step_reserved hidle hi hd, reservedRequest, if_pos hconf, hi]
    rfl
  | ok i =>
    obtain ⟨hhigh, hfields⟩ := fields_of_decodeHeader hd
    simp only [opsel, modField] at hfields
    bv_omega

/-! ## The packed descriptor (rule R114) -/

theorem RClass.bits_ofBits (b : BitVec 2) : (RClass.ofBits b).bits = b := by
  have hb : b = 0 ∨ b = 1 ∨ b = 2 ∨ b = 3 := by bv_omega
  rcases hb with rfl | rfl | rfl | rfl <;> rfl

theorem Dir.bit_ofBit (b : Bool) : (Dir.ofBit b).bit = b := by cases b <;> rfl

/-- A bit as a field of one bit. -/
theorem ofBool_getLsbD {w : Nat} (v : BitVec w) (k : Nat) : BitVec.ofBool (v.getLsbD k) = v.extractLsb' k 1 := by
  refine BitVec.eq_of_getLsbD_eq fun j hj => ?_
  obtain rfl : j = 0 := by omega
  simp [BitVec.getLsbD_extractLsb', -BitVec.getLsbD_eq_getElem]

/-- Packing an unpacked descriptor gives its words back: the fields of the control word are next to one another and cover
it (rule R114). -/
theorem pack_unpack (w : DescWords) : w.unpack.pack = w := by
  have hdcw : w.unpack.pack.dcw = w.dcw :=
    calc w.unpack.pack.dcw
        = w.dcw.extractLsb' 11 21 ++ w.dcw.extractLsb' 10 1 ++ w.dcw.extractLsb' 9 1 ++ w.dcw.extractLsb' 8 1
            ++ w.dcw.extractLsb' 6 2 ++ w.dcw.extractLsb' 0 6 := by
          simp only [DescWords.unpack, Descriptor.pack, RClass.bits_ofBits, Dir.bit_ofBit, ofBool_getLsbD]
      _ = w.dcw.extractLsb' 0 32 := by
          rw [extract_append_extract w.dcw 10 21 1, extract_append_extract w.dcw 9 22 1,
            extract_append_extract w.dcw 8 23 1, extract_append_extract w.dcw 6 24 2,
            extract_append_extract w.dcw 0 26 6]
      _ = w.dcw := BitVec.extractLsb'_eq_self
  calc w.unpack.pack = { w with dcw := w.unpack.pack.dcw } := rfl
    _ = w := by rw [hdcw]

/-- A bit of a word is set where its mask meets the word. -/
theorem getLsbD_iff_and_twoPow (v : Word) {k : Nat} (hk : k < 32) :
    v.getLsbD k = true ↔ v &&& BitVec.twoPow 32 k ≠ 0 := by
  have hpow : BitVec.twoPow 32 k ≠ 0 := fun h => by
    have hbit := congrArg (BitVec.getLsbD · k) h
    simp [hk, -BitVec.getLsbD_eq_getElem] at hbit
  rw [BitVec.and_twoPow]
  cases v.getLsbD k with
  | true => exact iff_of_true rfl hpow
  | false => exact iff_of_false Bool.false_ne_true (not_not_intro rfl)

/-- `DCW[31:11]` is 0 where its mask does not meet the control word. -/
theorem extract_reserved_eq_zero_iff (v : Word) : v.extractLsb' 11 21 = 0 ↔ v &&& 0xFFFFF800 = 0 := by
  have hones : (0xFFFFF800 : Word).extractLsb' 11 21 = BitVec.allOnes 21 := rfl
  have hzeros : (0xFFFFF800 : Word).extractLsb' 0 11 = 0 := rfl
  have hhigh : (v &&& 0xFFFFF800).extractLsb' 11 21 = v.extractLsb' 11 21 := by
    rw [BitVec.extractLsb'_and, hones, BitVec.and_allOnes]
  have hlow : (v &&& 0xFFFFF800).extractLsb' 0 11 = 0 := by
    rw [BitVec.extractLsb'_and, hzeros]
    exact BitVec.and_zero
  constructor
  · intro h
    calc v &&& 0xFFFFF800
        = (v &&& 0xFFFFF800).extractLsb' 0 32 := BitVec.extractLsb'_eq_self.symm
      _ = (v &&& 0xFFFFF800).extractLsb' 11 21 ++ (v &&& 0xFFFFF800).extractLsb' 0 11 :=
          (extract_append_extract _ 0 21 11).symm
      _ = 0 := by rw [hhigh, h, hlow]; rfl
  · intro h
    rw [← hhigh, h]
    rfl

theorem Dir.ofBit_eq_write_iff (b : Bool) : Dir.ofBit b = .write ↔ b = true := by cases b <;> simp [Dir.ofBit]

/-- Settles O4: packing and unpacking undo one another, and each one-bit field is set where its mask meets the control
word. -/
theorem packedDescriptorRoundTrip : Obligations.PackedDescriptorRoundTrip := by
  refine ⟨unpack_pack, pack_unpack, fun w => ⟨rfl, ?_, getLsbD_iff_and_twoPow w.dcw (k := 8) (by decide),
    getLsbD_iff_and_twoPow w.dcw (k := 9) (by decide), ?_, extract_reserved_eq_zero_iff w.dcw, rfl, rfl, rfl⟩⟩
  · have hcls : w.unpack.rclass.bits = w.dcw.extractLsb' 6 2 := RClass.bits_ofBits _
    rw [← hcls]
    cases w.unpack.rclass <;> rfl
  · exact (Dir.ofBit_eq_write_iff _).trans (getLsbD_iff_and_twoPow w.dcw (k := 10) (by decide))

end Sys2Proof.Machine
end

section
/-! SUPPORT. The register words SDHB assembles as words of disjoint fields (rules R66, R122, R126, R128, R129): the OR of
disjoint fields is their sum; the parts of the command word, the width of `HOSTCTL` and the clock word. -/

namespace Sys2Proof.Machine

variable {p : Config.Params} {d : Descriptor}

/-! ## Some of the fields of a word -/

section fields
variable {fs gs : List (Word × Word)}

theorem disjoint_sublist {ms ns : List Word} (hs : ns.Sublist ms) (h : Config.disjoint ms = true) :
    Config.disjoint ns = true := by
  induction hs with
  | slnil => exact h
  | cons m _ ih => exact ih (disjoint_cons.1 h).2
  | cons_cons m hsub ih =>
    obtain ⟨hm, hrest⟩ := disjoint_cons.1 h
    exact disjoint_cons.2 ⟨fun m' hm' => hm m' (hsub.subset hm'), ih hrest⟩

/-- Some of the fields of a word are fields that are apart, too. -/
theorem FieldsOk.sublist (h : FieldsOk fs) (hs : gs.Sublist fs) : FieldsOk gs where
  disjoint := disjoint_sublist (hs.map _) h.disjoint
  inside f hf := h.inside f (hs.subset hf)

/-- A word that is the OR of fields holds each value at its mask. -/
theorem FieldsOk.value_of_eq (h : FieldsOk fs) {w : Word} (hw : w = orAll (fs.map (·.1))) : ∀ f ∈ fs, w &&& f.2 = f.1 :=
  fun _ hf => hw ▸ h.value hf

/-- Fields meet no mask that is apart from theirs. -/
theorem FieldsOk.and_eq_zero (h : FieldsOk fs) {m : Word} (hm : ∀ f ∈ fs, f.2 &&& m = 0) :
    orAll (fs.map (·.1)) &&& m = 0 := by
  refine orAll_and_eq_zero fun w hw => ?_
  obtain ⟨f, hf, rfl⟩ := List.mem_map.1 hw
  exact and_eq_zero_of_inside (h.inside f hf) (hm f hf)

/-- The OR of disjoint fields is their sum: no bit is carried (rule R122). -/
theorem FieldsOk.orAll_eq_sum (h : FieldsOk fs) : orAll (fs.map (·.1)) = (fs.map (·.1)).sum := by
  induction fs with
  | nil => rfl
  | cons f fs ih =>
    obtain ⟨hdisj, hrest⟩ := disjoint_cons.1 h.disjoint
    obtain ⟨hf, hinside⟩ := List.forall_mem_cons.1 h.inside
    have htail : FieldsOk fs := ⟨hrest, hinside⟩
    have hothers : orAll (fs.map (·.1)) &&& f.2 = 0 :=
      htail.and_eq_zero fun g hg => by
        rw [BitVec.and_comm]
        exact hdisj g.2 (List.mem_map_of_mem hg)
    have hmeet : f.1 &&& orAll (fs.map (·.1)) = 0 := by
      rw [← hf, BitVec.and_assoc, BitVec.and_comm f.2, hothers]
      exact BitVec.and_zero
    rw [List.map_cons, orAll_cons, List.sum_cons, ← ih htail]
    exact (BitVec.add_eq_or_of_and_eq_zero _ _ hmeet).symm

end fields

/-! ## The parts of the command word (rules R122, R123, R125, R126) -/

/-- The fields of `respflags` (rule R123). -/
def respFields (p : Config.Params) (d : Descriptor) : List (Word × Word) :=
  [((p.respCode d.rclass).setWidth 32 <<< p.cl.cmdRespShift, 3#32 <<< p.cl.cmdRespShift),
   (if d.crc = true then p.cl.cmdCrcChk else 0, p.cl.cmdCrcChk),
   (if d.opchk = true then p.cl.cmdIdxChk else 0, p.cl.cmdIdxChk)]

/-- The fields of `dataflags` (rules R125, R126). -/
def dataFields (p : Config.Params) (d : Descriptor) (caps : Word) : List (Word × Word) :=
  let multiData := d.bufsize ≠ 0 ∧ (d.opcode = p.opReadMulti ∨ d.opcode = p.opWriteMulti)
  [(if multiData then p.cl.xBlkcntEn else 0, p.cl.xBlkcntEn),
   (if multiData then p.autoFlag caps else 0, p.cl.xAutoCmd12),
   (if d.bufsize ≠ 0 ∧ d.dir = .read then p.cl.xRead else 0, p.cl.xRead),
   (if multiData then p.cl.xMulti else 0, p.cl.xMulti),
   (if d.bufsize ≠ 0 then p.cl.cmdData else 0, p.cl.cmdData)]

theorem respFields_sublist (caps : Word) : (respFields p d).Sublist (commandFields p d caps) :=
  .cons _ (.cons _ (.cons _ (.cons _ (.cons_cons _ (.cons_cons _ (.cons_cons _ (List.nil_sublist _)))))))

theorem dataFields_sublist (caps : Word) : (dataFields p d caps).Sublist (commandFields p d caps) :=
  .cons_cons _ (.cons_cons _ (.cons_cons _ (.cons_cons _ (.cons _ (.cons _ (.cons _ (.cons_cons _
    (List.nil_sublist _))))))))

theorem respFlags_eq_orAll : p.respFlags d = orAll ((respFields p d).map (·.1)) := by
  simp only [Config.Params.respFlags, respFields, List.map_cons, List.map_nil, orAll_cons, orAll_nil]
  ac_rfl

theorem dataFlags_eq_orAll (caps : Word) : p.dataFlags d caps = orAll ((dataFields p d caps).map (·.1)) := by
  simp only [Config.Params.dataFlags, dataFields, hasData_iff, multi_iff, List.map_cons, List.map_nil, orAll_cons,
    orAll_nil]
  by_cases hdata : d.bufsize = 0
  · simp [hdata]
  · by_cases hmulti : d.opcode = p.opReadMulti ∨ d.opcode = p.opWriteMulti
    · simp only [hdata, hmulti, ne_eq, not_false_iff, true_and, if_true]
      ac_rfl
    · simp only [hdata, hmulti, ne_eq, not_false_iff, true_and, and_false, if_true, if_false]
      ac_rfl

/-- Settles O6: the command word is the sum of its disjoint fields, and so is each part of it. -/
theorem commandWordIsSumOfParts : Obligations.CommandWordIsSumOfParts := by
  intro p d caps hv
  have hok := commandFields_ok (d := d) hv caps
  rw [commandWord_eq_orAll, respFlags_eq_orAll, dataFlags_eq_orAll, hok.orAll_eq_sum,
    (hok.sublist (respFields_sublist caps)).orAll_eq_sum, (hok.sublist (dataFields_sublist caps)).orAll_eq_sum]
  simp only [commandFields, respFields, dataFields, List.map_cons, List.map_nil, List.sum_cons, List.sum_nil]
  ac_rfl

/-- Settles O7: the auto bit is the field of its mask, and the DMA bit is apart from every field of the word. -/
theorem commandWordAutoAndDma : Obligations.CommandWordAutoAndDma := by
  intro p d caps hv
  have hok := commandFields_ok (d := d) hv caps
  obtain ⟨-, hdisj, -⟩ := layout_of_valid hv
  have hdma : ∀ f ∈ commandFields p d caps, p.cl.xDmaEn &&& f.2 = 0 := fun f hf =>
    (disjoint_cons.1 hdisj).1 f.2 (List.mem_map_of_mem (f := (·.2)) hf)
  have hvalue := hok.value_of_eq (commandWord_eq_orAll caps)
  simp only [commandFields, List.forall_mem_cons] at hvalue
  obtain ⟨-, hauto, -⟩ := hvalue
  constructor
  · rw [hauto]
    simp only [Config.Params.autoFlag, hits_iff, Config.capAutoCmd12, ite_and]
  · rw [commandWord_eq_orAll]
    exact hok.and_eq_zero fun f hf => BitVec.and_comm p.cl.xDmaEn f.2 ▸ hdma f hf

/-! ## The width bits of `HOSTCTL` (rules R128, R230, R232) -/

/-- The two width bits, and all the other bits of the word read (rule R232). -/
def widthFields (p : Config.Params) (v w : Word) : List (Word × Word) :=
  [(if w = 4 then p.hl.hcBw4 else 0, p.hl.hcBw4), (if w = 8 then p.hl.hcBw8 else 0, p.hl.hcBw8),
   (v &&& ~~~(p.hl.hcBw4 ||| p.hl.hcBw8), ~~~(p.hl.hcBw4 ||| p.hl.hcBw8))]

theorem withWidth_eq_orAll (v w : Word) : p.withWidth v w = orAll ((widthFields p v w).map (·.1)) := by
  simp only [Config.Params.withWidth, Config.Params.widthBits, widthFields, List.map_cons, List.map_nil, orAll_cons,
    orAll_nil]
  split
  · subst w
    simp [BitVec.or_comm]
  · simp [BitVec.or_comm]

/-- What a valid record says of the layout of `HOSTCTL` and `CLKCTL` (rule R66). -/
theorem controlLayout_of_valid (h : p.valid = true) :
    Config.disjoint p.hostctlFields = true ∧ Config.disjoint p.clkctlFields = true ∧ p.hl.ccDivHiShift + 2 ≤ 32 ∧
      p.hl.ccDivLoShift + 8 ≤ 32 ∧ p.hl.ccDtoShift + 4 ≤ 32 := by
  simp only [Config.Params.valid, Config.Params.layoutOk, Bool.and_eq_true, decide_eq_true_eq] at h
  tauto

/-- The two width bits of a valid record are apart from each other and from the other bits (rules R57, R66). -/
theorem widthFields_ok (h : p.valid = true) (v w : Word) : FieldsOk (widthFields p v w) where
  disjoint := by
    obtain ⟨hdisj, -⟩ := controlLayout_of_valid h
    have hbits : p.hl.hcBw4 &&& p.hl.hcBw8 = 0 := (disjoint_cons.1 hdisj).1 _ (.head _)
    have hcover : ∀ m ∈ [p.hl.hcBw4, p.hl.hcBw8], m &&& ~~~(p.hl.hcBw4 ||| p.hl.hcBw8) = 0 := fun m hm => by
      simpa using and_not_orAll hm
    exact disjoint_cons.2 ⟨List.forall_mem_cons.2 ⟨hbits, List.forall_mem_singleton.2 (hcover _ (.head _))⟩,
      disjoint_cons.2 ⟨List.forall_mem_singleton.2 (hcover _ (.tail _ (.head _))), rfl⟩⟩
  inside := by
    simp only [widthFields, List.forall_mem_cons, ite_and_mask, true_and]
    exact ⟨by rw [BitVec.and_assoc, BitVec.and_self], by simp⟩

/-- Where a mask that is there or not is a field of a word, the test of the mask tells which (rule R10). -/
theorem hits_of_and_eq {v m : Word} {c : Prop} [Decidable c] (hm : m ≠ 0) (h : v &&& m = if c then m else 0) :
    v.hits m = true ↔ c := by
  rw [hits_iff, h]
  split_ifs with hc
  · exact iff_of_true hm hc
  · exact iff_of_false (not_not_intro rfl) hc

/-- Settles O10: the word written is the OR of three disjoint fields, so its width bits are those of the width alone, and
its other bits are those of the word read. -/
theorem widthReadsBack : Obligations.WidthReadsBack := by
  intro p v w hv h4 h8 hw
  have hvalue := (widthFields_ok hv v w).value_of_eq (withWidth_eq_orAll v w)
  simp only [widthFields, List.forall_mem_cons] at hvalue
  obtain ⟨hbit4, hbit8, hothers, -⟩ := hvalue
  refine ⟨?_, hothers⟩
  simp only [Config.Params.widthOf, hits_of_and_eq h4 hbit4, hits_of_and_eq h8 hbit8]
  rcases hw with rfl | rfl | rfl <;> rfl

/-! ## The clock word (rules R129, R247) -/

/-- The fields of the first clock word, in the order of `clkctlFields` (rules R58, R129). -/
def clockFields (p : Config.Params) (d : Word) : List (Word × Word) :=
  [(p.hl.ccIce, p.hl.ccIce), (0, p.hl.ccStable), (0, p.hl.ccSdce),
   ((((d >>> 1) >>> 8) &&& 0x3) <<< p.hl.ccDivHiShift, 3#32 <<< p.hl.ccDivHiShift),
   (((d >>> 1) &&& 0xFF) <<< p.hl.ccDivLoShift, 0xFF#32 <<< p.hl.ccDivLoShift),
   (p.dtoDefault.setWidth 32 <<< p.hl.ccDtoShift, 0xF#32 <<< p.hl.ccDtoShift),
   (0, p.hl.ccRstAll), (0, p.hl.ccRstCmd), (0, p.hl.ccRstDat)]

/-- The fields of the clock word that are not 0 (rule R247). -/
def clockSetFields (p : Config.Params) (d : Word) : List (Word × Word) :=
  (clockFields p d).take 1 ++ ((clockFields p d).drop 3).take 3

theorem clockSetFields_sublist (p : Config.Params) (d : Word) : (clockSetFields p d).Sublist (clockFields p d) :=
  .cons_cons _ (.cons _ (.cons _ (.cons_cons _ (.cons_cons _ (.cons_cons _ (List.nil_sublist _))))))

theorem clockWord_eq_orAll_set (d : Word) : p.clockWord d = orAll ((clockSetFields p d).map (·.1)) := by
  simp only [Config.Params.clockWord, clockSetFields, clockFields, List.take, List.drop, List.cons_append,
    List.nil_append, List.map_cons, List.map_nil, orAll_cons, orAll_nil]
  ac_rfl

theorem clockWord_eq_orAll (d : Word) : p.clockWord d = orAll ((clockFields p d).map (·.1)) := by
  simp only [Config.Params.clockWord, clockFields, List.map_cons, List.map_nil, orAll_cons, orAll_nil]
  ac_rfl

/-- The low `k` bits of a word masked with `k` ones are its own. -/
theorem setWidth_and_ones (v : Word) {k : Nat} (hk : k ≤ 32) :
    (v &&& BitVec.ofNat 32 (2 ^ k - 1)).setWidth k = v.setWidth k := by
  refine BitVec.eq_of_toNat_eq ?_
  rw [BitVec.toNat_setWidth, BitVec.toNat_setWidth, toNat_and_ones v hk, Nat.mod_mod]

/-- A value masked with `k` ones and shifted is inside the field of `k` ones there. -/
theorem masked_inside (v : Word) (sh : Nat) {k : Nat} (hk : k ≤ 32) :
    ((v &&& BitVec.ofNat 32 (2 ^ k - 1)) <<< sh) &&& (BitVec.ofNat 32 (2 ^ k - 1) <<< sh) =
      (v &&& BitVec.ofNat 32 (2 ^ k - 1)) <<< sh :=
  shift_inside sh hk (by
    rw [toNat_and_ones v hk]
    exact Nat.mod_lt _ (Nat.two_pow_pos k))

/-- The fields of a valid record's clock word are disjoint and hold their values (rules R58, R66). -/
theorem clockFields_ok (h : p.valid = true) (d : Word) : FieldsOk (clockFields p d) where
  disjoint := by
    obtain ⟨-, hdisj, -⟩ := controlLayout_of_valid h
    exact hdisj
  inside := by
    have hzero : ∀ m : Word, 0 &&& m = 0 := fun _ => BitVec.zero_and
    have hdto : (p.dtoDefault.setWidth 32).toNat < 2 ^ 4 := by
      rw [BitVec.toNat_setWidth_of_le (by decide)]
      exact p.dtoDefault.isLt
    simp only [clockFields, List.forall_mem_cons, BitVec.and_self, hzero, true_and]
    exact ⟨masked_inside (d >>> 1 >>> 8) _ (k := 2) (by decide), masked_inside (d >>> 1) _ (k := 8) (by decide),
      shift_inside (k := 4) _ (by decide) hdto, fun f hf => absurd hf List.not_mem_nil⟩

/-- The two divisor fields together hold the divisor code `d / 2`, which is below `2^10` (rule R129). -/
theorem divisorCode_fields (d : Word) (hd : d.toNat ≤ 2046) :
    ((((d >>> 1) >>> 8) &&& 0x3).setWidth 2 ++ ((d >>> 1) &&& 0xFF).setWidth 8 : BitVec 10).toNat = d.toNat / 2 := by
  have hhi : (((d >>> 1) >>> 8) &&& 0x3).setWidth 2 = (d >>> 1).extractLsb' 8 2 :=
    (setWidth_and_ones _ (k := 2) (by decide)).trans BitVec.setWidth_ushiftRight_eq_extractLsb
  have hlo : ((d >>> 1) &&& 0xFF).setWidth 8 = (d >>> 1).extractLsb' 0 8 :=
    (setWidth_and_ones _ (k := 8) (by decide)).trans (BitVec.setWidth_eq_extractLsb' (by decide))
  calc _ = ((d >>> 1).extractLsb' 0 (2 + 8)).toNat := by rw [hhi, hlo, extract_append_extract (d >>> 1) 0 2 8]
    _ = d.toNat / 2 % 2 ^ 10 := by
      rw [BitVec.extractLsb'_toNat, BitVec.toNat_ushiftRight, Nat.shiftRight_zero, Nat.shiftRight_one]
    _ = d.toNat / 2 := Nat.mod_eq_of_lt (by omega)

/-- Settles O11: the clock word is the OR of disjoint fields, so it holds each at its mask, and no bit outside those that
are not 0. -/
theorem clockWordFields : Obligations.ClockWordFields := by
  intro p d hv hd
  have hok := clockFields_ok hv d
  obtain ⟨-, -, hhiShift, hloShift, hdtoShift⟩ := controlLayout_of_valid hv
  have hvalue := hok.value_of_eq (clockWord_eq_orAll d)
  have houtside := clockWord_eq_orAll_set (p := p) d ▸ (hok.sublist (clockSetFields_sublist p d)).outside
  simp only [clockFields, List.forall_mem_cons] at hvalue
  obtain ⟨hice, hstable, hsdce, hhi, hlo, hdto, hall, hcmd, hdat, -⟩ := hvalue
  refine ⟨?_, ?_, hice, hsdce, hstable, ?_, ?_⟩
  · rw [extract_of_field hhiShift hhi, extract_of_field hloShift hlo]
    exact divisorCode_fields d hd
  · rw [extract_of_field hdtoShift hdto]
    simp
  · rw [BitVec.and_or_distrib_left, BitVec.and_or_distrib_left, hall, hcmd, hdat]
    rfl
  · rw [← houtside]
    congr 2
    simp only [clockSetFields, clockFields, List.take, List.drop, List.cons_append,
      List.nil_append, List.map_cons, List.map_nil, orAll_cons, orAll_nil]
    ac_rfl

end Sys2Proof.Machine
end

section
/-! SUPPORT. INIT0 and INIT1 as whole operations (rules R150 to R160): how an accepted request runs, what INIT0 has found
when it stands at I0_4, and what I0_4, I0_5 and I0_6 make of it. -/

namespace Sys2Proof.Machine

variable {s t u : State} {caps : Word}

/-! ## A whole operation -/

/-- An accepted request completes by the run from its first label (rules R40, R41). -/
theorem Completes.of_ready {i : Instr} {n : Nat} (hs : s.ready) (hi : i.wellFormed = true)
    (hr : Runs (n + 1) (s.accept i) u) (ht : u = t) : Completes i n s t := by
  subst ht
  obtain ⟨hidle, hconf⟩ := hs
  obtain ⟨v, hv, hr⟩ := hr
  refine ⟨v, ?_, hr⟩
  rw [exec_idle hidle hi, begin_configured hconf, ← exec_op (s.accept_seq i), ← step_running (s.accept_seq i), hv]

/-- What a read returns is the same before and after an acceptance. -/
@[simp] theorem State.peek_accept (s : State) (i : Instr) (r : Reg) : (s.accept i).peek r = s.peek r := rfl

/-- An acceptance moves no register. -/
@[simp] theorem State.regAddr_accept (s : State) (i : Instr) (r : Reg) : (s.accept i).regAddr r = s.regAddr r := rfl

/-- An acceptance leaves `Q.*` as it is where the header carries no flags (rule R111). -/
@[simp] theorem State.accept_q (s : State) {i : Instr} (hi : ∀ f, i ≠ .reset f) : (s.accept i).q = s.q := by
  cases i with
  | reset f => exact absurd rfl (hi f)
  | init0 | init1 | send | getbw | setbw | getclk | setclk | fifoRead | fifoWrite => rfl

/-- One answered read takes one word off the script. -/
theorem Env.next_eq (e : Env) : e.next = { script := e.script.drop 1, draws := e.draws + 1 } := by simp [Env.next]

/-- Two answered reads take two words off the script. -/
theorem Env.next_next (e : Env) : e.next.next = { script := e.script.drop 2, draws := e.draws + 2 } := by
  simp [Env.next_eq, Nat.add_assoc]

/-! ## What INIT0 finds (rules R151 to R155) -/

/-- A context register that is kept where it is set, and else derived (rules R153, R155). -/
def derived (kept found : Word) : Word := if kept = 0 then found else kept

/-- Where nothing was derived, nothing was set before. -/
theorem kept_of_derived_eq_zero {kept found : Word} (h : derived kept found = 0) : kept = 0 := by
  unfold derived at h
  split at h <;> assumption

/-- The capability word that INIT0 of a ready state reads at I0_2. -/
def State.capsRead (s : State) : Word := (s.afterRead .version).peek .caps

/-- The version code that INIT0 of a ready state stores at I0_1 (rule R151). -/
def State.verRead (s : State) : BitVec 8 := s.cfg.versionCode (s.peek .version)

/-- The voltage mask at I0_4 (rule R153). -/
def State.volts (s : State) : Word := derived s.ctx.voltages (s.cfg.voltsFound s.capsRead)

/-- The base clock at I0_6 (rule R155). -/
def State.clk (s : State) : Word := derived s.ctx.fundclk (s.cfg.clockFound s.verRead s.capsRead)

/-- INIT0 of a ready state `s` when it comes to I0_4: two reads made, version and added capabilities stored. -/
def State.surveyed (s : State) : State :=
  State.goto (.init0 (.i0_4 s.capsRead)) { ((s.accept .init0).afterRead .version).afterRead .caps with
    ctx := { s.ctx with hostver := s.verRead, hostcaps := s.ctx.hostcaps ||| s.cfg.capsFound s.capsRead } }

/-- I0_1 to I0_3 always pass (rules R151, R152). -/
theorem runs_surveyed (s : State) : Runs 3 (s.accept .init0) s.surveyed :=
  .label rfl rfl (.label rfl rfl (.label rfl rfl (.zero _)))

/-- A mask without a bit has no power level (rule R154). -/
theorem powerLevel_zero (p : Config.Params) : p.powerLevel 0 = none := by simp [Config.Params.powerLevel, Word.hits]

/-! ## I0_4 to I0_6 (rules R153 to R156) -/

/-- I0_4 with no voltage ends INIT0; the mask, which was 0 before, stays (rules R153, R156). -/
theorem labelAt_i0_4_fails (h : derived s.ctx.voltages (s.cfg.voltsFound caps) = 0) :
    labelAt (.init0 (.i0_4 caps)) s = .next (s.finish .deviceError) := by
  have hkept := kept_of_derived_eq_zero h
  have hctx : { s.ctx with voltages := 0 } = s.ctx := by rw [← hkept]
  simp only [derived] at h
  simp only [labelAt, init0At, h, hctx, if_true]

/-- I0_4 with a voltage stores the mask (rule R153). -/
theorem labelAt_i0_4_passes (h : derived s.ctx.voltages (s.cfg.voltsFound caps) ≠ 0) :
    labelAt (.init0 (.i0_4 caps)) s = .next (State.goto (.init0 (.i0_5 caps))
      { s with ctx := { s.ctx with voltages := derived s.ctx.voltages (s.cfg.voltsFound caps) } }) := if_neg h

/-- I0_5 without a level ends INIT0 before its write (rules R154, R156). -/
theorem labelAt_i0_5_fails (h : s.cfg.powerLevel s.ctx.voltages = none) :
    labelAt (.init0 (.i0_5 caps)) s = .next (s.finish .deviceError) := by simp [labelAt, init0At, h]

/-- I0_5 writes the power level (rule R154). -/
theorem labelAt_i0_5_passes {lvl : Word} (h : s.cfg.powerLevel s.ctx.voltages = some lvl) :
    labelAt (.init0 (.i0_5 caps)) s = .next ((s.regWrite .hostctl lvl).goto (.init0 (.i0_6 caps))) := by
  simp [labelAt, init0At, h]

/-- INIT0 from its acceptance to I0_5, with a voltage. -/
theorem runs_i0_5 (h : s.volts ≠ 0) :
    Runs 4 (s.accept .init0) (State.goto (.init0 (.i0_5 s.capsRead))
      { s.surveyed with ctx := { s.surveyed.ctx with voltages := s.volts } }) :=
  (runs_surveyed s).trans (.label rfl (labelAt_i0_4_passes h) (.zero _))

/-- INIT0 with a power level runs to its end: the base clock alone decides the status (rule R155). -/
theorem init0_completes_with_level {lvl : Word} (hs : s.ready) (h : s.cfg.powerLevel s.volts = some lvl) :
    Completes .init0 5 s
      { s.ended (if s.clk = 0 then .deviceError else .success) 2
          [s.readOf .version (s.peek .version), s.readOf .caps s.capsRead, s.writeOf .hostctl lvl] with
        ctx := { regbase := s.ctx.regbase, hostver := s.verRead,
                 hostcaps := s.ctx.hostcaps ||| s.cfg.capsFound s.capsRead, voltages := s.volts, fundclk := s.clk } } := by
  have hvolts : s.volts ≠ 0 := fun h0 => by rw [h0, powerLevel_zero] at h; cases h
  have hruns := (runs_i0_5 hvolts).trans (.label rfl (labelAt_i0_5_passes h) (.label rfl rfl (.zero _)))
  refine .of_ready hs rfl hruns ?_
  simp only [State.ended, ← Env.next_next]
  rfl

/-- Settles O32: with a level and a clock that is not 0 the run to the end gives `Success`. -/
theorem init0Succeeds : Obligations.Init0Succeeds := by
  intro s lvl hs v caps ver volts clk hlvl hclk
  have h := init0_completes_with_level hs hlvl
  rw [if_neg (show s.clk ≠ 0 from hclk)] at h
  exact h

/-- INIT0 without a voltage ends at I0_4 (rules R153, R156). -/
theorem init0_fails_without_voltage (hs : s.ready) (h : s.volts = 0) :
    Completes .init0 3 s
      { s.ended .deviceError 2 [s.readOf .version (s.peek .version), s.readOf .caps s.capsRead] with
        ctx := s.surveyed.ctx } := by
  have hruns := (runs_surveyed s).trans (.label rfl (labelAt_i0_4_fails h) (.zero _))
  refine .of_ready hs rfl hruns ?_
  simp only [State.ended, ← Env.next_next]
  rfl

/-- INIT0 without a power level ends at I0_5, the mask stored (rules R154, R156). -/
theorem init0_fails_without_level (hs : s.ready) (hvolts : s.volts ≠ 0) (h : s.cfg.powerLevel s.volts = none) :
    Completes .init0 4 s
      { s.ended .deviceError 2 [s.readOf .version (s.peek .version), s.readOf .caps s.capsRead] with
        ctx := { s.surveyed.ctx with voltages := s.volts } } := by
  have hruns := (runs_i0_5 hvolts).trans (.label rfl (labelAt_i0_5_fails h) (.zero _))
  refine .of_ready hs rfl hruns ?_
  simp only [State.ended, ← Env.next_next]
  rfl

/-- INIT0 without a base clock ends at I0_6, the level written; the clock, which was 0 before, stays (rules R155, R156). -/
theorem init0_fails_without_clock {lvl : Word} (hs : s.ready) (h : s.cfg.powerLevel s.volts = some lvl)
    (hclk : s.clk = 0) :
    Completes .init0 5 s
      { s.ended .deviceError 2
          [s.readOf .version (s.peek .version), s.readOf .caps s.capsRead, s.writeOf .hostctl lvl] with
        ctx := { s.surveyed.ctx with voltages := s.volts } } := by
  have hkept : s.clk = s.surveyed.ctx.fundclk := hclk.trans (kept_of_derived_eq_zero hclk).symm
  have hrun := init0_completes_with_level hs h
  rw [if_pos hclk, hkept] at hrun
  exact hrun

/-- Settles O33: INIT0 ends at I0_4, at I0_5 or at I0_6. -/
theorem init0Fails : Obligations.Init0Fails := fun _ hs =>
  ⟨init0_fails_without_voltage hs, init0_fails_without_level hs, fun _ => init0_fails_without_clock hs⟩

/-! ## INIT1 (rules R158 to R160) -/

/-- Settles O35: the four labels of INIT1 follow one another whatever is read. -/
theorem init1Completes : Obligations.Init1Completes := by
  refine ⟨decodeHeader_of_encode rfl, fun s hs => ?_⟩
  have hruns : Runs 4 (s.accept .init1) _ :=
    .label rfl rfl (.label rfl rfl (.label rfl rfl (.label rfl rfl (.zero _))))
  refine .of_ready hs rfl hruns ?_
  rw [State.finish_outermost (h := rfl)]
  simp [State.ended, Env.next_eq, State.readOf, State.writeOf]

end Sys2Proof.Machine
end

section
/-! SUPPORT. RESET as a whole operation, requested or called (rules R170 to R175): the read-modify-write of `CLKCTL`, the
poll, the two writes of `INTEN`; with given answers and in every environment. -/

namespace Sys2Proof.Machine

variable {s : State} {f : BitVec 3} {cs : List Pos}

/-! ## The accepted request -/

/-- A RESET request puts its flags into `Q.FLAGS` (rule R111; log entry 29). -/
@[simp] theorem State.accept_reset_q (s : State) (f : BitVec 3) : (s.accept (.reset f)).q = { s.q with flags := f } := rfl

/-! An acceptance moves no register, so the events at a register are the same before and after it. -/

@[simp] theorem State.readOf_accept (s : State) (i : Instr) : (s.accept i).readOf = s.readOf := rfl
@[simp] theorem State.writeOf_accept (s : State) (i : Instr) : (s.accept i).writeOf = s.writeOf := rfl
@[simp] theorem State.pollsOf_accept (s : State) (i : Instr) : (s.accept i).pollsOf = s.pollsOf := rfl

/-! ## The parts of RESET -/

/-- The reset bits by the masks of the single flags (rule R120). -/
theorem resetBits_eq_and (p : Config.Params) (f : BitVec 3) :
    p.resetBits f = (if f &&& 1 ≠ 0 then p.hl.ccRstAll else 0) ||| (if f &&& 2 ≠ 0 then p.hl.ccRstCmd else 0)
      ||| (if f &&& 4 ≠ 0 then p.hl.ccRstDat else 0) := by
  have hflags : ∀ f : BitVec 3,
      (f.getLsbD 0 ↔ f &&& 1 ≠ 0) ∧ (f.getLsbD 1 ↔ f &&& 2 ≠ 0) ∧ (f.getLsbD 2 ↔ f &&& 4 ≠ 0) := by decide
  obtain ⟨hall, hcmd, hdat⟩ := hflags f
  simp only [Config.Params.resetBits, hall, hcmd, hdat]

/-- The poll of RESET passes exactly where all requested bits read 0 (rule R172). -/
theorem resetDone_iff {bits v : Word} : Config.resetDone bits v = true ↔ v &&& bits = 0 := by
  simp [Config.resetDone]

/-- The poll of RESET fails exactly where a requested bit reads 1 (rule R172). -/
theorem resetDone_eq_false_iff {bits v : Word} : Config.resetDone bits v = false ↔ v &&& bits ≠ 0 := by
  simp [Config.resetDone]

/-- A valid record has a stall that passes time (rule R8). -/
theorem tStep_pos_of_valid {p : Config.Params} (h : p.valid = true) : 0 < p.tStep := by
  simp only [Config.Params.valid, Config.Params.valuesOk, Bool.and_eq_true, decide_eq_true_eq] at h
  tauto

/-- In a valid record the counter holds the poll of RESET (rule R42). -/
theorem tReset_fits {p : Config.Params} (h : p.valid = true) : p.tReset + p.tStep < 2 ^ p.elapsedW :=
  timeout_fits h (by simp)

/-- The read-modify-write with which RESET asks for its bits, when it was made: RESET stands before its poll (rule R171). -/
def State.resetAsked (f : BitVec 3) (s : State) : State :=
  ((s.afterRead .clkctl).regWrite .clkctl (s.peek .clkctl ||| s.cfg.resetBits f)).goto
    (.reset f (.rs_4 (s.cfg.resetBits f) .start))

/-- RS_1 to RS_3 always pass (rule R171). -/
theorem runs_resetAsked (hs : s.seq = .running (.reset f .rs_1) cs) : Runs 3 s (s.resetAsked f) :=
  .label hs rfl (.label rfl rfl (.label rfl rfl (.zero _)))

@[simp] theorem State.resetAsked_cfg (s : State) (f : BitVec 3) : (s.resetAsked f).cfg = s.cfg := rfl

@[simp] theorem State.resetAsked_hist (s : State) (f : BitVec 3) : (s.resetAsked f).hist =
    s.writeOf .clkctl (s.peek .clkctl ||| s.cfg.resetBits f) :: s.readOf .clkctl (s.peek .clkctl) :: s.hist := rfl

/-- Where RESET stands before its poll, its callers kept (rule R175). -/
theorem State.resetAsked_seq (hs : s.seq = .running (.reset f .rs_1) cs) :
    (s.resetAsked f).seq = .running (.reset f (.rs_4 (s.cfg.resetBits f) .start)) cs := by
  simp [State.resetAsked, hs]

/-- RS_4 is a poll of `CLKCTL`, wherever RESET was called from (rules R172, R175). -/
theorem pollAt_rs_4 (cfg : Config.Params) (f : BitVec 3) (bits : Word) (cs : List Pos) :
    PollAt cfg .clkctl (Config.resetDone bits) cfg.tReset (fun p => .reset f (.rs_4 bits p)) (fun _ => .reset f .rs_5) cs :=
  fun _ _ hcfg hu => hcfg ▸ (step_running hu).trans (execReset_at hu)

/-- RS_5 and RS_6 restore the mask and end with `Success` (rule R173). -/
theorem runs_restored (hs : s.seq = .running (.reset f .rs_5) cs) :
    Runs 2 s (State.finish .success { s with
      hist := s.writeOf .inten s.cfg.intEnDefault :: s.writeOf .inten 0 :: s.hist }) :=
  .label hs rfl (.label rfl rfl (.zero _))

/-! ## Whole runs, with given answers (rules R170 to R173) -/

/-- RESET whose bits are found cleared within `NPOLL(T_RESET)` reads. -/
theorem reset_passes {v₀ good : Word} {bad rest : List Word} (hs : s.seq = .running (.reset f .rs_1) cs)
    (hv : s.cfg.valid = true) (hsc : s.env.script = v₀ :: (bad ++ good :: rest))
    (hbad : ∀ v ∈ bad, v &&& s.cfg.resetBits f ≠ 0) (hgood : good &&& s.cfg.resetBits f = 0)
    (hn : bad.length < s.cfg.npoll s.cfg.tReset) :
    Runs (2 * bad.length + 7) s (State.finish .success { s with
      elapsed := bad.length * s.cfg.tStep
      env := { script := rest, draws := s.env.draws + (bad.length + 2) }
      hist := ([s.readOf .clkctl v₀, s.writeOf .clkctl (v₀ ||| s.cfg.resetBits f)] ++ s.pollsOf .clkctl bad ++
        [s.readOf .clkctl good, s.writeOf .inten 0, s.writeOf .inten s.cfg.intEnDefault]).reverse ++ s.hist }) := by
  have hv₀ : s.peek .clkctl = v₀ := by simp [State.peek, Env.answer, hsc]
  have hpoll := poll_passes (s := s.resetAsked f) (pollAt_rs_4 _ _ _ _) (State.resetAsked_seq hs)
    (show _ = bad ++ good :: rest by simp [State.resetAsked, hsc]) (fun v h => resetDone_eq_false_iff.2 (hbad v h))
    (resetDone_iff.2 hgood) hn (tReset_fits hv)
  have hrun := (runs_resetAsked hs).trans (hpoll.trans (runs_restored rfl))
  rw [show 3 + (2 * bad.length + 2 + 2) = 2 * bad.length + 7 by omega] at hrun
  refine cast (congrArg _ ?_) hrun
  simp [State.finish, State.resetAsked, hv₀, hs, State.readOf, State.writeOf, State.pollsOf, State.regAddr,
    Nat.add_assoc, Nat.add_comm 1]

/-- RESET whose bits are not cleared within `NPOLL(T_RESET)` reads. -/
theorem reset_exhausted {v₀ : Word} {bad rest : List Word} (hs : s.seq = .running (.reset f .rs_1) cs)
    (hv : s.cfg.valid = true) (hsc : s.env.script = v₀ :: (bad ++ rest))
    (hbad : ∀ v ∈ bad, v &&& s.cfg.resetBits f ≠ 0) (hn : bad.length = s.cfg.npoll s.cfg.tReset) :
    Runs (2 * bad.length + 4) s (State.finish .timeout { s with
      elapsed := bad.length * s.cfg.tStep
      env := { script := rest, draws := s.env.draws + (bad.length + 1) }
      hist := ([s.readOf .clkctl v₀, s.writeOf .clkctl (v₀ ||| s.cfg.resetBits f)] ++
        s.pollsOf .clkctl bad).reverse ++ s.hist }) := by
  have hv₀ : s.peek .clkctl = v₀ := by simp [State.peek, Env.answer, hsc]
  have hpoll := poll_exhausted (s := s.resetAsked f) (rest := rest) (pollAt_rs_4 _ _ _ _) (State.resetAsked_seq hs)
    (by simp [State.resetAsked, hsc]) (fun v h => resetDone_eq_false_iff.2 (hbad v h)) hn (tStep_pos_of_valid hv)
    (tReset_fits hv)
  have hrun := (runs_resetAsked hs).trans hpoll
  rw [show 3 + (2 * bad.length + 1) = 2 * bad.length + 4 by omega] at hrun
  refine cast (congrArg _ ?_) hrun
  simp [State.finish, State.resetAsked, hv₀, hs, State.readOf, State.writeOf, State.pollsOf, State.regAddr,
    Nat.add_assoc, Nat.add_comm 1]

/-- Settles O36: the accepted request runs to one of the two endings, each at the outermost level. -/
theorem resetCompletes : Obligations.ResetCompletes := by
  intro s flags v₀ bad rest hs hv bits hbad
  have hbits : s.cfg.resetBits flags = bits := resetBits_eq_and _ _
  refine ⟨fun good hsc hgood hn => ?_, fun hsc hn => ?_⟩
  · refine .of_ready hs rfl (reset_passes (s.accept_seq (.reset flags)) hv hsc (hbits ▸ hbad) (hbits ▸ hgood) hn) ?_
    rw [State.finish_outermost (h := rfl)]
    simp [State.ended, hsc, hbits, Status.code]
  · refine .of_ready hs rfl (reset_exhausted (s.accept_seq (.reset flags)) hv hsc (hbits ▸ hbad) hn) ?_
    rw [State.finish_outermost (h := rfl)]
    simp [State.ended, hsc, hbits, Status.code]

/-! ## In every environment (rules R170, R331) -/

/-- The events RESET can make after its read-modify-write (rules R172, R173). -/
def ResetEvent (s : State) (e : Event) : Prop :=
  PollEvent s .clkctl e ∨ e = s.writeOf .inten 0 ∨ e = s.writeOf .inten s.cfg.intEnDefault

/-- RESET ends in every environment: after its read-modify-write it makes at most `2 * NPOLL(T_RESET) + 1` events, and its
status is `Success` or `Timeout`. -/
theorem reset_ends (hs : s.seq = .running (.reset f .rs_1) cs) (hv : s.cfg.valid = true) :
    ∃ n es e env st, st ∈ (Instr.reset f).endings ∧ es.length ≤ 2 * s.cfg.npoll s.cfg.tReset + 1 ∧
      (∀ x ∈ es, ResetEvent s x) ∧
      Runs (n + 1) s (State.finish st { s with elapsed := e, env := env, hist := es ++ (s.resetAsked f).hist }) := by
  obtain ⟨n, es, e, env, hes, ⟨v, -, hlen, hrun⟩ | ⟨hlen, hrun⟩⟩ :=
    poll_ends (s := s.resetAsked f) (pollAt_rs_4 _ _ _ _) (State.resetAsked_seq hs) (tStep_pos_of_valid hv) (tReset_fits hv)
  · refine ⟨n + 4, s.writeOf .inten s.cfg.intEnDefault :: s.writeOf .inten 0 :: es, e, env, .success,
      by simp [Instr.endings], ?_, ?_, ?_⟩
    · rw [State.resetAsked_cfg] at hlen
      simp only [List.length_cons]
      omega
    · simp only [List.forall_mem_cons]
      exact ⟨.inr (.inr rfl), .inr (.inl rfl), fun x hx => .inl (hes x hx)⟩
    · have h := (runs_resetAsked hs).trans (hrun.trans (runs_restored rfl))
      rw [show 3 + (n + 2) = n + 4 + 1 by omega] at h
      refine cast (congrArg _ ?_) h
      simp [State.finish, State.resetAsked, hs, State.writeOf, State.regAddr]
  · refine ⟨n + 2, es, e, env, .timeout, by simp [Instr.endings], hlen.trans (Nat.le_succ _),
      fun x hx => .inl (hes x hx), ?_⟩
    have h := (runs_resetAsked hs).trans hrun
    rw [show 3 + n = n + 2 + 1 by omega] at h
    refine cast (congrArg _ ?_) h
    simp [State.finish, State.resetAsked, hs]

/-- Settles O37: the two events of the read-modify-write, and those of RESET after it. -/
theorem resetTerminates : Obligations.ResetTerminates := by
  intro s flags hs hv
  obtain ⟨n, es, e, env, st, hst, hlen, -, hrun⟩ := reset_ends (s.accept_seq (.reset flags)) hv
  rw [State.finish_outermost (h := rfl)] at hrun
  refine ⟨n, _, .of_ready hs rfl hrun rfl, rfl, ?_, ?_⟩
  · simp only [Instr.endings, List.mem_cons, List.not_mem_nil, or_false] at hst
    rcases hst with rfl | rfl
    · exact .inl rfl
    · exact .inr rfl
  · rw [State.accept_cfg] at hlen
    simp only [List.length_append, State.resetAsked_hist, List.length_cons, State.accept_hist]
    omega

end Sys2Proof.Machine
end

section
/-! SUPPORT. SEND (rules R180 to R201): which requests it turns away, its two polls, what each outcome leads to, the response
capture and the data phase; from these, SEND as a whole operation. -/

namespace Sys2Proof.Machine

variable {s t : State} {d : Descriptor} {p : Config.Params} {v : Word} {cs : List Pos}

/-! ## The operand checks (rules R181, R182) -/

/-- A requestable operation of a ready state runs its first label on the accepted request (rules R40, R302). -/
theorem exec_ready {i : Instr} (hs : s.ready) (hi : i.wellFormed = true) : exec i s = labelAt i.start (s.accept i) := by
  obtain ⟨hidle, hconf⟩ := hs
  rw [exec_idle hidle hi, begin_configured hconf]

/-- The check of rule R181 in words. -/
theorem invalid_iff :
    d.invalid = true ↔ (d.rclass = .none ∧ (d.crc = true ∨ d.opchk = true)) ∨ d.reserved ≠ 0 := by
  simp [Descriptor.invalid]

/-- The four preconditions of rule R182 in words. -/
theorem preconditions_iff {n : Option Nat} :
    d.preconditions p n = true ↔
      d.bufsize.toNat % 4 = 0 ∧
      (d.bufsize.toNat ≠ 0 → d.multi p = true →
        d.bufsize.toNat % p.blk.toNat = 0 ∧ d.bufsize.toNat / p.blk.toNat ≤ 0xFFFF) ∧
      (d.bufsize.toNat ≠ 0 → ¬d.multi p = true → d.bufsize.toNat ≤ p.blk.toNat) ∧
      (d.bufsize.toNat ≠ 0 → ∃ k, n = some k ∧ d.bufsize.toNat ≤ k) := by
  have hdata : d.hasData = decide (d.bufsize.toNat ≠ 0) := by
    rw [Bool.eq_iff_iff, hasData_iff, decide_eq_true_iff, ne_eq, ← BitVec.toNat_inj]
    rfl
  by_cases hsize : d.bufsize.toNat = 0
  · simp [Descriptor.preconditions, hdata, hsize]
  by_cases hm : d.multi p = true
  · cases n <;> simp [Descriptor.preconditions, hdata, hsize, hm]
  · cases n <;> simp [Descriptor.preconditions, hdata, hsize, hm]

/-- SC_0 outside the preconditions refuses the request (rule R182). -/
theorem labelAt_sc_0_refuses (h : s.desc.preconditions s.cfg s.dbuf ≠ true) :
    labelAt (.send .sc_0) s = .refused .sendPrecondition := if_neg h

/-- SC_0 within the preconditions never refuses: the check of rule R181 alone decides. -/
theorem labelAt_sc_0 (h : s.desc.preconditions s.cfg s.dbuf = true) :
    labelAt (.send .sc_0) s =
      .next (if s.desc.invalid then s.finish .invalidParameter else s.goto (.send .sc_1)) := if_pos h

/-- Settles O39: SC_0 refuses exactly where the preconditions fail. -/
theorem sendPreconditions : Obligations.SendPreconditions := by
  intro s hs size multi
  have hiff := preconditions_iff (d := s.desc) (p := s.cfg) (n := s.dbuf)
  simp only [multi_iff] at hiff
  rw [exec_ready hs rfl, ← hiff]
  by_cases h : s.desc.preconditions s.cfg s.dbuf = true
  · simp [Instr.start, labelAt_sc_0 (s := s.accept .send) h, h]
  · simp [Instr.start, labelAt_sc_0_refuses (s := s.accept .send) h, h]

/-- Settles O38: within the preconditions SC_0 ends with `InvalidParameter` or goes on to SC_1. -/
theorem sendInvalidDescriptor : Obligations.SendInvalidDescriptor := by
  intro s hs hpre
  have hexec : exec .send s = _ := (exec_ready hs rfl).trans (labelAt_sc_0 (s := s.accept .send) hpre)
  rw [← invalid_iff, hexec]
  refine ⟨fun h => ?_, fun h => ⟨_, congrArg _ (if_neg h), rfl, rfl, rfl⟩⟩
  rw [if_pos (show (s.accept .send).desc.invalid = true from h), State.finish_outermost (h := rfl)]
  rfl

/-! ## The inhibit poll (rules R184, R185) -/

/-- The inhibit mask in words (rule R184). -/
theorem inhibitMask_eq : p.inhibitMask d =
    if d.opcode = p.opStop ∧ d.rclass ≠ .busy then p.hl.psCmdInhibit else p.hl.psCmdInhibit ||| p.hl.psDatInhibit := by
  simp [Config.Params.inhibitMask]

/-- The inhibit poll passes exactly where all masked bits read 0 (rule R185). -/
theorem notInhibited_iff {mask : Word} : Config.notInhibited mask v = true ↔ v &&& mask = 0 := by
  simp [Config.notInhibited]

/-- The inhibit poll fails exactly where a masked bit reads 1 (rule R185). -/
theorem notInhibited_eq_false_iff {mask : Word} : Config.notInhibited mask v = false ↔ v &&& mask ≠ 0 := by
  simp [Config.notInhibited]

/-- Settles O40: SC_1 takes the mask from opcode and class, and P1 of SC_2 tests its bits. -/
theorem inhibitMask : Obligations.InhibitMask := by
  refine ⟨fun s cs hs => ⟨_, ?_, inhibitMask_eq⟩, fun s mask cs hs => ?_⟩
  · rw [execSend_at hs]
    simp [sendAt, State.goto, hs]
  · rw [execSend_at hs]
    simp only [sendAt, pollUntil_p1, notInhibited_iff]
    simp only [State.goto, State.afterRead, hs, Seq.callers, State.readOf, apply_ite Pos.send]

/-- SC_2 is a poll of `PSTATE` (rule R185). -/
theorem pollAt_sc_2 (cfg : Config.Params) (mask : Word) (cs : List Pos) :
    PollAt cfg .pstate (Config.notInhibited mask) cfg.tInhibit (fun p => .send (.sc_2 mask p)) (fun _ => .send .sc_3) cs :=
  fun _ _ hcfg hu => hcfg ▸ (step_running hu).trans (execSend_at hu)

/-- SC_7 is a poll of `INTSTS` for any bit (rule R189). -/
theorem pollAt_sc_7 (cfg : Config.Params) (cs : List Pos) :
    PollAt cfg .intsts Config.anyInterrupt cfg.tCmd (fun p => .send (.sc_7 p)) (fun v => .send (.sc_8 v)) cs :=
  fun _ _ hcfg hu => hcfg ▸ (step_running hu).trans (execSend_at hu)

/-- An accepted SEND with good operands before its inhibit poll. -/
theorem runs_sc_2 (hsend : s.sendOk) :
    Runs 2 (s.accept .send) ((s.accept .send).goto (.send (.sc_2 (s.cfg.inhibitMask s.desc) .start))) := by
  obtain ⟨hpre, hinv⟩ := hsend
  have hsc_0 : labelAt (.send .sc_0) (s.accept .send) = .next ((s.accept .send).goto (.send .sc_1)) := by
    rw [labelAt_sc_0 (s := s.accept .send) hpre, State.accept_desc, hinv, if_neg Bool.false_ne_true]
  exact .label rfl hsc_0 (.label rfl rfl (.zero _))

/-- SEND of `s` at SC_3, the inhibit poll passed by the read `free` after the failed reads `bad`. -/
def State.uninhibited (s : State) (bad : List Word) (free : Word) (rest : List Word) : State :=
  { s with
    seq := .running (.send .sc_3) []
    started := true
    inbox := s.inbox.tail
    elapsed := bad.length * s.cfg.tStep
    env := { script := rest, draws := s.env.draws + (bad.length + 1) }
    hist := (s.pollsOf .pstate bad ++ [s.readOf .pstate free]).reverse ++ s.hist }

/-- The inhibit poll passes where a read within `NPOLL(T_INHIBIT)` finds all masked bits 0 (rule R185). -/
theorem runs_uninhibited {bad rest : List Word} {free : Word} (hv : s.cfg.valid = true) (hsend : s.sendOk)
    (hsc : s.env.script = bad ++ free :: rest) (hbad : ∀ w ∈ bad, w &&& s.cfg.inhibitMask s.desc ≠ 0)
    (hfree : free &&& s.cfg.inhibitMask s.desc = 0) (hn : bad.length < s.cfg.npoll s.cfg.tInhibit) :
    Runs (2 * bad.length + 4) (s.accept .send) (s.uninhibited bad free rest) := by
  have hpoll := poll_passes (s := (s.accept .send).goto (.send (.sc_2 (s.cfg.inhibitMask s.desc) .start)))
    (pollAt_sc_2 _ _ []) rfl hsc (fun w h => notInhibited_eq_false_iff.2 (hbad w h)) (notInhibited_iff.2 hfree) hn
    (timeout_fits hv (by simp))
  have hrun := (runs_sc_2 hsend).trans hpoll
  rw [show 2 + (2 * bad.length + 2) = 2 * bad.length + 4 by omega] at hrun
  refine cast (congrArg _ ?_) hrun
  simp [State.uninhibited, State.accept, State.goto, State.pollsOf, State.readOf, State.regAddr]

/-- Settles O42: the inhibit poll of the accepted request passes to SC_3 or ends SEND with `Timeout`. -/
theorem sendInhibitPoll : Obligations.SendInhibitPoll := by
  intro s bad rest hs hv hpre hinv hbad
  refine ⟨fun good hsc hgood hn => ?_, fun hsc hn => ?_⟩
  · exact .of_ready hs rfl (runs_uninhibited hv ⟨hpre, hinv⟩ hsc hbad hgood hn) rfl
  · have hpoll := poll_exhausted (s := (s.accept .send).goto (.send (.sc_2 (s.cfg.inhibitMask s.desc) .start)))
      (pollAt_sc_2 _ _ []) rfl hsc (fun w h => notInhibited_eq_false_iff.2 (hbad w h)) hn (tStep_pos_of_valid hv)
      (timeout_fits hv (by simp))
    have hrun := (runs_sc_2 ⟨hpre, hinv⟩).trans hpoll
    rw [show 2 + (2 * bad.length + 1) = 2 * bad.length + 2 + 1 by omega] at hrun
    refine .of_ready hs rfl hrun ?_
    rw [State.finish_outermost (h := rfl)]
    simp [State.ended, State.accept, State.goto, State.pollsOf, State.readOf, State.regAddr, hsc]

/-! ## The outcome (rules R189 to R193) -/

/-- The outcome poll passes where some bit reads 1 (rule R189). -/
theorem anyInterrupt_iff : Config.anyInterrupt v = true ↔ v ≠ 0 := by simp [Config.anyInterrupt]

/-- A status word with a bit of some mask set ends the outcome poll. -/
theorem anyInterrupt_of_and_ne_zero {m : Word} (h : v &&& m ≠ 0) : Config.anyInterrupt v = true :=
  anyInterrupt_iff.2 fun h0 => h (by simp [h0])

/-- A word without a bit of the mask does not pass the mask's test. -/
theorem not_hits {m : Word} (h : v &&& m = 0) : ¬v.hits m = true := fun hit => (hits_iff v m).1 hit h

/-- SC_8 with the command-timeout bit calls RESET of the command line (rule R192). -/
theorem labelAt_sc_8_timeout (h : v &&& s.cfg.sl.isCmdTimeout ≠ 0) :
    labelAt (.send (.sc_8 v)) s = .next (s.call (Instr.reset commandLine).start (.send .sc_8r)) :=
  congrArg _ (if_pos ((hits_iff _ _).2 h))

/-- SC_8 without the command-timeout bit goes on (rule R191). -/
theorem labelAt_sc_8_passes (h : v &&& s.cfg.sl.isCmdTimeout = 0) :
    labelAt (.send (.sc_8 v)) s = .next (s.goto (.send (.sc_9 v))) :=
  congrArg _ (if_neg (not_hits h))

/-- Back from the nested RESET a requested SEND ends with `Timeout`, whatever RESET ended with (rule R192). -/
theorem labelAt_sc_8r (hs : s.seq = .running (.send .sc_8r) []) :
    labelAt (.send .sc_8r) s = .next { s with seq := .idle, q := { s.q with status := 1 } } :=
  congrArg Host.Outcome.next (State.finish_outermost s .timeout (by rw [hs, Seq.callers_running]))

/-- SC_9 with the generic error bit ends with `DeviceError` (rule R193). -/
theorem labelAt_sc_9_error (h : v &&& s.cfg.sl.isError ≠ 0) :
    labelAt (.send (.sc_9 v)) s = .next (s.finish .deviceError) :=
  congrArg _ (if_pos ((hits_iff _ _).2 h))

/-- SC_9 without the generic error bit goes on (rule R191). -/
theorem labelAt_sc_9_passes (h : v &&& s.cfg.sl.isError = 0) :
    labelAt (.send (.sc_9 v)) s = .next (s.goto (.send (.sc_10 v))) :=
  congrArg _ (if_neg (not_hits h))

/-- A status word without the two failure bits leads from SC_8 to the capture (rule R191). -/
theorem runs_sc_10 (hs : s.seq = .running (.send (.sc_8 v)) cs) (ht : v &&& s.cfg.sl.isCmdTimeout = 0)
    (he : v &&& s.cfg.sl.isError = 0) : Runs 2 s { s with seq := .running (.send (.sc_10 v)) cs } := by
  have hrun : Runs 2 s _ := .label hs (labelAt_sc_8_passes ht) (.label rfl (labelAt_sc_9_passes he) (.zero _))
  refine cast (congrArg _ ?_) hrun
  simp [State.goto, hs]

/-! ## The capture (rules R194 to R197) -/

/-- Word 0 of the response replaced, written out. -/
theorem set_resp_zero (resp : Vector Word 4) (r : Word) : resp.set 0 r = #v[r, resp[1], resp[2], resp[3]] := by
  ext i hi
  match i with
  | 0 | 1 | 2 | 3 => simp

/-- SC_10 without the completion bit captures nothing (rule R194). -/
theorem labelAt_sc_10_incomplete (h : v &&& s.cfg.sl.isCmdComplete = 0) :
    labelAt (.send (.sc_10 v)) s = .next (s.goto (.send .sc_11)) :=
  if_neg (not_hits h)

/-- SC_10 for class NONE captures nothing (rule R194). -/
theorem labelAt_sc_10_none (h : s.desc.rclass = .none) :
    labelAt (.send (.sc_10 v)) s = .next (s.goto (.send .sc_11)) := by
  simp only [labelAt, sendAt, captureAt, h, ite_self]

/-- SC_10 with the completion bit reads the one word of a short or busy response (rule R195). -/
theorem labelAt_sc_10_word (h : v &&& s.cfg.sl.isCmdComplete ≠ 0) (hc : s.desc.rclass = .short ∨ s.desc.rclass = .busy) :
    labelAt (.send (.sc_10 v)) s = .next (State.goto (.send .sc_11) { s.afterRead .rsp0 with
      desc := { s.desc with resp := #v[s.peek .rsp0, s.desc.resp[1], s.desc.resp[2], s.desc.resp[3]] } }) := by
  have hcomplete : s.cfg.cmdComplete v = true := (hits_iff _ _).2 h
  rcases hc with hc | hc <;> simp [labelAt, sendAt, captureAt, hcomplete, hc, set_resp_zero]

/-- SC_10 with the completion bit reads the first word of a long response (rule R196). -/
theorem labelAt_sc_10_long (h : v &&& s.cfg.sl.isCmdComplete ≠ 0) (hc : s.desc.rclass = .long) :
    labelAt (.send (.sc_10 v)) s = .next ((s.afterRead .rsp0).goto (.send (.sc_10b (s.peek .rsp0)))) := by
  have hcomplete : s.cfg.cmdComplete v = true := (hits_iff _ _).2 h
  simp [labelAt, sendAt, captureAt, hcomplete, hc]

/-- Settles O45: a short or busy response is one word, anything else that is not long is none. -/
theorem sendShortCapture : Obligations.SendShortCapture := by
  intro s v cs hs
  have hexec : exec .send s = labelAt (.send (.sc_10 v)) s := exec_op hs
  have hskip : s.goto (.send .sc_11) = { s with seq := .running (.send .sc_11) cs } := by simp [State.goto, hs]
  rw [hexec, ← hskip]
  refine ⟨fun h hc => ?_, fun h => h.elim labelAt_sc_10_incomplete labelAt_sc_10_none⟩
  rw [labelAt_sc_10_word h hc]
  simp [State.goto, State.afterRead, hs, State.readOf]

/-- A shift left by 8 carries the top byte of the low word into the high part. -/
theorem append_shiftLeft_eight {w : Nat} (a : BitVec w) (b : Word) :
    (a ++ b) <<< 8 = ((a <<< 8) ||| (b >>> 24).setWidth w) ++ (b <<< 8) := by
  ext i hi
  grind

/-- An OR with a word reaches the low word only. -/
theorem append_or_setWidth {w : Nat} (a : BitVec w) (b c : Word) : (a ++ b) ||| c.setWidth (w + 32) = a ++ (b ||| c) := by
  ext i hi
  grind

/-- The shift left by 8 of rule R197, word by word. -/
theorem shiftLeft_words (r0 r1 r2 r3 : Word) :
    (r3 ++ r2 ++ r1 ++ r0) <<< 8 = ((r3 <<< 8) ||| (r2 >>> 24)) ++ ((r2 <<< 8) ||| (r1 >>> 24)) ++
      ((r1 <<< 8) ||| (r0 >>> 24)) ++ (r0 <<< 8) := by
  rw [append_shiftLeft_eight, append_shiftLeft_eight, append_shiftLeft_eight, append_or_setWidth, append_or_setWidth,
    BitVec.setWidth_eq]

/-- The words of a long response are the 128-bit value read, or with the quirk that value shifted left by 8 (rules R196,
R197). -/
theorem longResponse_value (hostcaps r0 r1 r2 r3 : Word) :
    ((longResponse hostcaps r0 r1 r2 r3)[0] ++ (longResponse hostcaps r0 r1 r2 r3)[1] ++
      (longResponse hostcaps r0 r1 r2 r3)[2] ++ (longResponse hostcaps r0 r1 r2 r3)[3] : BitVec 128) =
      if hostcaps &&& 0x80 ≠ 0 then (r3 ++ r2 ++ r1 ++ r0 : BitVec 128) <<< 8 else r3 ++ r2 ++ r1 ++ r0 := by
  have hquirk : hostcaps.hits Config.capResp136Shifted = true ↔ hostcaps &&& 0x80 ≠ 0 := hits_iff _ _
  by_cases h : hostcaps &&& 0x80 ≠ 0
  · rw [if_pos h]
    simp only [longResponse, if_pos (hquirk.2 h)]
    exact (shiftLeft_words r0 r1 r2 r3).symm
  · rw [if_neg h]
    simp only [longResponse, if_neg (mt hquirk.1 h)]
    rfl

/-- Settles O44: four reads, then the words of `longResponse`. -/
theorem sendLongCapture : Obligations.SendLongCapture := by
  intro s v r0 r1 r2 r3 rest cs hs hc hv hsc
  have hrun : Runs 4 s _ :=
    .label hs (labelAt_sc_10_long hv hc) (.label rfl rfl (.label rfl rfl (.label rfl rfl (.zero _))))
  refine ⟨{ s with
    seq := .running (.send .sc_11) cs
    desc := { s.desc with resp := longResponse s.ctx.hostcaps r0 r1 r2 r3 }
    env := { script := rest, draws := s.env.draws + 4 }
    hist := [s.readOf .rsp0 r0, s.readOf .rsp1 r1, s.readOf .rsp2 r2, s.readOf .rsp3 r3].reverse ++ s.hist },
    .of_runs hs rfl (cast (congrArg _ ?_) hrun), longResponse_value _ _ _ _ _, rfl⟩
  simp [State.goto, State.afterRead, State.peek, Env.answer, Env.next, State.regAddr, State.readOf, hs, hsc]

/-! ## The data phase and the end (rules R200, R281) -/

/-- SC_11 with data calls the mover of the direction (rule R200). -/
theorem labelAt_sc_11_data (h : s.desc.bufsize ≠ 0) :
    labelAt (.send .sc_11) s = .next (s.call (dataPhase s.desc.dir).start (.send (.sc_11r .success))) :=
  congrArg _ (if_pos ((hasData_iff _).2 h))

/-- SC_11 without data goes on to the end (rule R200). -/
theorem labelAt_sc_11_done (h : s.desc.bufsize = 0) :
    labelAt (.send .sc_11) s = .next (s.goto (.send .sc_12)) :=
  congrArg _ (if_neg fun hdata => (hasData_iff _).1 hdata h)

/-- A requested SEND ends at SC_12 with `Success`. -/
theorem runs_sc_12 (hs : s.seq = .running (.send .sc_12) []) :
    Runs 1 s { s with seq := .idle, q := { s.q with status := 0 } } :=
  .label hs (congrArg Host.Outcome.next (State.finish_outermost s .success (by rw [hs, Seq.callers_running]))) (.zero _)

/-- Back from the mover with `Success` SEND goes on to the end (rule R200). -/
theorem labelAt_sc_11r_success : labelAt (.send (.sc_11r .success)) s = .next (s.goto (.send .sc_12)) := rfl

/-- Back from the mover with another status SEND ends with that status (rule R200). -/
theorem labelAt_sc_11r_fails {st : Status} (h : st ≠ .success) :
    labelAt (.send (.sc_11r st)) s = .next (s.finish st) := congrArg _ (if_neg h)

/-- The mover of a direction starts at FF_0. -/
theorem dataPhase_start (d : Dir) : (dataPhase d).start = .fifo d .ff_0 := by cases d <;> rfl

/-- Settles O48: SC_11 calls the mover or goes on to SC_12, and so does SEND with the status of the mover. -/
theorem sendDataPhase : Obligations.SendDataPhase := by
  refine fun s => ⟨fun hs hdata => ?_, fun hs hdata => ?_, fun hs => ?_, fun st hs hst => ?_⟩
  · refine (exec_op hs).trans ((labelAt_sc_11_data hdata).trans (congrArg _ ?_))
    simp [State.call, hs, dataPhase_start]
  · exact .of_runs hs rfl (.label hs (labelAt_sc_11_done hdata) (runs_sc_12 (by simp [hs])))
  · exact .of_runs hs rfl (.label hs labelAt_sc_11r_success (runs_sc_12 (by simp [hs])))
  · refine (exec_op hs).trans ((labelAt_sc_11r_fails hst).trans (congrArg _ (State.finish_outermost s st ?_)))
    rw [hs, Seq.callers_running]

/-- Settles O46: SC_8 tests the command-timeout bit, SC_9 the generic error bit, SC_10 the completion bit. -/
theorem outcomePriority : Obligations.OutcomePriority := by
  refine fun s v hs => ⟨fun ht => ⟨?_, fun t hst => (exec_op hst).trans (labelAt_sc_8r hst)⟩, fun ht he => ?_,
    fun ht he => ⟨?_, fun hc => ?_⟩⟩
  · refine (exec_op hs).trans ((labelAt_sc_8_timeout ht).trans (congrArg _ ?_))
    simp [State.call, hs, commandLine, Instr.start]
  · refine .of_runs hs rfl (.label hs (labelAt_sc_8_passes ht) (.label rfl (labelAt_sc_9_error he) ?_))
    rw [State.finish_outermost (h := by simp [hs])]
    rfl
  · exact .of_runs hs rfl (runs_sc_10 hs ht he)
  · exact .of_runs hs rfl ((runs_sc_10 hs ht he).trans (.label rfl (labelAt_sc_10_incomplete hc) (.zero _)))

/-- The reset bit of the command line is the one bit the nested RESET asks for (rules R120, R192). -/
theorem resetBits_commandLine : p.resetBits commandLine = p.hl.ccRstCmd := by
  simp [Config.Params.resetBits, commandLine]

/-- Settles O47: whatever the nested RESET ends with, SC_8 goes on to `Timeout`. -/
theorem sendCommandTimeout : Obligations.SendCommandTimeout := by
  intro s v hs hv ht
  have hcalled : (s.call (Instr.reset commandLine).start (.send .sc_8r)).seq =
      .running (.reset commandLine .rs_1) [.send .sc_8r] := by simp [hs, Instr.start]
  obtain ⟨n, es, e, env, st, -, hlen, hes, hrun⟩ := reset_ends hcalled hv
  rw [State.finish_nested (h := by rw [hcalled, Seq.callers_running])] at hrun
  have htotal := Runs.label hs (labelAt_sc_8_timeout ht) (hrun.trans (.label rfl (labelAt_sc_8r rfl) (.zero _)))
  refine ⟨n + 2, _, s.peek .clkctl, es, .of_runs hs rfl htotal, rfl, ?_, rfl, hlen, fun x hx => or_assoc.1 (hes x hx)⟩
  simp [resetBits_commandLine, State.readOf, State.writeOf, State.regAddr, State.peek]

/-! ## Whole operations -/

/-- The completion of the running operation is a run of steps. -/
theorem Completes.runs {i : Instr} {pos : Pos} {n : Nat} (h : Completes i n s t) (hs : s.seq = .running pos cs)
    (hop : pos.op = i) : Runs (n + 1) s t := by
  obtain ⟨u, hu, hrun⟩ := h
  exact .cons ((step_running hs).trans (hop ▸ hu)) hrun

/-- The events of SEND up to the command word: the inhibit poll passed by the read `free` after the failed reads `bad`, and
the writes of SC_3 to SC_6. -/
def State.issuedEvents (s : State) (bad : List Word) (free : Word) : List Event :=
  s.pollsOf .pstate bad ++ [s.readOf .pstate free, s.writeOf .intsts s.cfg.intAll] ++
    (if s.desc.bufsize ≠ 0 then [s.writeOf .blkszcnt (s.cfg.blkszcntWord s.desc)] else []) ++
    [s.writeOf .arg s.desc.arg, s.writeOf .cmd (s.cfg.commandWord s.desc s.ctx.hostcaps)]

/-- SEND of `s` with the command issued: before its outcome poll. -/
def State.issued (s : State) (bad : List Word) (free : Word) (rest : List Word) : State :=
  { s.uninhibited bad free rest with
    seq := .running (.send (.sc_7 .start)) []
    hist := (s.issuedEvents bad free).reverse ++ s.hist }

@[simp] theorem State.issued_cfg (s : State) (bad : List Word) (free : Word) (rest : List Word) :
    (s.issued bad free rest).cfg = s.cfg := rfl

/-- From the outcome to the end, for a command without data that completes with a one-word response (rules R191, R194, R195,
R200). -/
theorem runs_answered (hs : s.seq = .running (.send (.sc_8 v)) []) (ht : v &&& s.cfg.sl.isCmdTimeout = 0)
    (he : v &&& s.cfg.sl.isError = 0) (hc : v &&& s.cfg.sl.isCmdComplete ≠ 0)
    (hclass : s.desc.rclass = .short ∨ s.desc.rclass = .busy) (hdata : s.desc.bufsize = 0) :
    Runs 5 s { s with
      seq := .idle
      q := { s.q with status := 0 }
      desc := { s.desc with resp := #v[s.peek .rsp0, s.desc.resp[1], s.desc.resp[2], s.desc.resp[3]] }
      env := s.env.next
      hist := s.readOf .rsp0 (s.peek .rsp0) :: s.hist } := by
  have hend : Runs 3 { s with seq := .running (.send (.sc_10 v)) [] } _ :=
    .label rfl (labelAt_sc_10_word hc hclass) (.label rfl (labelAt_sc_11_done hdata) (runs_sc_12 rfl))
  exact (runs_sc_10 hs ht he).trans hend

section issued
variable {bad rest : List Word} {free : Word} (hv : s.cfg.valid = true) (hsend : s.sendOk)
  (hbad : ∀ w ∈ bad, w &&& s.cfg.inhibitMask s.desc ≠ 0) (hfree : free &&& s.cfg.inhibitMask s.desc = 0)
  (hn : bad.length < s.cfg.npoll s.cfg.tInhibit)
include hv hsend hbad hfree hn

/-- From the acceptance to the outcome poll (rules R184 to R187). -/
theorem runs_issued (hsc : s.env.script = bad ++ free :: rest) :
    Runs (2 * bad.length + 8) (s.accept .send) (s.issued bad free rest) := by
  have hprog := (sendProgramming (s.uninhibited bad free rest) [] rfl).runs rfl rfl
  refine cast (congrArg _ ?_) ((runs_uninhibited hv hsend hsc hbad hfree hn).trans hprog)
  simp [State.issued, State.issuedEvents, State.uninhibited, State.readOf, State.writeOf, State.regAddr]

/-- A command without data that is answered within `NPOLL(T_CMD)` reads and completes with a one-word response ends with
`Success` (rules R189, R191, R195, R200). -/
theorem send_answered {r : Word} {k : Nat} (hs : s.ready)
    (hsc : s.env.script = bad ++ free :: (List.replicate k 0 ++ v :: r :: rest)) (hk : k < s.cfg.npoll s.cfg.tCmd)
    (hdata : s.desc.bufsize = 0) (hclass : s.desc.rclass = .short ∨ s.desc.rclass = .busy)
    (ht : v &&& s.cfg.sl.isCmdTimeout = 0) (he : v &&& s.cfg.sl.isError = 0) (hc : v &&& s.cfg.sl.isCmdComplete ≠ 0) :
    Completes .send (2 * bad.length + 2 * k + 14) s
      { s.ended .success (bad.length + k + 3) (s.issuedEvents bad free ++ s.pollsOf .intsts (List.replicate k 0) ++
          [s.readOf .intsts v, s.readOf .rsp0 r]) with
        elapsed := k * s.cfg.tStep
        desc := { s.desc with resp := #v[r, s.desc.resp[1], s.desc.resp[2], s.desc.resp[3]] } } := by
  have hpoll := poll_passes (s := s.issued bad free (List.replicate k 0 ++ v :: r :: rest)) (good := v)
    (pollAt_sc_7 _ []) rfl rfl (by simp [Config.anyInterrupt]) (anyInterrupt_of_and_ne_zero hc)
    (by simpa using hk) (timeout_fits hv (by simp))
  have hrun := (runs_issued hv hsend hbad hfree hn hsc).trans (hpoll.trans (runs_answered rfl ht he hc hclass hdata))
  rw [List.length_replicate, show 2 * bad.length + 8 + (2 * k + 2 + 5) = 2 * bad.length + 2 * k + 14 + 1 by omega] at hrun
  have hdrop : s.env.script.drop (bad.length + k + 3) = rest := by
    rw [show s.env.script = (bad ++ free :: (List.replicate k 0 ++ [v, r])) ++ rest by simp [hsc]]
    exact List.drop_left' (by simp; omega)
  have hdraws : s.env.draws + (bad.length + 1) + (k + 1) + 1 = s.env.draws + (bad.length + k + 3) := by omega
  refine .of_ready hs rfl hrun ?_
  simp [State.ended, State.issued, State.uninhibited, State.peek, Env.answer, Env.next, State.readOf, State.pollsOf,
    State.regAddr, Status.code, hdrop, hdraws]

/-- A command that is never answered ends with `Timeout` after `NPOLL(T_CMD)` reads (rule R190). -/
theorem send_unanswered (hs : s.ready)
    (hsc : s.env.script = bad ++ free :: (List.replicate (s.cfg.npoll s.cfg.tCmd) 0 ++ rest)) :
    Completes .send (2 * bad.length + 2 * s.cfg.npoll s.cfg.tCmd + 8) s
      { s.ended .timeout (bad.length + s.cfg.npoll s.cfg.tCmd + 1)
          (s.issuedEvents bad free ++ s.pollsOf .intsts (List.replicate (s.cfg.npoll s.cfg.tCmd) 0)) with
        elapsed := s.cfg.npoll s.cfg.tCmd * s.cfg.tStep } := by
  have hpoll := poll_exhausted (s := s.issued bad free (List.replicate (s.cfg.npoll s.cfg.tCmd) 0 ++ rest))
    (pollAt_sc_7 _ []) rfl rfl (by simp [Config.anyInterrupt]) List.length_replicate (tStep_pos_of_valid hv)
    (timeout_fits hv (by simp))
  have hrun := (runs_issued hv hsend hbad hfree hn hsc).trans hpoll
  rw [List.length_replicate, show 2 * bad.length + 8 + (2 * s.cfg.npoll s.cfg.tCmd + 1) =
    2 * bad.length + 2 * s.cfg.npoll s.cfg.tCmd + 8 + 1 by omega] at hrun
  have hdrop : s.env.script.drop (bad.length + s.cfg.npoll s.cfg.tCmd + 1) = rest := by
    rw [show s.env.script = (bad ++ free :: List.replicate (s.cfg.npoll s.cfg.tCmd) 0) ++ rest by simp [hsc]]
    exact List.drop_left' (by simp; omega)
  have hdraws : s.env.draws + (bad.length + 1) + s.cfg.npoll s.cfg.tCmd =
      s.env.draws + (bad.length + s.cfg.npoll s.cfg.tCmd + 1) := by omega
  refine .of_ready hs rfl hrun ?_
  rw [State.finish_outermost (h := rfl)]
  simp [State.ended, State.issued, State.uninhibited, State.readOf, State.pollsOf, State.regAddr, hdrop, hdraws]

end issued

/-- Settles O43: the outcome poll of the issued command passes or fails to the end. -/
theorem sendShortCompletes : Obligations.SendShortCompletes := by
  intro s bad free rest hs hv hpre hinv hbad hfree hn issued
  exact ⟨fun v r k hdata hclass hsc hk => send_answered hv ⟨hpre, hinv⟩ hbad hfree hn hs hsc hk hdata hclass,
    send_unanswered hv ⟨hpre, hinv⟩ hbad hfree hn hs⟩

end Sys2Proof.Machine
end

section
/-! SUPPORT. The data mover (rules R210 to R222): what it does with a status word, and its poll. -/

namespace Sys2Proof.Machine

variable {s : State} {d : Dir} {rem idx n v : Word} {cs : List Pos}

/-! ## The tests of a status word (rules R217, R218, R220, R222) -/

/-- FF_3 with a data-error bit calls RESET of the data line (rule R217). -/
theorem labelAt_ff_3_error (h : v &&& s.cfg.sl.isDataErr ≠ 0) :
    labelAt (.fifo d (.ff_3 rem idx n v)) s =
      .next (s.call (Instr.reset dataLine).start (.fifo d (.ff_4 rem idx n v))) :=
  congrArg _ (if_pos ((hits_iff _ _).2 h))

/-- FF_3 without a data-error bit goes on (rule R217). -/
theorem labelAt_ff_3_passes (h : v &&& s.cfg.sl.isDataErr = 0) :
    labelAt (.fifo d (.ff_3 rem idx n v)) s = .next (s.goto (.fifo d (.ff_4 rem idx n v))) :=
  congrArg _ (if_neg (not_hits h))

/-- FF_4 with the generic error bit ends with `DeviceError` (rule R218). -/
theorem labelAt_ff_4_error (h : v &&& s.cfg.sl.isError ≠ 0) :
    labelAt (.fifo d (.ff_4 rem idx n v)) s = .next (s.finish .deviceError) :=
  congrArg _ (if_pos ((hits_iff _ _).2 h))

/-- FF_4 without the generic error bit goes on (rule R218). -/
theorem labelAt_ff_4_passes (h : v &&& s.cfg.sl.isError = 0) :
    labelAt (.fifo d (.ff_4 rem idx n v)) s = .next (s.goto (.fifo d (.ff_5 rem idx n v))) :=
  congrArg _ (if_neg (not_hits h))

/-- FF_5 with the ready bit of its direction goes on to the words (rule R220). -/
theorem labelAt_ff_5_ready (h : v &&& s.cfg.readyMask d ≠ 0) :
    labelAt (.fifo d (.ff_5 rem idx n v)) s = .next (s.goto (.fifo d (.ff_6 rem idx n v))) :=
  congrArg (fun l => Host.Outcome.next (s.goto (.fifo d l))) (if_pos ((hits_iff _ _).2 h))

/-- FF_5 without the ready bit of its direction goes round (rules R220, R222). -/
theorem labelAt_ff_5_unready (h : v &&& s.cfg.readyMask d = 0) :
    labelAt (.fifo d (.ff_5 rem idx n v)) s = .next (s.goto (.fifo d (.ff_1 rem idx))) :=
  congrArg (fun l => Host.Outcome.next (s.goto (.fifo d l))) (if_neg (not_hits h))

/-- A ready status word without the generic error bit is acknowledged whole, and its words come next (rules R215, R220). -/
theorem runs_acknowledged (hs : s.seq = .running (.fifo d (.ff_4 rem idx n v)) cs) (he : v &&& s.cfg.sl.isError = 0)
    (hr : v &&& s.cfg.readyMask d ≠ 0) :
    Runs 3 s { s with
      seq := .running (.fifo d (.ff_6k rem idx n 0)) cs
      hist := s.writeOf .intsts v :: s.hist } := by
  have hrun : Runs 3 s _ :=
    .label hs (labelAt_ff_4_passes he) (.label rfl (labelAt_ff_5_ready hr) (.label rfl rfl (.zero _)))
  refine cast (congrArg _ ?_) hrun
  simp [State.goto, State.regWrite, State.writeOf, State.regAddr, hs]

/-- Settles O52: FF_3, FF_4 and FF_5 each test one mask. -/
theorem fifoClassifies : Obligations.FifoClassifies := by
  intro s d rem idx n v cs ready mover
  have hready : ready = s.cfg.readyMask d := by cases d <;> rfl
  have hmover : ∀ l, (Pos.fifo d l).op = mover := fun l => (op_fifo d l).trans (op_fifo d .ff_0).symm
  have hexec {l cs} (hs : s.seq = .running (.fifo d l) cs) : exec mover s = labelAt (.fifo d l) s := hmover l ▸ exec_op hs
  rw [hready]
  refine ⟨fun hs h => ?_, fun hs h => ?_, fun st₀ hs h => ?_, fun hs he hr => ?_, fun hs he hr => ?_⟩
  · rw [hexec hs, labelAt_ff_3_error h]
    simp [State.call, hs, dataLine, Instr.start]
  · rw [hexec hs, labelAt_ff_3_passes h]
    simp [State.goto, hs]
  · rw [hexec hs, labelAt_ff_4_error h, State.finish_nested (h := by rw [hs, Seq.callers_running])]
    rfl
  · have hrun : Runs 2 s _ := .label hs (labelAt_ff_4_passes he) (.label rfl (labelAt_ff_5_unready hr) (.zero _))
    refine .of_runs hs (hmover _) (cast (congrArg _ ?_) hrun)
    simp [State.goto, hs]
  · exact .of_runs hs (hmover _) (runs_acknowledged hs he hr)

/-! ## The poll (rules R210, R219) -/

/-- FF_2 is a poll of `INTSTS` for any bit (rule R210). -/
theorem pollAt_ff_2 (cfg : Config.Params) (d : Dir) (rem idx n : Word) (cs : List Pos) :
    PollAt cfg .intsts Config.anyInterrupt cfg.tData (fun p => .fifo d (.ff_2 rem idx n p))
      (fun v => .fifo d (.ff_3 rem idx n v)) cs :=
  fun _ _ hcfg hu => hcfg ▸ (step_running hu).trans (exec_op hu)

/-- Settles O53: a poll all of whose reads fail. -/
theorem fifoPollTimeout : Obligations.FifoPollTimeout := by
  intro s d rem idx n st₀ rest hs hv hsc
  have hrun := poll_exhausted (pollAt_ff_2 s.cfg d rem idx n _) hs hsc (by simp [Config.anyInterrupt])
    List.length_replicate (tStep_pos_of_valid hv) (timeout_fits hv (by simp))
  rw [List.length_replicate, State.finish_nested (h := by rw [hs, Seq.callers_running])] at hrun
  exact .of_runs hs (by simp) hrun

end Sys2Proof.Machine
end

section
/-! SUPPORT. An error-free data phase as a whole (rules R212 to R216, R221): the words of a chunk, a chunk, all chunks, in
both directions at once; and the buffer that holds the words read. -/

namespace Sys2Proof.Machine

/-! ## The buffer with words stored (rules R86, R212) -/

/-- The buffer with these words stored from word index `i` on. -/
def Memory.storeWords (i : Nat) : List Word → Memory → Memory
  | [], m => m
  | w :: ws, m => storeWords (i + 1) ws (m.writeWord i w)

section storeWords
variable {i a j : Nat} {ws : List Word} {m : Memory}

theorem Memory.storeWords_append (i : Nat) (ws vs : List Word) (m : Memory) :
    storeWords i (ws ++ vs) m = storeWords (i + ws.length) vs (storeWords i ws m) := by
  induction ws generalizing i m with
  | nil => rfl
  | cons w ws ih =>
    rw [List.cons_append, storeWords, ih, storeWords, List.length_cons, Nat.add_assoc, Nat.add_comm 1]

/-- Stored words leave the bytes outside them alone. -/
theorem Memory.read_storeWords_outside (h : m.wf = true) (ha : a < 4 * i ∨ 4 * (i + ws.length) ≤ a) :
    Memory.read a (storeWords i ws m) = Memory.read a m := by
  induction ws generalizing i m with
  | nil => rfl
  | cons w ws ih =>
    rw [List.length_cons] at ha
    rw [storeWords, ih (wf_writeWord h) (by omega), read_writeWord_outside h (by omega)]

/-- Stored words leave every word before them alone. -/
theorem Memory.readWord_storeWords_before (h : m.wf = true) (hj : j < i) :
    Memory.readWord j (storeWords i ws m) = Memory.readWord j m := by
  simp only [Memory.readWord]
  rw [read_storeWords_outside h (.inl (by omega)), read_storeWords_outside h (.inl (by omega)),
    read_storeWords_outside h (.inl (by omega)), read_storeWords_outside h (.inl (by omega))]

/-- Stored words read back. -/
theorem Memory.readWord_storeWords (h : m.wf = true) (hj : j < ws.length) :
    Memory.readWord (i + j) (storeWords i ws m) = ws[j] := by
  induction ws generalizing i j m with
  | nil => exact absurd hj (Nat.not_lt_zero _)
  | cons w ws ih =>
    rw [storeWords]
    cases j with
    | zero => exact (readWord_storeWords_before (wf_writeWord h) (Nat.lt_succ_self i)).trans (readWord_writeWord h)
    | succ j =>
      rw [show i + (j + 1) = i + 1 + j by omega]
      exact ih (wf_writeWord h) (Nat.lt_of_succ_lt_succ hj)

end storeWords

/-! ## What moving words takes and leaves, by direction (rules R212, R213) -/

/-- The answers the environment gives while these words move: the words themselves where they come from the data port. -/
def wordAnswers : Dir → List Word → List Word
  | .read, ws => ws
  | .write, _ => []

/-- The buffer after these words have moved from word index `i` on. -/
def Memory.afterWords (d : Dir) (i : Nat) (ws : List Word) (m : Memory) : Memory :=
  match d with
  | .read => m.storeWords i ws
  | .write => m

/-- On a write the words are those the buffer holds from word index `i` on. -/
def Sourced (d : Dir) (i : Nat) (ws : List Word) (m : Memory) : Prop :=
  d = .write → ∀ (j : Nat) (h : j < ws.length), ws[j] = m.readWord (i + j)

/-- The answers the environment gives in an error-free data phase: a ready status word before the words of each chunk. -/
def chunkAnswers (d : Dir) (chunks : List (Word × List Word)) : List Word :=
  chunks.flatMap fun c => c.1 :: wordAnswers d c.2

section words
variable {d : Dir} {i : Nat} {ws vs : List Word} {m : Memory}

@[simp] theorem wordAnswers_nil : wordAnswers d [] = [] := by cases d <;> rfl

@[simp] theorem Memory.afterWords_nil : m.afterWords d i [] = m := by cases d <;> rfl

theorem wordAnswers_append : wordAnswers d (ws ++ vs) = wordAnswers d ws ++ wordAnswers d vs := by cases d <;> rfl

theorem Memory.afterWords_append :
    m.afterWords d i (ws ++ vs) = (m.afterWords d i ws).afterWords d (i + ws.length) vs := by
  cases d with
  | read => exact storeWords_append i ws vs m
  | write => rfl

/-- The words of a chunk and those after it come from where the buffer still holds them when each is moved. -/
theorem Sourced.of_append (h : Sourced d i (ws ++ vs) m) :
    Sourced d i ws m ∧ Sourced d (i + ws.length) vs (m.afterWords d i ws) := by
  refine ⟨fun hd j hj => ?_, fun hd j hj => ?_⟩
  · rw [← h hd j (by simp; omega), List.getElem_append_left]
  · subst hd
    rw [Memory.afterWords, Nat.add_assoc, ← h rfl (ws.length + j) (by simpa using hj)]
    simp

/-- Each chunk is one answer more than its words take. -/
theorem length_chunkAnswers (d : Dir) (chunks : List (Word × List Word)) :
    (chunkAnswers d chunks).length = (wordAnswers d (chunks.flatMap (·.2))).length + chunks.length := by
  induction chunks with
  | nil => cases d <;> rfl
  | cons c cs ih =>
    simp only [chunkAnswers] at ih
    simp only [chunkAnswers, List.flatMap_cons, List.length_append, List.length_cons, wordAnswers_append, ih]
    omega

end words

/-! ## A stretch of the mover's run -/

/-- `s` where the mover has come to `pos`: these events made and these answers taken, with elapsed counter `e` and buffer
`m`. -/
def State.moverAt (s : State) (pos : Pos) (e : Nat) (es : List Event) (m : Memory) (answers rest : List Word) : State :=
  { s with
    seq := .running pos s.seq.callers
    elapsed := e
    buf := m
    env := { script := rest, draws := s.env.draws + answers.length }
    hist := es.reverse ++ s.hist }

section moverAt
variable {s t : State} {pos pos' : Pos} {e e' : Nat} {es es' : List Event} {m m' : Memory} {ans ans' rest rest' : List Word}

/-- Two stretches are one. -/
theorem State.moverAt_moverAt :
    (s.moverAt pos e es m ans rest).moverAt pos' e' es' m' ans' rest' =
      s.moverAt pos' e' (es ++ es') m' (ans ++ ans') rest' := by
  simp [State.moverAt, Nat.add_assoc]

@[simp] theorem State.moverAt_seq : (s.moverAt pos e es m ans rest).seq = .running pos s.seq.callers := rfl
@[simp] theorem State.moverAt_elapsed : (s.moverAt pos e es m ans rest).elapsed = e := rfl
@[simp] theorem State.moverAt_buf : (s.moverAt pos e es m ans rest).buf = m := rfl

/-- A stretch without events and answers is a jump (rule R11). -/
theorem State.moverAt_nil (h : s.env.script = rest) : s.moverAt pos s.elapsed [] s.buf [] rest = s.goto pos := by
  simp [State.moverAt, State.goto, ← h]

/-- The events of words depend on the register addresses only. -/
theorem State.wordsOf_congr (h : ∀ r, t.regAddr r = s.regAddr r) : t.wordsOf = s.wordsOf := by
  funext d i ws
  induction ws generalizing i with
  | nil => rfl
  | cons w ws ih => cases d <;> simp [State.wordsOf, State.readOf, State.writeOf, h, ih]

/-- The events of chunks depend on the register addresses only. -/
theorem State.chunksOf_congr (h : ∀ r, t.regAddr r = s.regAddr r) : t.chunksOf = s.chunksOf := by
  funext d i chunks
  induction chunks generalizing i with
  | nil => rfl
  | cons c cs ih => simp [State.chunksOf, State.readOf, State.writeOf, State.wordsOf_congr h, h, ih]

@[simp] theorem State.wordsOf_moverAt : (s.moverAt pos e es m ans rest).wordsOf = s.wordsOf := wordsOf_congr fun _ => rfl
@[simp] theorem State.chunksOf_moverAt : (s.moverAt pos e es m ans rest).chunksOf = s.chunksOf :=
  chunksOf_congr fun _ => rfl

@[simp] theorem State.chunksOf_goto : (s.goto pos).chunksOf = s.chunksOf := chunksOf_congr fun _ => rfl

/-- The events of a word and of those after it. -/
theorem State.wordsOf_cons (d : Dir) (i : Nat) (w : Word) (ws : List Word) :
    s.wordsOf d i (w :: ws) = s.wordsOf d i [w] ++ s.wordsOf d (i + 1) ws := by
  simp [State.wordsOf]

end moverAt

variable {s : State} {d : Dir} {rem idx n k v w : Word} {cs : List Pos} {ws rest : List Word}

/-! ## The words of a chunk (rules R212, R213) -/

/-- The word count of a chunk as a number (rule R214). -/
theorem lt_div_four_iff : k < n / 4 ↔ k.toNat < n.toNat / 4 := by
  rw [BitVec.lt_def, BitVec.toNat_udiv]
  rfl

/-- FF_6 with a word left makes its first access (rules R212, R213). -/
theorem labelAt_ff_6k_word (hk : k.toNat < n.toNat / 4) :
    labelAt (.fifo d (.ff_6k rem idx n k)) s =
      wordFetch d (idx + k) s fun w s => .next (s.goto (.fifo d (.ff_6w rem idx n k w))) :=
  if_pos (lt_div_four_iff.2 hk)

/-- FF_6 without a word left takes stock of the chunk (rule R214). -/
theorem labelAt_ff_6k_done (hk : k.toNat = n.toNat / 4) :
    labelAt (.fifo d (.ff_6k rem idx n k)) s = .next (s.goto (.fifo d (.ff_1 (rem - n) (idx + n / 4)))) :=
  if_neg fun h => Nat.ne_of_lt (lt_div_four_iff.1 h) hk

/-- FF_6 between the two accesses of a word makes the second (rules R212, R213). -/
theorem labelAt_ff_6w : labelAt (.fifo d (.ff_6w rem idx n k w)) s =
    wordStore d (idx + k) w s fun s => .next (s.goto (.fifo d (.ff_6k rem idx n (k + 1)))) := rfl

/-- On a write the first access reads the buffer word (rule R213). -/
theorem wordFetch_write {i : Word} {f : Word → State → Out} (h : s.bufIndexOk i.toNat = true) :
    wordFetch .write i s f =
      f (s.buf.readWord i.toNat) { s with hist := .bufRead i.toNat (s.buf.readWord i.toNat) :: s.hist } :=
  bufRead_ok h

/-- On a read the second access writes the buffer word (rule R212). -/
theorem wordStore_read {i : Word} {f : State → Out} (h : s.bufIndexOk i.toNat = true) :
    wordStore .read i w s f =
      f { s with buf := s.buf.writeWord i.toNat w, hist := .bufWrite i.toNat w :: s.hist } :=
  bufWrite_ok h

/-- The two accesses of a word whose index is in the BUF space. -/
theorem runs_word (hs : s.seq = .running (.fifo d (.ff_6k rem idx n k)) cs) (hk : k.toNat < n.toNat / 4)
    (hi : (idx + k).toNat < s.desc.bufsize.toNat / 4) (hsc : s.env.script = wordAnswers d [w] ++ rest)
    (hw : Sourced d (idx + k).toNat [w] s.buf) :
    Runs 2 s (s.moverAt (.fifo d (.ff_6k rem idx n (k + 1))) s.elapsed (s.wordsOf d (idx + k).toNat [w])
      (s.buf.afterWords d (idx + k).toNat [w]) (wordAnswers d [w]) rest) := by
  have hok : s.bufIndexOk (idx + k).toNat = true := decide_eq_true hi
  cases d with
  | read =>
    have hpeek : s.peek .data = w := by simp [State.peek, Env.answer, hsc, wordAnswers]
    refine cast (congrArg _ ?_) (Runs.label hs (labelAt_ff_6k_word hk)
      (.label rfl (labelAt_ff_6w.trans (wordStore_read hok)) (.zero _)))
    simp [State.moverAt, State.goto, State.afterRead, State.wordsOf, State.readOf, Memory.afterWords, Memory.storeWords,
      wordAnswers, Env.next, hpeek, hs, hsc]
  | write =>
    have hbuf : s.buf.readWord (idx + k).toNat = w := (hw rfl 0 Nat.one_pos).symm
    have hrest : s.env.script = rest := hsc
    refine cast (congrArg _ ?_) (Runs.label hs ((labelAt_ff_6k_word hk).trans (wordFetch_write hok))
      (.label rfl labelAt_ff_6w (.zero _)))
    simp [State.moverAt, State.goto, State.regWrite, State.wordsOf, State.writeOf, State.regAddr, Memory.afterWords,
      wordAnswers, hs, hbuf, ← hrest, -BitVec.toNat_add]

/-- The word loop of FF_6 from word `k` of a chunk on (rules R212, R213). -/
theorem runs_words (hs : s.seq = .running (.fifo d (.ff_6k rem idx n k)) cs) (hlen : k.toNat + ws.length = n.toNat / 4)
    (hi : (idx + k).toNat + ws.length ≤ s.desc.bufsize.toNat / 4) (hsc : s.env.script = wordAnswers d ws ++ rest)
    (hw : Sourced d (idx + k).toNat ws s.buf) :
    Runs (2 * ws.length + 1) s (s.moverAt (.fifo d (.ff_1 (rem - n) (idx + n / 4))) s.elapsed
      (s.wordsOf d (idx + k).toNat ws) (s.buf.afterWords d (idx + k).toNat ws) (wordAnswers d ws) rest) := by
  induction ws generalizing s k with
  | nil =>
    rw [wordAnswers_nil, List.nil_append] at hsc
    rw [wordAnswers_nil, Memory.afterWords_nil, State.wordsOf, State.moverAt_nil hsc]
    exact .label hs (labelAt_ff_6k_done hlen) (.zero _)
  | cons w ws ih =>
    rw [List.length_cons] at hlen hi
    rw [← List.singleton_append, wordAnswers_append, List.append_assoc] at hsc
    rw [← List.singleton_append] at hw
    obtain ⟨hfirst, hafter⟩ := hw.of_append
    have hsize := s.desc.bufsize.isLt
    have hk : (k + 1).toNat = k.toNat + 1 := by bv_omega
    have hnext : (idx + (k + 1)).toNat = (idx + k).toNat + 1 := by bv_omega
    have h1 := runs_word hs (by omega) (by omega) hsc hfirst
    have h2 := ih (s := s.moverAt (.fifo d (.ff_6k rem idx n (k + 1))) s.elapsed (s.wordsOf d (idx + k).toNat [w])
      (s.buf.afterWords d (idx + k).toNat [w]) (wordAnswers d [w]) (wordAnswers d ws ++ rest)) (k := k + 1)
      (by simp [hs]) (by omega) (show _ ≤ s.desc.bufsize.toNat / 4 by omega) rfl (hnext ▸ hafter)
    rw [State.moverAt_moverAt, State.wordsOf_moverAt, State.moverAt_buf, State.moverAt_elapsed, hnext,
      ← State.wordsOf_cons, ← wordAnswers_append,
      show (idx + k).toNat + 1 = (idx + k).toNat + [w].length from rfl, ← Memory.afterWords_append,
      List.singleton_append] at h2
    rw [List.length_cons, show 2 * (ws.length + 1) + 1 = 2 + (2 * ws.length + 1) by omega]
    exact h1.trans h2

/-! ## A chunk (rules R214 to R216) -/

/-- A chunk is a block or what is left; taking it off wraps neither what is left nor the index (rules R214, R216). -/
theorem chunk_moves (hv : s.cfg.valid = true) (hsize : s.desc.bufsize.toNat % 4 = 0) (hmoved : Moved s rem idx)
    (hn : n = chunk rem s.cfg.blk) :
    n.toNat = min rem.toNat s.cfg.blk.toNat ∧ (rem - n).toNat = rem.toNat - n.toNat ∧
      (idx + n / 4).toNat = idx.toNat + n.toNat / 4 ∧ Moved s (rem - n) (idx + n / 4) := by
  have hblk := (blk_of_valid hv).1
  have hmin : n.toNat = min rem.toNat s.cfg.blk.toNat := by
    rw [hn, chunk, Nat.min_def]
    exact apply_ite _ _ _ _
  unfold Moved at hmoved ⊢
  have hlt := s.desc.bufsize.isLt
  have hrem : (rem - n).toNat = rem.toNat - n.toNat := BitVec.toNat_sub_of_le (BitVec.le_def.2 (by omega))
  have hidx : (idx + n / 4).toNat = idx.toNat + n.toNat / 4 := by
    rw [BitVec.toNat_add, BitVec.toNat_udiv]
    exact Nat.mod_eq_of_lt (show idx.toNat + n.toNat / 4 < _ by omega)
  exact ⟨hmin, hrem, hidx, by omega⟩

/-- FF_1 with bytes left chooses the next chunk (rule R214). -/
theorem labelAt_ff_1_chunk (h : rem ≠ 0) :
    labelAt (.fifo d (.ff_1 rem idx)) s = .next (s.goto (.fifo d (.ff_2 rem idx (chunk rem s.cfg.blk) .start))) :=
  congrArg (fun l => Host.Outcome.next (s.goto (.fifo d l))) (if_neg h)

/-- FF_1 without bytes left goes on to the end (rule R214). -/
theorem labelAt_ff_1_done (h : rem = 0) : labelAt (.fifo d (.ff_1 rem idx)) s = .next (s.goto (.fifo d .ff_7)) :=
  congrArg (fun l => Host.Outcome.next (s.goto (.fifo d l))) (if_pos h)

section ready
variable (hs : s.seq = .running (.fifo d (.ff_1 rem idx)) cs) (hv : s.cfg.valid = true) (hn : n = chunk rem s.cfg.blk)
  (hrem : rem ≠ 0) (hdata : s.cfg.dataError v = false) (herr : s.cfg.genericError v = false)
  (hready : s.cfg.bufferReady d v = true)
include hs hv hn hrem hdata herr hready

/-- A chunk whose status word is free of errors and ready is found so by one read, and acknowledged (rules R210, R215). -/
theorem runs_ready (hsc : s.env.script = v :: rest) :
    Runs 7 s (s.moverAt (.fifo d (.ff_6k rem idx n 0)) 0 [s.readOf .intsts v, s.writeOf .intsts v] s.buf [v] rest) := by
  have hd : v &&& s.cfg.sl.isDataErr = 0 := by simpa [Config.Params.dataError, Word.hits] using hdata
  have he : v &&& s.cfg.sl.isError = 0 := by simpa [Config.Params.genericError, Word.hits] using herr
  have hr : v &&& s.cfg.readyMask d ≠ 0 := (hits_iff _ _).1 hready
  have hpick : labelAt (.fifo d (.ff_1 rem idx)) s = .next (s.goto (.fifo d (.ff_2 rem idx n .start))) :=
    hn ▸ labelAt_ff_1_chunk hrem
  have hpoll := poll_passes (s := s.goto (.fifo d (.ff_2 rem idx n .start))) (bad := [])
    (pollAt_ff_2 s.cfg d rem idx n cs) (by simp [hs]) hsc (by simp) (anyInterrupt_of_and_ne_zero hr) (Nat.succ_pos _)
    (timeout_fits hv (by simp))
  have hrun := Runs.label hs hpick (hpoll.trans (.label rfl (labelAt_ff_3_passes hd) (runs_acknowledged rfl he hr)))
  refine cast (congrArg _ ?_) hrun
  simp [State.moverAt, State.pollsOf, State.readOf, State.writeOf, State.regAddr, hs]

/-- An error-free chunk: the poll's read, the acknowledge, the words (rules R210, R214, R215). -/
theorem runs_chunk (hlen : ws.length = n.toNat / 4) (hi : idx.toNat + ws.length ≤ s.desc.bufsize.toNat / 4)
    (hsc : s.env.script = v :: (wordAnswers d ws ++ rest)) (hw : Sourced d idx.toNat ws s.buf) :
    Runs (2 * ws.length + 8) s (s.moverAt (.fifo d (.ff_1 (rem - n) (idx + n / 4))) 0
      (s.readOf .intsts v :: s.writeOf .intsts v :: s.wordsOf d idx.toNat ws) (s.buf.afterWords d idx.toNat ws)
      (v :: wordAnswers d ws) rest) := by
  have hzero : idx + 0 = idx := BitVec.add_zero idx
  have hwords := runs_words (s := s.moverAt (.fifo d (.ff_6k rem idx n 0)) 0
    [s.readOf .intsts v, s.writeOf .intsts v] s.buf [v] (wordAnswers d ws ++ rest)) (ws := ws) (rest := rest)
    rfl (by simpa using hlen) (by rwa [hzero]) rfl (by rwa [hzero])
  rw [State.moverAt_moverAt, State.wordsOf_moverAt, State.moverAt_buf, State.moverAt_elapsed, hzero] at hwords
  exact (show 7 + (2 * ws.length + 1) = 2 * ws.length + 8 by omega) ▸
    (runs_ready hs hv hn hrem hdata herr hready hsc).trans hwords

end ready

/-! ## All chunks (rules R210, R214, R216) -/

/-- An error-free data phase has as many words as the transfer (rule R214). -/
theorem length_of_serves {p : Config.Params} {chunks : List (Word × List Word)} {r : Nat} (h4 : p.blk.toNat % 4 = 0)
    (h : Serves p d r chunks) : (chunks.flatMap (·.2)).length = r / 4 := by
  induction chunks generalizing r with
  | nil => simp [show r = 0 from h]
  | cons c chunks ih =>
    obtain ⟨-, -, -, -, hlen, hserves⟩ := h
    rw [List.flatMap_cons, List.length_append, ih hserves, hlen]
    omega

/-- An error-free data phase from FF_1 on, to FF_7. -/
theorem runs_chunks {chunks : List (Word × List Word)} (hs : s.seq = .running (.fifo d (.ff_1 rem idx)) cs)
    (hv : s.cfg.valid = true) (hsize : s.desc.bufsize.toNat % 4 = 0) (hmoved : Moved s rem idx)
    (hserves : Serves s.cfg d rem.toNat chunks) (hsc : s.env.script = chunkAnswers d chunks ++ rest)
    (hw : Sourced d idx.toNat (chunks.flatMap (·.2)) s.buf) :
    ∃ n, Runs n s (s.moverAt (.fifo d .ff_7) (if chunks = [] then s.elapsed else 0)
      (s.chunksOf d idx.toNat chunks) (s.buf.afterWords d idx.toNat (chunks.flatMap (·.2))) (chunkAnswers d chunks)
      rest) := by
  induction chunks generalizing s rem idx with
  | nil =>
    have hrem : rem = 0 := BitVec.toNat_inj.1 hserves
    rw [List.flatMap_nil, Memory.afterWords_nil, State.chunksOf, if_pos rfl]
    exact ⟨1, .label hs (labelAt_ff_1_done hrem) (State.moverAt_nil hsc)⟩
  | cons c chunks ih =>
    obtain ⟨v, ws⟩ := c
    obtain ⟨hrem, hdata, herr, hready, hlen, hserves⟩ := hserves
    obtain ⟨hmin, hleft, hidx, hmoved'⟩ := chunk_moves hv hsize hmoved rfl
    rw [← hmin] at hlen hserves
    rw [← hleft] at hserves
    rw [← hlen] at hidx
    rw [List.flatMap_cons] at hw ⊢
    obtain ⟨hfirst, hafter⟩ := hw.of_append
    have hbound : idx.toNat + ws.length ≤ s.desc.bufsize.toNat / 4 := by unfold Moved at hmoved; omega
    have hsc' : s.env.script = v :: (wordAnswers d ws ++ (chunkAnswers d chunks ++ rest)) := by
      simpa [chunkAnswers] using hsc
    have h1 := runs_chunk hs hv rfl (fun h => hrem (by simp [h])) hdata herr hready hlen hbound hsc' hfirst
    obtain ⟨m, h2⟩ := ih (s := s.moverAt _ 0 (s.readOf .intsts v :: s.writeOf .intsts v :: s.wordsOf d idx.toNat ws)
      (s.buf.afterWords d idx.toNat ws) (v :: wordAnswers d ws) (chunkAnswers d chunks ++ rest))
      (by simp only [State.moverAt_seq, hs, Seq.callers_running]; rfl) hv hsize hmoved' hserves rfl (hidx ▸ hafter)
    rw [State.moverAt_moverAt, State.chunksOf_moverAt, State.moverAt_buf, State.moverAt_elapsed, hidx,
      ← Memory.afterWords_append, ite_self] at h2
    exact ⟨_, h1.trans h2⟩

/-! ## The whole data phase (rules R210, R221, R281) -/

/-- The acknowledge of the trailing bits of the last status word, where one is set (rule R221). -/
def State.trailingWrites (s : State) (v : Word) : List Event :=
  if v &&& s.cfg.sl.isTrailing ≠ 0 then [s.writeOf .intsts (v &&& s.cfg.sl.isTrailing)] else []

@[simp] theorem State.trailingWrites_reverse (s : State) (v : Word) : (s.trailingWrites v).reverse = s.trailingWrites v := by
  unfold State.trailingWrites
  split <;> rfl

@[simp] theorem State.trailingWrites_goto (s : State) (pos : Pos) : (s.goto pos).trailingWrites = s.trailingWrites := rfl

@[simp] theorem State.trailingWrites_moverAt (s : State) (pos : Pos) (e : Nat) (es : List Event) (m : Memory)
    (ans rest : List Word) : (s.moverAt pos e es m ans rest).trailingWrites = s.trailingWrites := rfl

/-- FF_7 acknowledges the trailing bits of the status word, if any is set, and ends with `Success` (rule R221). -/
theorem labelAt_ff_7w : labelAt (.fifo d (.ff_7w v)) s =
    .next (State.finish .success { s with hist := s.trailingWrites v ++ s.hist }) := by
  simp only [labelAt, fifoAt, hits_iff, State.trailingWrites]
  split <;> rfl

/-- FF_7 to the caller: one more status word, its trailing bits acknowledged, `Success` handed over (rules R221, R281). -/
theorem runs_trailing {st₀ : Status} (hs : s.seq = .running (.fifo d .ff_7) [.send (.sc_11r st₀)])
    (hsc : s.env.script = v :: rest) :
    Runs 2 s { s with
      seq := .running (.send (.sc_11r .success)) []
      env := { script := rest, draws := s.env.draws + 1 }
      hist := s.trailingWrites v ++ s.readOf .intsts v :: s.hist } := by
  have hpeek : s.peek .intsts = v := by simp [State.peek, Env.answer, hsc]
  have hread : labelAt (.fifo d .ff_7) s = .next ((s.afterRead .intsts).goto (.fifo d (.ff_7w v))) :=
    hpeek ▸ rfl
  refine cast (congrArg _ ?_) (Runs.label hs hread (.label rfl labelAt_ff_7w (.zero _)))
  rw [State.finish_nested _ _ (.send (.sc_11r st₀)) [] (by simp [hs])]
  simp [State.goto, State.afterRead, Env.next, State.readOf, State.trailingWrites, State.writeOf, State.regAddr, Pos.resume,
    hpeek, hsc]

/-- An error-free data phase from the call of the mover to the caller (rules R210, R281). -/
theorem runs_transfer {st₀ : Status} {chunks : List (Word × List Word)}
    (hs : s.seq = .running (.fifo d .ff_0) [.send (.sc_11r st₀)]) (hv : s.cfg.valid = true) (hdata : s.desc.bufsize ≠ 0)
    (hsize : s.desc.bufsize.toNat % 4 = 0) (hserves : Serves s.cfg d s.desc.bufsize.toNat chunks)
    (hsc : s.env.script = chunkAnswers d chunks ++ v :: rest) (hw : Sourced d 0 (chunks.flatMap (·.2)) s.buf) :
    ∃ n, Completes (dataPhase d) n s { s with
      seq := .running (.send (.sc_11r .success)) []
      elapsed := 0
      buf := s.buf.afterWords d 0 (chunks.flatMap (·.2))
      env := { script := rest, draws := s.env.draws + ((chunkAnswers d chunks).length + 1) }
      hist := (s.chunksOf d 0 chunks ++ s.readOf .intsts v :: s.trailingWrites v).reverse ++ s.hist } := by
  have hne : chunks ≠ [] := by
    rintro rfl
    exact hdata (BitVec.toNat_inj.1 hserves)
  have hzero : (0 : Word).toNat = 0 := rfl
  obtain ⟨m, hchunks⟩ := runs_chunks (s := s.goto (.fifo d (.ff_1 s.desc.bufsize 0))) (rem := s.desc.bufsize) (idx := 0)
    rfl hv hsize (by simp [Moved]) hserves hsc (hzero ▸ hw)
  rw [if_neg hne, hzero, State.chunksOf_goto] at hchunks
  have hrun := Runs.label hs rfl (hchunks.trans (runs_trailing (d := d) (st₀ := st₀) (by simp [hs]) rfl))
  rw [State.trailingWrites_moverAt, State.trailingWrites_goto] at hrun
  refine ⟨m + 2, .of_runs hs (op_fifo d .ff_0) (cast (congrArg _ ?_) hrun)⟩
  simp [State.moverAt, State.goto, State.readOf, State.regAddr, Nat.add_assoc]

/-- Settles O50: on a read the answers are the status words and the words, which end in the buffer. -/
theorem fifoReadTransfers : Obligations.FifoReadTransfers := by
  intro s st₀ chunks v rest hs hv hwf hdata hsize hserves hsc words
  obtain ⟨n, hrun⟩ := runs_transfer hs hv hdata hsize hserves hsc nofun
  have hlen : words.length = s.desc.bufsize.toNat / 4 := length_of_serves (blk_of_valid hv).1 hserves
  rw [length_chunkAnswers] at hrun
  refine ⟨n, _, hrun, hlen, fun i hi => ?_, fun a ha => ?_, rfl⟩
  · have hread := Memory.readWord_storeWords (i := 0) hwf hi
    rwa [Nat.zero_add] at hread
  · exact Memory.read_storeWords_outside hwf (.inr (show 4 * (0 + words.length) ≤ a by omega))

/-- Settles O51: on a write the answers are the status words alone, and the buffer is not touched. -/
theorem fifoWriteTransfers : Obligations.FifoWriteTransfers := by
  intro s st₀ chunks v rest hs hv hdata hsize hserves hsc words hbuf
  have hanswers : s.env.script = chunkAnswers .write chunks ++ v :: rest := by
    rw [hsc, chunkAnswers, List.map_eq_flatMap]
    rfl
  obtain ⟨n, hrun⟩ := runs_transfer hs hv hdata hsize hserves hanswers fun _ i hi => by simpa using hbuf i hi
  rw [length_chunkAnswers, show (wordAnswers .write (chunks.flatMap (·.2))).length = 0 from rfl, Nat.zero_add] at hrun
  exact ⟨length_of_serves (blk_of_valid hv).1 hserves, n, hrun⟩

end Sys2Proof.Machine
end

section
/-! SUPPORT. GETBW and SETBW as whole operations (rules R230 to R234): what the width decoded, the width check and the word
written say in terms of the masks, and the run of each accepted request. -/

namespace Sys2Proof.Machine

variable {s : State}

/-! ## The operands (rules R230, R232) -/

/-- The width decoded, by the masks of the two width bits (rule R230). -/
theorem widthOf_eq (p : Config.Params) (v : Word) :
    p.widthOf v = if v &&& p.hl.hcBw8 ≠ 0 then 8 else if v &&& p.hl.hcBw4 ≠ 0 then 4 else 1 := by
  simp only [Config.Params.widthOf, hits_iff]

/-- The width check of SETBW in words (rule R232). -/
theorem widthOk_iff {w : Word} : Config.widthOk w = true ↔ w = 1 ∨ w = 4 ∨ w = 8 := by
  simp [Config.widthOk, or_assoc]

/-- SB_0 with a width goes on to the read (rule R232). -/
theorem labelAt_sb_0_passes (h : s.q.value = 1 ∨ s.q.value = 4 ∨ s.q.value = 8) :
    labelAt (.setbw .sb_0) s = .next (s.goto (.setbw .sb_1)) :=
  congrArg _ (if_pos (widthOk_iff.2 h))

/-- SB_0 with any other value ends SETBW before its first access (rule R232). -/
theorem labelAt_sb_0_fails (h : ¬(s.q.value = 1 ∨ s.q.value = 4 ∨ s.q.value = 8)) :
    labelAt (.setbw .sb_0) s = .next (s.finish .invalidParameter) :=
  congrArg _ (if_neg (mt widthOk_iff.1 h))

/-! ## The accepted requests -/

/-- Settles O54: the read of GB_1 and the decoding of GB_2 follow one another whatever is read. -/
theorem getbwCompletes : Obligations.GetbwCompletes := by
  refine ⟨decodeHeader_of_encode rfl, fun s hs => ?_⟩
  have hruns : Runs 2 (s.accept .getbw) _ := .label rfl rfl (.label rfl rfl (.zero _))
  refine .of_ready hs rfl hruns ?_
  rw [State.finish_outermost (h := rfl)]
  simp [State.ended, Env.next_eq, State.readOf, widthOf_eq, Status.code]

/-- SETBW of a width is the read-modify-write of `HOSTCTL` (rule R232). -/
theorem setbw_completes_with_width (hs : s.ready) (h : s.q.value = 1 ∨ s.q.value = 4 ∨ s.q.value = 8) :
    Completes .setbw 2 s (s.ended .success 1
      [s.readOf .hostctl (s.peek .hostctl),
       s.writeOf .hostctl (s.cfg.withWidth (s.peek .hostctl) s.q.value)]) := by
  have hruns : Runs 3 (s.accept .setbw) _ :=
    .label rfl (labelAt_sb_0_passes h) (.label rfl rfl (.label rfl rfl (.zero _)))
  refine .of_ready hs rfl hruns ?_
  rw [State.finish_outermost (h := rfl)]
  simp [State.ended, Env.next_eq, State.readOf, State.writeOf]

/-- SETBW of any other value ends in its first step, with no access (rule R232). -/
theorem setbw_fails_without_width (hs : s.ready) (h : ¬(s.q.value = 1 ∨ s.q.value = 4 ∨ s.q.value = 8)) :
    exec .setbw s = .next (s.ended .invalidParameter 0 []) := by
  have hexec : exec .setbw s = .next ((s.accept .setbw).finish .invalidParameter) :=
    (exec_ready hs rfl).trans (labelAt_sb_0_fails h)
  rw [hexec, State.finish_outermost (h := rfl)]
  rfl

/-- Settles O55: the width check of SB_0 alone decides between the two endings. -/
theorem setbwCompletes : Obligations.SetbwCompletes :=
  ⟨decodeHeader_of_encode rfl, fun _ hs => ⟨setbw_completes_with_width hs, setbw_fails_without_width hs⟩⟩

end Sys2Proof.Machine
end

section
/-! SUPPORT. GETCLK and SETCLK as whole operations (rules R240 to R252): the operand check, what the two divisor searches
find, and the run of an accepted SETCLK through its clock-stable poll. -/

namespace Sys2Proof.Machine

variable {s : State} {p : Config.Params} {fund speed : Word}

/-! ## GETCLK (rule R240) -/

/-- Settles O56: the one label of GETCLK is its ending. -/
theorem getclkUnsupported : Obligations.GetclkUnsupported := by
  refine ⟨decodeHeader_of_encode rfl, fun s hs => ?_⟩
  have hexec : exec .getclk s = .next ((s.accept .getclk).finish .unsupported) := exec_ready hs rfl
  rw [hexec, State.finish_outermost (h := rfl)]
  rfl

/-! ## The operand check of SETCLK (rule R243) -/

/-- CK_0 with a speed and a base clock goes on to the search (rule R243). -/
theorem labelAt_ck_0_passes (hspeed : s.q.value ≠ 0) (hfund : s.ctx.fundclk ≠ 0) :
    labelAt (.setclk .ck_0) s = .next (s.goto (.setclk .ck_1)) :=
  congrArg _ (if_neg (not_or.2 ⟨hspeed, hfund⟩))

/-- CK_0 without a speed or without a base clock ends SETCLK before its first access (rule R243). -/
theorem labelAt_ck_0_fails (h : s.q.value = 0 ∨ s.ctx.fundclk = 0) :
    labelAt (.setclk .ck_0) s = .next (s.finish .invalidParameter) :=
  congrArg _ (if_pos h)

/-- Settles O57: the check of CK_0, on the accepted request, alone decides. -/
theorem setclkOperandCheck : Obligations.SetclkOperandCheck := by
  refine fun s hs => ⟨fun h => ?_, fun hspeed hfund => ?_⟩
  · have hexec : exec .setclk s = .next ((s.accept .setclk).finish .invalidParameter) :=
      (exec_ready hs rfl).trans (labelAt_ck_0_fails h)
    rw [hexec, State.finish_outermost (h := rfl)]
    rfl
  · exact ⟨_, (exec_ready hs rfl).trans (labelAt_ck_0_passes hspeed hfund), rfl, rfl⟩

/-! ## The divisor searches (rules R244 to R246, R250) -/

/-- What a search through increasing candidates `c 0`, `c 1`, … up to the bound `c m` finds, from candidate `i` on with
enough fuel: the first candidate that meets the speed, or the bound (rules R245, R246). -/
theorem search_finds_from {f : Nat → Nat → Nat} {c : Nat → Nat} {m fund speed : Nat} (hc : StrictMono c)
    (hzero : ∀ i, f 0 (c i) = c i)
    (hsucc : ∀ n i, f (n + 1) (c i) = if c i < c m ∧ speed < fund / c i then f n (c (i + 1)) else c i)
    (fuel i : Nat) (hi : i ≤ m) (hfuel : m ≤ i + fuel) :
    ∃ k ≤ m, f fuel (c i) = c k ∧ (fund / c k ≤ speed ∨ k = m) ∧ ∀ j, i ≤ j → j < k → speed < fund / c j := by
  induction fuel generalizing i with
  | zero => exact ⟨i, hi, hzero i, .inr (by omega), by omega⟩
  | succ fuel ih =>
    rw [hsucc]
    split_ifs with hstep
    · obtain ⟨hlt, hmiss⟩ := hstep
      rw [hc.lt_iff_lt] at hlt
      obtain ⟨k, hk, hfound, hstop, hbefore⟩ := ih (i + 1) hlt (by omega)
      refine ⟨k, hk, hfound, hstop, fun j hj hjk => ?_⟩
      rcases hj.eq_or_lt with rfl | hj
      · exact hmiss
      · exact hbefore j hj hjk
    · rw [hc.lt_iff_lt] at hstep
      exact ⟨i, hi, rfl, by omega, by omega⟩

/-- The search before version 3 finds the first power of two that meets the speed, or the bound (rules R245, R246). -/
theorem searchPre3_finds {m : Nat} (hm : m ≤ 31) (fund speed : Nat) :
    ∃ k ≤ m, searchPre3 fund speed (2 ^ m) 31 1 = 2 ^ k ∧ (fund / 2 ^ k ≤ speed ∨ k = m) ∧
      ∀ j < k, speed < fund / 2 ^ j := by
  obtain ⟨k, hk, hfound, hstop, hbefore⟩ := search_finds_from (f := searchPre3 fund speed (2 ^ m)) (c := (2 ^ ·))
    (pow_right_strictMono₀ Nat.one_lt_two) (fun _ => rfl) (fun _ _ => rfl) 31 0 (Nat.zero_le m) (by omega)
  exact ⟨k, hk, hfound, hstop, fun j => hbefore j (Nat.zero_le j)⟩

/-- The search from version 3 on finds the first even number that meets the speed, or the bound (rules R245, R246). -/
theorem searchV3_finds (m fund speed : Nat) :
    ∃ k ≤ m, searchV3 fund speed (2 * (m + 1)) (m + 1) 2 = 2 * (k + 1) ∧ (fund / (2 * (k + 1)) ≤ speed ∨ k = m) ∧
      ∀ j < k, speed < fund / (2 * (j + 1)) := by
  have hmono : StrictMono fun i => 2 * (i + 1) := fun i j hij => by simp only; omega
  obtain ⟨k, hk, hfound, hstop, hbefore⟩ := search_finds_from (f := searchV3 fund speed (2 * (m + 1)))
    hmono (fun _ => rfl) (fun _ _ => rfl) (m + 1) 0 (Nat.zero_le m) (by omega)
  exact ⟨k, hk, hfound, hstop, fun j => hbefore j (Nat.zero_le j)⟩

/-- The check of rule R8 on `MAXDIV_PRE3` in numbers. -/
theorem exists_pow_of_isPow2 {w : Word} (h : Config.isPow2 w = true) : ∃ m ≤ 31, w.toNat = 2 ^ m := by
  simp only [Config.isPow2, Bool.and_eq_true, bne_iff_ne, beq_iff_eq] at h
  obtain ⟨hne, hand⟩ := h
  have hne' : w.toNat ≠ 0 := fun h0 => hne (BitVec.eq_of_toNat_eq h0)
  have hsub : (w - 1).toNat = w.toNat - 1 := by bv_omega
  have hand' : w.toNat &&& w.toNat - 1 = 0 := by rw [← hsub, ← BitVec.toNat_and, hand]; rfl
  obtain ⟨m, hm⟩ := (Nat.and_sub_one_eq_zero_iff_isPowerOfTwo hne').1 hand'
  have hlt : 2 ^ m < 2 ^ 32 := hm ▸ w.isLt
  exact ⟨m, Nat.lt_succ_iff.1 ((Nat.pow_lt_pow_iff_right (by decide)).1 hlt), hm⟩

/-- The divisor bounds of a valid record: a power of two, and an even number of at least 2 (rule R8). -/
theorem divisorBounds_of_valid (h : p.valid = true) :
    (∃ m ≤ 31, p.maxdivPre3.toNat = 2 ^ m) ∧ ∃ m, p.maxdivV3.toNat = 2 * (m + 1) := by
  simp only [Config.Params.valid, Config.Params.valuesOk, Bool.and_eq_true, decide_eq_true_eq, beq_iff_eq] at h
  obtain ⟨hpow, heven, hle⟩ :
      Config.isPow2 p.maxdivPre3 = true ∧ p.maxdivV3.toNat % 2 = 0 ∧ 2 ≤ p.maxdivV3.toNat := by tauto
  exact ⟨exists_pow_of_isPow2 hpow, p.maxdivV3.toNat / 2 - 1, by omega⟩

/-- CK_1 before version 3 takes what the doubling search finds (rules R244, R245). -/
theorem divisor_toNat_before_v3 {ver : BitVec 8} (hver : ver < p.hostverV3) :
    (divisor p ver fund speed).toNat = searchPre3 fund.toNat speed.toNat p.maxdivPre3.toNat 31 1 % 2 ^ 32 := by
  have hv3 : p.isV3 ver = false := decide_eq_false (BitVec.not_le.2 hver)
  simp [divisor, hv3]

/-- CK_1 from version 3 on takes 1 or what the search by even steps finds (rules R244, R245). -/
theorem divisor_toNat_from_v3 {ver : BitVec 8} (hver : p.hostverV3 ≤ ver) :
    (divisor p ver fund speed).toNat = if fund ≤ speed then 1 else
      searchV3 fund.toNat speed.toNat p.maxdivV3.toNat (p.maxdivV3.toNat / 2) 2 % 2 ^ 32 := by
  have hv3 : p.isV3 ver = true := decide_eq_true hver
  simp only [divisor, hv3, if_true, BitVec.toNat_ofNat]
  split_ifs <;> rfl

/-- Settles O58: the doubling search goes through the powers of two in order, up to the bound. -/
theorem divisorBeforeV3 : Obligations.DivisorBeforeV3 := by
  intro p ver fund speed hv hver d
  obtain ⟨m, hm, hmax⟩ := (divisorBounds_of_valid hv).1
  obtain ⟨k, hk, hfound, hstop, hbefore⟩ := searchPre3_finds hm fund.toNat speed.toNat
  have hlt : 2 ^ k < 2 ^ 32 := Nat.pow_lt_pow_right (by decide) (by omega)
  have hd : d = _ := divisor_toNat_before_v3 hver
  rw [hmax, hfound, Nat.mod_eq_of_lt hlt] at hd
  rw [hd, hmax]
  exact ⟨⟨k, rfl⟩, Nat.one_le_two_pow, Nat.pow_le_pow_right (by decide) hk, hstop.imp_right (congrArg _),
    fun j hj => hbefore j ((Nat.pow_lt_pow_iff_right (by decide)).1 hj)⟩

/-- Settles O59: the undivided clock is tried first, then the even numbers in order, up to the bound. -/
theorem divisorFromV3 : Obligations.DivisorFromV3 := by
  intro p ver fund speed hv hver d
  have hd : d = _ := divisor_toNat_from_v3 hver
  refine ⟨fun hle => hd.trans (if_pos hle), fun hgt => ?_⟩
  obtain ⟨m, hmax⟩ := (divisorBounds_of_valid hv).2
  obtain ⟨k, hk, hfound, hstop, hbefore⟩ := searchV3_finds m fund.toNat speed.toNat
  have hbound := p.maxdivV3.isLt
  rw [if_neg (BitVec.not_le.2 hgt), hmax, Nat.mul_div_cancel_left _ Nat.two_pos, hfound,
    Nat.mod_eq_of_lt (by omega)] at hd
  rw [hd, hmax]
  refine ⟨by omega, by omega, by omega, hstop.imp_right (congrArg fun i => 2 * (i + 1)), fun e heven hpos hlt => ?_⟩
  obtain ⟨j, rfl⟩ : ∃ j, e = 2 * (j + 1) := ⟨e / 2 - 1, by omega⟩
  exact hbefore j (by omega)

/-! ## SETCLK as a whole operation (rules R242, R247 to R249) -/

/-- The divisor word SETCLK of `s` writes at CK_3 (rules R245, R247). -/
def State.divisorWord (s : State) : Word := s.cfg.clockWord (divisor s.cfg s.ctx.hostver s.ctx.fundclk s.q.value)

/-- SETCLK of `s` with the divisor word written: before its poll (rule R247). -/
def State.divided (s : State) : State :=
  ((s.accept .setclk).regWrite .clkctl s.divisorWord).goto (.setclk (.ck_4 s.divisorWord .start))

/-- CK_0 to CK_3 of a request that passes the check (rules R243 to R247). -/
theorem runs_divided (hspeed : s.q.value ≠ 0) (hfund : s.ctx.fundclk ≠ 0) : Runs 4 (s.accept .setclk) s.divided :=
  .label rfl (labelAt_ck_0_passes hspeed hfund) (.label rfl rfl (.label rfl rfl (.label rfl rfl (.zero _))))

/-- CK_4 is a poll of `CLKCTL` (rule R248). -/
theorem pollAt_ck_4 (cfg : Config.Params) (clk : Word) (cs : List Pos) :
    PollAt cfg .clkctl cfg.clockStable cfg.tClock (fun p => .setclk (.ck_4 clk p)) (fun _ => .setclk (.ck_5 clk)) cs :=
  fun _ _ hcfg hu => hcfg ▸ (step_running hu).trans (execSetclk_at hu)

/-- In a valid record the counter holds the poll of SETCLK (rule R42). -/
theorem tClock_fits (h : p.valid = true) : p.tClock + p.tStep < 2 ^ p.elapsedW :=
  timeout_fits h (by simp)

/-- The poll of SETCLK fails exactly where the clock-stable bit reads 0 (rule R248). -/
theorem clockStable_eq_false_iff {v : Word} : p.clockStable v = false ↔ v &&& p.hl.ccStable = 0 := by
  simp [Config.Params.clockStable, Word.hits]

section accepted
variable {bad rest : List Word} (hs : s.ready) (hv : s.cfg.valid = true) (hspeed : s.q.value ≠ 0)
  (hfund : s.ctx.fundclk ≠ 0) (hbad : ∀ v ∈ bad, v &&& s.cfg.hl.ccStable = 0)
include hs hv hspeed hfund hbad

/-- SETCLK whose clock is found stable within `NPOLL(T_CLOCK)` reads enables the output clock (rules R248, R249). -/
theorem setclk_stable {good : Word} (hsc : s.env.script = bad ++ good :: rest) (hgood : good &&& s.cfg.hl.ccStable ≠ 0)
    (hn : bad.length < s.cfg.npoll s.cfg.tClock) :
    Completes .setclk (2 * bad.length + 6) s
      { s.ended .success (bad.length + 1) ([s.writeOf .clkctl s.divisorWord] ++ s.pollsOf .clkctl bad ++
          [s.readOf .clkctl good, s.writeOf .clkctl (s.divisorWord ||| s.cfg.hl.ccSdce)]) with
        elapsed := bad.length * s.cfg.tStep } := by
  have hpoll := poll_passes (s := s.divided) (pollAt_ck_4 _ _ []) rfl hsc
    (fun v h => clockStable_eq_false_iff.2 (hbad v h)) ((hits_iff _ _).2 hgood) hn (tClock_fits hv)
  have hrun := (runs_divided hspeed hfund).trans (hpoll.trans (.label rfl rfl (.zero _)))
  rw [show 4 + (2 * bad.length + 2 + 1) = 2 * bad.length + 6 + 1 by omega] at hrun
  refine .of_ready hs rfl hrun ?_
  rw [State.finish_outermost (h := rfl)]
  simp [State.ended, State.divided, State.readOf, State.writeOf, State.pollsOf, State.regAddr, hsc]

/-- SETCLK whose clock is not stable within `NPOLL(T_CLOCK)` reads ends with `Timeout`, the divisor word written (rule
R248). -/
theorem setclk_unstable (hsc : s.env.script = bad ++ rest) (hn : bad.length = s.cfg.npoll s.cfg.tClock) :
    Completes .setclk (2 * bad.length + 4) s
      { s.ended .timeout bad.length ([s.writeOf .clkctl s.divisorWord] ++ s.pollsOf .clkctl bad) with
        elapsed := bad.length * s.cfg.tStep } := by
  have hpoll := poll_exhausted (s := s.divided) (pollAt_ck_4 _ _ []) rfl hsc
    (fun v h => clockStable_eq_false_iff.2 (hbad v h)) hn (tStep_pos_of_valid hv) (tClock_fits hv)
  have hrun := (runs_divided hspeed hfund).trans hpoll
  rw [show 4 + (2 * bad.length + 1) = 2 * bad.length + 4 + 1 by omega] at hrun
  refine .of_ready hs rfl hrun ?_
  rw [State.finish_outermost (h := rfl)]
  simp [State.ended, State.divided, State.readOf, State.writeOf, State.pollsOf, State.regAddr, hsc]

end accepted

/-- Settles O60: the poll of the accepted request passes or fails to the end. -/
theorem setclkCompletes : Obligations.SetclkCompletes := fun _ _ _ hs hv hspeed hfund hbad =>
  ⟨fun _ => setclk_stable hs hv hspeed hfund hbad, setclk_unstable hs hv hspeed hfund hbad⟩

end Sys2Proof.Machine
end

section
/-! SUPPORT. Endings (rules R112, R262, R280, R281): what an ending does by the operation that called, and the statuses each
label may end its operation with. -/

namespace Sys2Proof.Machine

variable {s t u : State}

/-! ## An ending by its caller (rules R280, R281) -/

/-- Settles O31: with no caller the status is delivered; a caller goes on as its position makes of the status, and only
SC_11 makes something of it. -/
theorem endingAnOperation : Obligations.EndingAnOperation := by
  intro s st pos
  have hcallers : ∀ cs, s.seq = .running pos cs → s.seq.callers = cs := fun cs hs => by rw [hs, Seq.callers_running]
  exact ⟨fun hs => s.finish_outermost st (hcallers _ hs), fun _ hs => s.finish_nested st _ _ (hcallers _ hs),
    fun hs => s.finish_nested st _ _ (hcallers _ hs), fun _ _ _ _ _ _ hs => s.finish_nested st _ _ (hcallers _ hs)⟩

/-- No assignment of a label moves the sequencer. -/
theorem Assigns.seq {pos : Pos} (a : Assigns s pos u) : u.seq = s.seq := by
  cases a with
  | nothing k | context hc k | firstWord hr k | allWords k | result k =>
    obtain ⟨e, b, v, hs, rfl⟩ := k.eq
    rfl

/-- SDHB becomes `IDLE` only from the outermost level (rules R280, R281). -/
theorem labelAt_idle_outermost {pos : Pos} (h : labelAt pos s = .next t) (hidle : t.seq = .idle) : s.seq.callers = [] := by
  obtain ⟨u, hm, ha⟩ := labelAt_assigns h
  cases hm with
  | goto | call => cases hidle
  | finish st =>
    cases hcs : u.seq.callers with
    | nil => rwa [← ha.seq]
    | cons c cs =>
      rw [u.finish_nested st c cs hcs] at hidle
      cases hidle

/-! ## The status a label leaves (rule R262) -/

/-- If SDHB is `IDLE`, then `Q.STATUS` holds a status operation `i` can end with. -/
def Delivers (i : Instr) (t : State) : Prop := t.seq = .idle → ∃ st ∈ i.endings, t.q.status = st.code

namespace Delivers
variable {i : Instr}

theorem goto (u : State) (pos : Pos) : Delivers i (u.goto pos) := nofun

theorem call (u : State) (callee ret : Pos) : Delivers i (u.call callee ret) := nofun

/-- An ending delivers its status, or goes on in the caller (rules R280, R281). -/
theorem finish {st : Status} (u : State) (hst : st ∈ i.endings) : Delivers i (u.finish st) := by
  intro hidle
  cases hcs : u.seq.callers with
  | nil => exact ⟨st, hst, by rw [u.finish_outermost st hcs]⟩
  | cons c cs =>
    rw [u.finish_nested st c cs hcs] at hidle
    cases hidle

/-- A poll ends with `Timeout` or not at all (rule R13). -/
theorem poll {r : Reg} {pred : Word → Bool} {T : Nat} {here : PollPos → Pos} {done : Word → Pos} {p : PollPos}
    (hst : .timeout ∈ i.endings) (h : pollUntil r pred T here done p s = .next t) : Delivers i t := by
  rcases pollUntil_next h with ⟨-, rfl⟩ | ⟨-, -, rfl⟩ | ⟨-, -, rfl⟩ | ⟨-, -, rfl⟩ | ⟨-, -, rfl⟩
  · exact .goto _ _
  · exact .goto _ _
  · exact .goto _ _
  · exact .goto _ _
  · exact .finish _ hst

end Delivers

theorem init0At_delivers {l : Init0Pos} (h : init0At l s = .next t) : Delivers .init0 t := by
  cases l with
  | i0_1 | i0_2 | i0_3 => cases h; exact .goto _ _
  | i0_4 caps =>
    obtain ⟨volts, -, rfl⟩ := init0At_i0_4_next h
    split
    · exact .finish _ (by decide)
    · exact .goto _ _
  | i0_5 caps =>
    simp only [init0At] at h
    split at h <;> cases h
    · exact .finish _ (by decide)
    · exact .goto _ _
  | i0_6 caps =>
    cases h
    refine .finish _ ?_
    split_ifs <;> decide

theorem init1At_delivers {l : Init1Pos} (h : init1At l s = .next t) : Delivers .init1 t := by
  cases l with
  | i1_1 | i1_2 | i1_3 => cases h; exact .goto _ _
  | i1_4 => cases h; exact .finish _ (by decide)

theorem resetAt_delivers {f : BitVec 3} {l : ResetPos} (h : resetAt f l s = .next t) : Delivers (.reset f) t := by
  cases l with
  | rs_1 | rs_2 | rs_3 | rs_5 => cases h; exact .goto _ _
  | rs_4 bits p => unfold resetAt at h; exact .poll (by simp [Instr.endings]) h
  | rs_6 => cases h; exact .finish _ (by simp [Instr.endings])

/-- SC_10 ends nothing (rules R194 to R196). -/
theorem captureAt_delivers {v : Word} (h : captureAt v s = .next t) : Delivers .send t := by
  unfold captureAt at h
  split at h
  · split at h <;> cases h <;> exact .goto _ _
  · cases h; exact .goto _ _

/-- SEND passes on a status of the data mover, which is one of its own (rules R200, R262). -/
theorem sendAt_delivers {l : SendPos} (hpos : PosOk s (.send l)) (h : sendAt l s = .next t) : Delivers .send t := by
  cases l with
  | sc_0 =>
    simp only [sendAt] at h
    split at h <;> cases h
    split
    · exact .finish _ (by decide)
    · exact .goto _ _
  | sc_1 | sc_3 | sc_4 | sc_5 | sc_6 | sc_10b | sc_10c | sc_10d => cases h; exact .goto _ _
  | sc_2 mask p => unfold sendAt at h; exact .poll (by decide) h
  | sc_7 p => unfold sendAt at h; exact .poll (by decide) h
  | sc_8 v =>
    cases h
    split
    · exact .call _ _ _
    · exact .goto _ _
  | sc_8r => cases h; exact .finish _ (by decide)
  | sc_9 v =>
    cases h
    split
    · exact .finish _ (by decide)
    · exact .goto _ _
  | sc_10 v => exact captureAt_delivers h
  | sc_11 =>
    cases h
    split
    · exact .call _ _ _
    · exact .goto _ _
  | sc_11r st =>
    obtain ⟨-, hst⟩ := hpos
    have hsub : Instr.fifoRead.endings ⊆ Instr.send.endings := by decide
    cases h
    split
    · exact .goto _ _
    · exact .finish _ (hsub hst)
  | sc_12 => cases h; exact .finish _ (by decide)

theorem getbwAt_delivers {l : GetbwPos} (h : getbwAt l s = .next t) : Delivers .getbw t := by
  cases l with
  | gb_1 => cases h; exact .goto _ _
  | gb_2 v => cases h; exact .finish _ (by decide)

theorem setbwAt_delivers {l : SetbwPos} (h : setbwAt l s = .next t) : Delivers .setbw t := by
  cases l with
  | sb_0 =>
    cases h
    split
    · exact .goto _ _
    · exact .finish _ (by decide)
  | sb_1 => cases h; exact .goto _ _
  | sb_2 v => cases h; exact .finish _ (by decide)

theorem setclkAt_delivers {l : SetclkPos} (h : setclkAt l s = .next t) : Delivers .setclk t := by
  cases l with
  | ck_0 =>
    cases h
    split
    · exact .finish _ (by decide)
    · exact .goto _ _
  | ck_1 | ck_2 | ck_3 => cases h; exact .goto _ _
  | ck_4 clk p => unfold setclkAt at h; exact .poll (by decide) h
  | ck_5 clk => cases h; exact .finish _ (by decide)

/-- From a good state every label leaves a status of its operation where SDHB becomes `IDLE`; the data mover, which SC_11
calls, never makes it `IDLE`. -/
theorem labelAt_delivers {pos : Pos} {cs : List Pos} (h : s.Inv) (hs : s.seq = .running pos cs)
    (ht : labelAt pos s = .next t) : Delivers pos.op t := by
  cases pos with
  | init0 l => exact init0At_delivers ht
  | init1 l => exact init1At_delivers ht
  | reset f l => exact resetAt_delivers ht
  | send l => exact sendAt_delivers (h.posOk hs) ht
  | getbw l => exact getbwAt_delivers ht
  | setbw l => exact setbwAt_delivers ht
  | getclk => cases ht; exact .finish _ (by decide)
  | setclk l => exact setclkAt_delivers ht
  | fifo d l =>
    intro hidle
    obtain ⟨st, rfl⟩ := (op_fifo d l ▸ h.callersOk hs).fifo_eq
    have houter := labelAt_idle_outermost ht hidle
    rw [hs] at houter
    cases houter

/-- One step of an operation from a good state leaves a status of that operation where SDHB becomes `IDLE`. -/
theorem exec_delivers {i : Instr} (h : s.Inv) (ht : exec i s = .next t) : Delivers i t := by
  cases exec_next ht with
  | accepted hs hi hc ht => exact start_op i ▸ labelAt_delivers (h.accept hc hi) rfl ht
  | label pos cs hs hop ht => exact hop ▸ labelAt_delivers h hs ht
  | held pos cs hs hop heq =>
    subst heq
    intro hidle
    rw [hs] at hidle
    cases hidle

/-! ## The statement (rule R262) -/

/-- The data mover ends in the same ways in both directions. -/
theorem dataPhase_endings (d : Dir) : (dataPhase d).endings = Instr.fifoRead.endings := by cases d <;> rfl

/-- The status the data mover hands to SC_11 is one of its own, as the invariant has it there. -/
theorem fifo_hands_on_ending {d : Dir} {l : FifoPos} {cs : List Pos} {st : Status} (h : s.Inv)
    (hs : s.seq = .running (.fifo d l) cs) (ht : exec (Pos.fifo d l).op s = .next t)
    (hr : t.seq = .running (.send (.sc_11r st)) []) : st ∈ (Pos.fifo d l).op.endings := by
  obtain ⟨-, hst⟩ := (labelAt_inv h hs (exec_op hs ▸ ht)).posOk hr
  rwa [op_fifo, dataPhase_endings]

/-- Settles O30: what an operation delivers and what the data mover hands to SEND are its own endings; a reserved request
ends at once. -/
theorem endingStatuses : Obligations.EndingStatuses := by
  intro i s t h ht
  refine ⟨fun _ _ => exec_delivers h ht, fun _ => exec_delivers h ht, ?_, ?_⟩
  · rintro d l st₀ st hs rfl hr
    exact fifo_hands_on_ending h hs ht hr
  · intro r t req rest why hidle hi hd ht
    obtain ⟨-, rfl⟩ := reservedRequest_next (step_reserved hidle hi hd ▸ ht)
    exact ⟨hidle, rfl⟩

end Sys2Proof.Machine
end

section
/-! SUPPORT. SEND without data in every environment (rules R189, R192, R331): from each label of SEND the operation ends within
a number of port events, label by label from the end of the operation to its start. -/

namespace Sys2Proof.Machine

variable {s u : State} {v : Word} {a b n : Nat}

/-! ## Ending within a number of port events -/

/-- SDHB becomes `IDLE` after at most `b` port events, with the context and the buffer it has in `s` (rule R331). -/
def EndsWithin (b : Nat) (s : State) : Prop :=
  ∃ n t, Runs n s t ∧ t.seq = .idle ∧ t.ctx = s.ctx ∧ t.buf = s.buf ∧ t.hist.length ≤ s.hist.length + b

namespace EndsWithin

/-- A looser bound. -/
theorem mono (h : EndsWithin a s) (hab : a ≤ b) : EndsWithin b s := by
  obtain ⟨n, t, hrun, hidle, hctx, hbuf, hlen⟩ := h
  exact ⟨n, t, hrun, hidle, hctx, hbuf, hlen.trans (Nat.add_le_add_left hab _)⟩

/-- An `IDLE` state has ended. -/
theorem of_idle (hs : s.seq = .idle) : EndsWithin 0 s := ⟨0, s, .zero s, hs, rfl, rfl, le_rfl⟩

/-- The outermost ending makes SDHB `IDLE` without a port event (rule R280). -/
theorem finish (st : Status) (hs : s.seq.callers = []) : EndsWithin 0 (s.finish st) :=
  of_idle (by rw [State.finish_outermost s st hs])

/-- A run that leaves context and buffer alone adds its events to the bound. -/
theorem after (h : EndsWithin b u) (hrun : Runs n s u) (hctx : u.ctx = s.ctx) (hbuf : u.buf = s.buf)
    (hlen : u.hist.length ≤ s.hist.length + a) : EndsWithin (a + b) s := by
  obtain ⟨m, t, hrun', hidle, hctx', hbuf', hlen'⟩ := h
  exact ⟨n + m, t, hrun.trans hrun', hidle, hctx'.trans hctx, hbuf'.trans hbuf, by omega⟩

/-- A run that leaves context, buffer and history alone keeps the bound. -/
theorem after_silent (h : EndsWithin b u) (hrun : Runs n s u) (hctx : u.ctx = s.ctx) (hbuf : u.buf = s.buf)
    (hhist : u.hist = s.hist) : EndsWithin b s :=
  (h.after (a := 0) hrun hctx hbuf (by rw [hhist]; rfl)).mono (by omega)

/-- A poll at the outermost level adds its `2 * NPOLL(T)` events to the bound `c` of what follows; one fewer, as the read that
passes has no stall after it (rules R9, R13, R331). -/
theorem poll {r : Reg} {pred : Word → Bool} {T c : Nat} {here : PollPos → Pos} {done : Word → Pos}
    (hp : PollAt s.cfg r pred T here done []) (hs : s.seq = .running (here .start) []) (hv : s.cfg.valid = true)
    (hW : T + s.cfg.tStep < 2 ^ s.cfg.elapsedW) (hc : 0 < c)
    (hdone : ∀ v e env es, EndsWithin c
      { s with seq := .running (done v) [], elapsed := e, env := env, hist := es ++ s.hist }) :
    EndsWithin (2 * s.cfg.npoll T + c - 1) s := by
  obtain ⟨n, es, e, env, -, ⟨v, -, hlen, hrun⟩ | ⟨hlen, hrun⟩⟩ := poll_ends hp hs (tStep_pos_of_valid hv) hW
  · refine ((hdone v e env es).after (a := es.length) hrun rfl rfl ?_).mono (by omega)
    simp [Nat.add_comm]
  · refine ((EndsWithin.finish .timeout ?_).after (a := es.length) hrun rfl rfl ?_).mono (by omega)
    · simp [hs]
    · simp [Nat.add_comm]

/-- The request of a ready state completes where the accepted request ends. -/
theorem completes {i : Instr} (h : EndsWithin b (s.accept i)) (hs : s.ready) (hi : i.wellFormed = true) :
    ∃ n t, Completes i n s t ∧ t.seq = .idle ∧ t.ctx = s.ctx ∧ t.buf = s.buf ∧
      t.hist.length ≤ s.hist.length + b := by
  obtain ⟨n, t, hrun, hidle, hctx, hbuf, hlen⟩ := h
  cases n with
  | zero => cases hrun; cases hidle
  | succ n => exact ⟨n, t, .of_ready hs hi hrun rfl, hidle, hctx, hbuf, hlen⟩

end EndsWithin

/-! ## The labels of SEND, from the last to the first -/

/-- The port events of SEND without data from its outcome on (rules R192, R196, R331): the four reads of a long capture, or
a nested RESET. -/
def outcomeBound (p : Config.Params) : Nat := max 4 (2 * p.npoll p.tReset + 3)

section withoutData
variable (hdata : s.desc.bufsize = 0)
include hdata

/-- The end of SEND without data makes no port event (rule R200). -/
theorem sc_11_endsWithin (hs : s.seq = .running (.send .sc_11) []) : EndsWithin 0 s := by
  have hsc_12 : (s.goto (.send .sc_12)).seq = .running (.send .sc_12) [] := by simp [hs]
  have hrun := Runs.label hs (labelAt_sc_11_done hdata) (runs_sc_12 hsc_12)
  exact (EndsWithin.of_idle rfl).after_silent hrun rfl rfl rfl

/-- A run to SC_11 with at most four port events, whatever response it stored, ends within four. -/
theorem endsWithin_of_captured (hrun : Runs n s u) (hu : u.seq = .running (.send .sc_11) [])
    (hsize : u.desc.bufsize = s.desc.bufsize) (hctx : u.ctx = s.ctx) (hbuf : u.buf = s.buf)
    (hlen : u.hist.length ≤ s.hist.length + 4) : EndsWithin 4 s :=
  (sc_11_endsWithin (hsize.trans hdata) hu).after hrun hctx hbuf hlen

/-- The capture makes at most the four reads of a long response (rules R194 to R196). -/
theorem sc_10_endsWithin (hs : s.seq = .running (.send (.sc_10 v)) []) : EndsWithin 4 s := by
  by_cases hv : v &&& s.cfg.sl.isCmdComplete = 0
  · exact endsWithin_of_captured hdata (.label hs (labelAt_sc_10_incomplete hv) (.zero _)) (by simp [hs]) rfl rfl rfl
      (by simp)
  have hword (hc : s.desc.rclass = .short ∨ s.desc.rclass = .busy) : EndsWithin 4 s :=
    endsWithin_of_captured hdata (.label hs (labelAt_sc_10_word hv hc) (.zero _)) (by simp [hs]) rfl rfl rfl (by simp)
  cases hc : s.desc.rclass with
  | none =>
    exact endsWithin_of_captured hdata (.label hs (labelAt_sc_10_none hc) (.zero _)) (by simp [hs]) rfl rfl rfl (by simp)
  | short => exact hword (.inl hc)
  | busy => exact hword (.inr hc)
  | long =>
    have hrun : Runs 4 s _ :=
      .label hs (labelAt_sc_10_long hv hc) (.label rfl rfl (.label rfl rfl (.label rfl rfl (.zero _))))
    exact endsWithin_of_captured hdata hrun (by simp [hs]) (by simp) (by simp) (by simp) (by simp)

/-- From the outcome on SEND makes the events of a nested RESET, none, or those of the capture (rules R191 to R194). -/
theorem sc_8_endsWithin (hs : s.seq = .running (.send (.sc_8 v)) []) (hv : s.cfg.valid = true) :
    EndsWithin (outcomeBound s.cfg) s := by
  by_cases ht : v &&& s.cfg.sl.isCmdTimeout = 0
  · by_cases he : v &&& s.cfg.sl.isError = 0
    · have hcapture := sc_10_endsWithin (s := { s with seq := .running (.send (.sc_10 v)) [] }) hdata rfl
      exact (hcapture.after_silent (runs_sc_10 hs ht he) rfl rfl rfl).mono (le_max_left _ _)
    · have hrun := Runs.label hs (labelAt_sc_8_passes ht) (.label rfl (labelAt_sc_9_error he) (.zero _))
      have hend := EndsWithin.finish (s := s.goto (.send (.sc_9 v))) .deviceError (by simp [hs])
      exact (hend.after_silent hrun rfl rfl rfl).mono (Nat.zero_le _)
  · obtain ⟨n, t, w, es, hrun, heq, hhist, -, hlen, -⟩ := sendCommandTimeout s v hs hv ht
    have hend : EndsWithin 0 t := .of_idle (by rw [heq])
    refine (hend.after (a := 2 * s.cfg.npoll s.cfg.tReset + 3) (hrun.runs hs rfl) (by rw [heq]) (by rw [heq]) ?_).mono
      (le_max_right _ _)
    simp only [hhist, List.length_append, List.length_cons, List.length_nil]
    omega

/-- The three writes that program a command without data, the outcome poll and what follows it (rules R186 to R189). -/
theorem sc_3_endsWithin (hs : s.seq = .running (.send .sc_3) []) (hv : s.cfg.valid = true) :
    EndsWithin (3 + (2 * s.cfg.npoll s.cfg.tCmd + outcomeBound s.cfg - 1)) s := by
  have hpoll := EndsWithin.poll (s := { s with
      seq := .running (.send (.sc_7 .start)) []
      hist := (s.writeOf .intsts s.cfg.intAll ::
        ((if s.desc.bufsize ≠ 0 then [s.writeOf .blkszcnt (s.cfg.blkszcntWord s.desc)] else []) ++
          [s.writeOf .arg s.desc.arg, s.writeOf .cmd (s.cfg.commandWord s.desc s.ctx.hostcaps)])).reverse ++ s.hist })
    (c := outcomeBound s.cfg) (pollAt_sc_7 _ []) rfl hv (timeout_fits hv (by simp)) (by simp [outcomeBound])
    fun v e env es => sc_8_endsWithin hdata rfl hv
  refine hpoll.after ((sendProgramming s [] hs).runs hs rfl) rfl rfl ?_
  simp [hdata]

end withoutData

/-! ## The whole operation -/

/-- An accepted SEND without data: the operand check of SC_0, the inhibit poll, and the rest (rules R181, R185, R331). -/
theorem accepted_send_endsWithin (hv : s.cfg.valid = true) (hpre : s.desc.preconditions s.cfg s.dbuf = true)
    (hdata : s.desc.bufsize = 0) :
    EndsWithin (2 * s.cfg.npoll s.cfg.tInhibit + (3 + (2 * s.cfg.npoll s.cfg.tCmd + outcomeBound s.cfg - 1)) - 1)
      (s.accept .send) := by
  cases hinv : s.desc.invalid with
  | true =>
    have hsc_0 := labelAt_sc_0 (s := s.accept .send) hpre
    rw [State.accept_desc, hinv, if_pos rfl] at hsc_0
    exact ((EndsWithin.finish .invalidParameter rfl).after_silent (.label rfl hsc_0 (.zero _)) rfl rfl rfl).mono
      (Nat.zero_le _)
  | false =>
    have hpoll := EndsWithin.poll (s := (s.accept .send).goto (.send (.sc_2 (s.cfg.inhibitMask s.desc) .start)))
      (c := 3 + (2 * s.cfg.npoll s.cfg.tCmd + outcomeBound s.cfg - 1)) (pollAt_sc_2 _ _ []) rfl hv
      (timeout_fits hv (by simp)) (by omega)
      fun v e env es => sc_3_endsWithin hdata rfl hv
    exact hpoll.after_silent (runs_sc_2 ⟨hpre, hinv⟩) rfl rfl rfl

/-- Settles O49: the accepted request ends from its first label, in every environment. -/
theorem sendWithoutDataTerminates : Obligations.SendWithoutDataTerminates := by
  intro s hs hv hpre hdata
  refine ((accepted_send_endsWithin hv hpre hdata).mono ?_).completes hs rfl
  simp only [outcomeBound]
  omega

end Sys2Proof.Machine
end
